-- ==== Sys2Proof/Word.lean ====
section
/-! DEFINITION. The machine words of HDC-1: a value, a register and a window word are 32 bits, a
bit-stream cell is 8 bits (00_scope.md R5, R6, R7; 10_state.md R21, R33). -/

namespace Sys2Proof

/-- A 32-bit word: a register, a window word, or a value read as a two's-complement signed integer
through `BitVec.toInt` (R7: `sext_32`). -/
abbrev Word := BitVec 32

/-- One byte of the bit-stream buffer, unsigned (R33). -/
abbrev Byte := BitVec 8

end Sys2Proof
end

