-- ==== Sys2Proof/Config.lean ====
section
/-! DEFINITION. What an implementation of HDC-1 fixes: the parameters of 00_scope.md R5 as a record, the values
HDC-1 takes, the identification constant, and the free value of an `UNSPEC` cell (93_implementation_defined.md U1). -/

namespace Sys2Proof.Config

/-- The capacities of R5. `W = 32`, `FREQ_BITS = 32` and `STRIDE = 2` are fixed and stand in the types and rules. -/
structure Params where
  /-- `MAX_VALUES`, the cells of `VBUF`. -/
  maxValues : Nat
  /-- `MAX_BYTES`, the bytes of `BBUF`. -/
  maxBytes : Nat
  /-- `MAX_SYMS`, the entries of `FT`. -/
  maxSyms : Nat
  /-- `CODE_MAX`, the greatest code length the code table holds. -/
  codeMax : Nat
deriving DecidableEq, Repr

/-- The constraints R5 puts on the parameters. -/
def Params.ok (P : Params) : Bool :=
  decide (1 ≤ P.maxValues) && decide (P.maxValues ≤ 2 ^ 18) &&
  decide (P.maxBytes % 4 = 0) && decide (P.maxBytes ≤ 2 ^ 20) && decide (8 * P.maxBytes < 2 ^ 32) &&
  decide (1 ≤ P.maxSyms) && decide (P.maxSyms ≤ 2 ^ 15) &&
  decide (1 ≤ P.codeMax) && decide (P.codeMax ≤ 32)

/-- The values HDC-1 takes (R5). -/
def hdc1 : Params := { maxValues := 65536, maxBytes := 262144, maxSyms := 4096, codeMax := 32 }

/-- `ID` = the ASCII bytes H D C 1, `H` in bits 31:24 (10_state.md R24). -/
def idWord : Word := 0x48444331#32

/-- FREE VALUE (log entry 4): the word an `UNSPEC` cell shows to the host read that is transaction number `n`
(20_memory.md R63, 93_implementation_defined.md U1: `any value`). It has no body: no proof can know it. -/
opaque freeWord : Nat → Word

end Sys2Proof.Config
end

