-- ==== Sys2Proof/Syntax.lean ====
section
/-! DEFINITION. The eleven commands of the HDC-1 command set (30_encoding.md R93), one constructor per row of
spec/opcode_table.json, and the host transactions that carry them (30_encoding.md R101). -/

namespace Sys2Proof

/-- The opcodes of R93 by name, with no operand. -/
inductive Opcode where
  | nop | clr | srst | denc | ddec | fcnt | fput | btree | gcode | enc | dec
deriving DecidableEq, Repr

/-- A command. Every operand but the mask of `CLR` is implicit (R91). -/
inductive Instr where
  /-- No operation (R170). -/
  | nop
  /-- Selective clear; `arg` is the 8-bit mask of R91: bit 0 V, 1 B, 2 F, 3 T, 7 E, bits 6:4 must be 0 (R171). -/
  | clr (arg : Byte)
  /-- Soft reset (R172). -/
  | srst
  /-- Delta-encode `VBUF` in place (R110). -/
  | denc
  /-- Delta-decode `VBUF` in place (R111). -/
  | ddec
  /-- Count the frequencies of `VBUF` into `FT` (R121). -/
  | fcnt
  /-- Put one entry into `FT` (R122). -/
  | fput
  /-- Build the Huffman tree of `FT` (R131). -/
  | btree
  /-- Generate the codes of the tree (R135). -/
  | gcode
  /-- Encode `VBUF` and pack it into `BBUF` (R150). -/
  | enc
  /-- Unpack `BBUF` and decode it into `VBUF` (R151). -/
  | dec
deriving DecidableEq, Repr

/-- One thing the host does to the block: a 32-bit write, a 32-bit read (20_memory.md R63, R64; `wr` and `rd` of
R97), or a hardware reset, which may come between any two transactions (70_reset_and_hazards.md R240, U11). Addresses
are byte offsets from `BASE`. -/
inductive HostEvent where
  | write (addr : Nat) (data : Word)
  | read (addr : Nat)
  | hardReset
deriving DecidableEq, Repr

end Sys2Proof
end

