-- ==== Sys2Proof/WellFormed.lean ====
section
/-! DEFINITION. Which commands and which host transactions are well formed: the two checks the spec makes on
operands (30_encoding.md R91, R92; 20_memory.md R61). -/

namespace Sys2Proof

/-- The reserved bits of the `CLR` mask are 0 (R91: `arg[6:4]` reserved and must be 0). -/
def clrMaskOk (arg : Byte) : Bool := arg.extractLsb' 4 3 == 0#3

/-- A command whose operand the encoding admits (R92). Only `CLR` has an operand. -/
def Instr.wellFormed : Instr → Bool
  | .clr arg => clrMaskOk arg
  | .nop | .srst | .denc | .ddec | .fcnt | .fput | .btree | .gcode | .enc | .dec => true

/-- An address the port can express: word aligned and below 2^24 (R61). -/
def addrOk (addr : Nat) : Bool := addr % 4 == 0 && decide (addr < 2 ^ 24)

/-- A transaction the port can express (R61). A hardware reset needs no address. -/
def HostEvent.wellFormed : HostEvent → Bool
  | .write addr _ => addrOk addr
  | .read addr => addrOk addr
  | .hardReset => true

end Sys2Proof
end

