-- ==== Sys2Proof/Decode.lean ====
section
/-! DEFINITION. Decoding a command word, total on all 32-bit words and rejecting by name (30_encoding.md R90 to R94),
and the encoder written from the same table. -/

namespace Sys2Proof

/-- Why a word is illegal: the four tests of R92 in its order. -/
inductive Illegal where
  /-- (1) `c[31:16]` is not 0. -/
  | reservedBits
  /-- (2) `c[7:0]` is not one of the eleven opcodes. -/
  | unknownOpcode
  /-- (3) the opcode is `CLR` and `c[14:12]` is not 0. -/
  | clrReservedMask
  /-- (4) the opcode is not `CLR` and `c[15:8]` is not 0. -/
  | strayArg
deriving DecidableEq, Repr

/-- What R92 makes of a word: one command, or an illegal word with the test that it failed. -/
inductive Decoded where
  | instr (i : Instr)
  | illegal (why : Illegal)
deriving DecidableEq, Repr

/-- The opcode values of R93's table. -/
def Opcode.code : Opcode → Byte
  | .nop => 0x00#8
  | .clr => 0x01#8
  | .srst => 0x02#8
  | .denc => 0x10#8
  | .ddec => 0x11#8
  | .fcnt => 0x20#8
  | .fput => 0x21#8
  | .btree => 0x22#8
  | .gcode => 0x23#8
  | .enc => 0x30#8
  | .dec => 0x31#8

/-- Every opcode, in the order of R93's table. -/
def Opcode.all : List Opcode :=
  [.nop, .clr, .srst, .denc, .ddec, .fcnt, .fput, .btree, .gcode, .enc, .dec]

/-- The opcode with a given value, if it is one of the eleven. -/
def Opcode.ofByte? (op : Byte) : Option Opcode := Opcode.all.find? (fun o => o.code == op)

/-- The opcode of a command. -/
def Instr.opcode : Instr → Opcode
  | .nop => .nop
  | .clr _ => .clr
  | .srst => .srst
  | .denc => .denc
  | .ddec => .ddec
  | .fcnt => .fcnt
  | .fput => .fput
  | .btree => .btree
  | .gcode => .gcode
  | .enc => .enc
  | .dec => .dec

/-- The command an opcode names, given the `arg` field (used by `CLR` alone, R91). -/
def Opcode.instr (arg : Byte) : Opcode → Instr
  | .nop => .nop
  | .clr => .clr arg
  | .srst => .srst
  | .denc => .denc
  | .ddec => .ddec
  | .fcnt => .fcnt
  | .fput => .fput
  | .btree => .btree
  | .gcode => .gcode
  | .enc => .enc
  | .dec => .dec

/-- The field `op = c[7:0]` of R90. -/
def opField (c : Word) : Byte := c.extractLsb' 0 8

/-- The field `arg = c[15:8]` of R90. -/
def argField (c : Word) : Byte := c.extractLsb' 8 8

/-- The field `rsv = c[31:16]` of R90. -/
def rsvField (c : Word) : BitVec 16 := c.extractLsb' 16 16

/-- R92, its five steps in order. -/
def decode (c : Word) : Decoded :=
  if rsvField c ≠ 0#16 then .illegal .reservedBits
  else
    match Opcode.ofByte? (opField c) with
    | none => .illegal .unknownOpcode
    | some .clr =>
      if clrMaskOk (argField c) then .instr (.clr (argField c)) else .illegal .clrReservedMask
    | some o => if argField c ≠ 0#8 then .illegal .strayArg else .instr (o.instr 0#8)

/-- The `arg` field of a command's word: the mask of `CLR`, 0 for every other command (R90). -/
def Instr.argByte : Instr → Byte
  | .clr arg => arg
  | .nop | .srst | .denc | .ddec | .fcnt | .fput | .btree | .gcode | .enc | .dec => 0#8

/-- The word of a command: `rsv = 0`, then `arg`, then `op` (R90, R93). -/
def encode (i : Instr) : Word := 0#16 ++ (i.argByte ++ i.opcode.code)

/-- The command my decoder reads from a table row's bits: a command is one 32-bit data word (R90), so the `nbits` bits
are the low bits of that word and every bit above them is 0. -/
def decodeTableWord (nbits w : Nat) : Option Instr :=
  match decode (BitVec.ofNat 32 (w % 2 ^ nbits)) with
  | .instr i => some i
  | .illegal _ => none

end Sys2Proof
end

