-- ==== Sys2Proof/Machine/State.lean ====
section
/-! DEFINITION. The architectural state of HDC-1 as plain data (10_state.md R20 to R42), the host's side of it
(30_encoding.md R101), the ways a step can stop, and the state after reset (R41, R241). -/

namespace Sys2Proof.Machine

/-- The error codes of 60_exceptions.md R211; their numbers are `ErrCode.toWord`. -/
inductive ErrCode where
  /-- 0: no error recorded. -/
  | none
  /-- 1: the word written to `CMD` is illegal. -/
  | illCmd
  /-- 2: a length register is out of range, or odd for the delta commands. -/
  | len
  /-- 3: `FPUT` of a zero count. -/
  | zeroCnt
  /-- 4: `FPUT` of a value that is already in `FT`. -/
  | dupSym
  /-- 5: a difference or sum outside the value range, or a total count of 2^32 or more. -/
  | range
  /-- 6: a table or a buffer is too small. -/
  | capacity
  /-- 7: `BTREE` of an empty table. -/
  | empty
  /-- 8: no valid tree or no valid codes. -/
  | notReady
  /-- 9: `ENC` of a value without a code. -/
  | noCode
  /-- 10: `DEC` of a stream that ends inside a codeword or leaves a one-leaf tree. -/
  | walk
  /-- 11: more bits declared than the declared bytes hold. -/
  | trunc
deriving DecidableEq, Repr

/-- One entry of the frequency table `FT` (R34): a signed value and an unsigned count. -/
structure FtEntry where
  value : Word
  count : Word
deriving DecidableEq, Repr

/-- One entry of the node arena `NODE` (R35). A leaf has no children and carries its symbol; an internal node has two
node indices and its `value` is the constant 0. -/
inductive Node where
  | leaf (freq value : Word)
  | internal (freq : Word) (left right : Nat)
deriving DecidableEq, Repr

/-- One entry of the code table `CT` (R37): the code's length and its bits, right-aligned. -/
structure Code where
  len : Nat
  bits : Word
deriving DecidableEq, Repr

/-- A buffer: the cells that hold a value, by index, strictly rising. A cell that is not listed is `UNSPEC`
(R41, 70_reset_and_hazards.md R245). `Memory Byte` is a list of `Host.Cell`. -/
abbrev Memory (α : Type) := List (Nat × α)

/-- Why the machine stops with a fault. -/
inductive Fault where
  /-- `DENC`, `DDEC`, `FCNT` or `ENC` reads the `UNSPEC` cell `VBUF[index]` (R245, U1: "a model should treat such a
  read as a fault or a refusal"). Safe: the machine stops where the hardware goes on with an unspecified result. -/
  | vbufUnspec (index : Nat)
  /-- `DEC` reads the `UNSPEC` byte `BBUF[index]` (R245, U1). Safe, as above. -/
  | bbufUnspec (index : Nat)
  /-- `GCODE`, `ENC` or `DEC` meets tables that are not the tree and codes of R36 and R37. No run reaches it: every
  step keeps R36 and R37 (R42). Safe. -/
  | brokenTables
deriving DecidableEq, Repr

/-- Why a transaction is not accepted. -/
inductive Refusal where
  /-- An instruction that has no meaning yet. No arm of `exec` raises it: all eleven commands are modelled. -/
  | notModelled (mnemonic : String)
  /-- The host step's address is not word aligned or is not below 2^24: the port cannot express it, and R61 has the
  model refuse it at its boundary. Safe. -/
  | inexpressibleAddress (addr : Nat)
deriving DecidableEq, Repr

/-- The state. The first part is the block (R20); the last three fields are the host's side (R39, R101). `NSYM` is the
length of `ft` and `NNODES` the length of `nodes` (R30); `CMD` stores nothing (R23) and the constant registers are in
`Config` (R24). -/
structure State where
  /-- `STATUS.ERR` (R25). -/
  err : Bool
  /-- `STATUS.TREE_VALID` (R25). -/
  treeValid : Bool
  /-- `STATUS.CODES_VALID` (R25). -/
  codesValid : Bool
  /-- `ERRCODE` (R26). -/
  errCode : ErrCode
  /-- `ERRINFO` (R26). -/
  errInfo : Word
  /-- `ERRCMD` (R26). -/
  errCmd : Word
  /-- `VLEN` (R27). -/
  vlen : Word
  /-- `BLEN` (R28). -/
  blen : Word
  /-- `BITCNT` (R29). -/
  bitcnt : Word
  /-- `ROOT` (R30). -/
  root : Word
  /-- `FT_VAL` (R30). -/
  ftVal : Word
  /-- `FT_CNT` (R30). -/
  ftCnt : Word
  /-- The frequency table `FT` (R34). -/
  ft : List FtEntry
  /-- The node arena `NODE` (R35). -/
  nodes : List Node
  /-- The code table `CT` (R37). -/
  ct : List Code
  /-- The value buffer `VBUF` (R31). -/
  vbuf : Memory Word
  /-- The bit-stream buffer `BBUF` (R33), a list of `Host.Cell`. -/
  bbuf : Memory Byte
  /-- The transactions the host has still to perform, first one first (R101). -/
  pending : List HostEvent
  /-- How many transactions have been performed: the model's pc (R39), and the counter of the free value (log entry 4). -/
  txnIndex : Nat
  /-- The words returned to the host so far, first one first (R101). -/
  readLog : List Word
deriving DecidableEq, Repr

/-- The state right after reset (R41, R241), with no transaction pending and nothing read. -/
def State.reset : State where
  err := false
  treeValid := false
  codesValid := false
  errCode := .none
  errInfo := 0#32
  errCmd := 0#32
  vlen := 0#32
  blen := 0#32
  bitcnt := 0#32
  root := 0#32
  ftVal := 0#32
  ftCnt := 0#32
  ft := []
  nodes := []
  ct := []
  vbuf := []
  bbuf := []
  pending := []
  txnIndex := 0
  readLog := []

end Sys2Proof.Machine
end

