-- ==== Sys2Proof/Machine/Ops.lean ====
section
/-! DEFINITION. The named operations over memory and registers: the buffers, the counts of the tables, taking an
error and returning from one (60_exceptions.md R213 to R216), and reset (70_reset_and_hazards.md R240). -/

namespace Sys2Proof.Machine

/-! ## Buffers (R31, R33, R41) -/

/-- The value of cell `i`, or `none` when the cell is `UNSPEC` (R41, R245). -/
def Memory.read {α : Type} : Memory α → Nat → Option α
  | [], _ => none
  | c :: m, i => if c.1 = i then some c.2 else Memory.read m i

/-- Write cell `i`, keeping the list in rising order of index. -/
def Memory.write {α : Type} : Memory α → Nat → α → Memory α
  | [], i, v => [(i, v)]
  | c :: m, i, v =>
    if i < c.1 then (i, v) :: c :: m
    else if i = c.1 then (i, v) :: m
    else c :: Memory.write m i v

/-- Write consecutive cells from index `i` up. -/
def Memory.writeFrom {α : Type} (m : Memory α) (i : Nat) : List α → Memory α
  | [] => m
  | v :: vs => Memory.writeFrom (Memory.write m i v) (i + 1) vs

/-- Cells `0 .. n-1` become `UNSPEC`. -/
def Memory.forget {α : Type} (m : Memory α) (n : Nat) : Memory α := m.filter (fun c => decide (n ≤ c.1))

/-- The canonical form: indices strictly rising. (No entry reads as an unlisted cell does, since an unlisted cell has no
value.) -/
abbrev Memory.wf {α : Type} (m : Memory α) : Prop := m.Pairwise (fun a b => a.1 < b.1)

/-- Cells `i .. i+n-1` as they are read, `UNSPEC` ones as `none`. -/
def Memory.cellsFrom {α : Type} (m : Memory α) (i : Nat) : Nat → List (Option α)
  | 0 => []
  | n + 1 => Memory.read m i :: Memory.cellsFrom m (i + 1) n

/-! ## The counts of the tables (R30) -/

/-- `NSYM`: the number of entries of `FT` (R30). -/
def State.nsym (s : State) : Nat := s.ft.length

/-- `NNODES`: the number of entries of `NODE` in use (R30). -/
def State.nnodes (s : State) : Nat := s.nodes.length

/-! ## Taking an error, and returning from one (R214, R215) -/

/-- The number of an error code (R211). -/
def ErrCode.toWord : ErrCode → Word
  | .none => 0#32
  | .illCmd => 1#32
  | .len => 2#32
  | .zeroCnt => 3#32
  | .dupSym => 4#32
  | .range => 5#32
  | .capacity => 6#32
  | .empty => 7#32
  | .notReady => 8#32
  | .noCode => 9#32
  | .walk => 10#32
  | .trunc => 11#32

/-- `raise E(info)` while the command word `cmd` executes (R214): exactly the error record is written. -/
def raiseError (code : ErrCode) (info cmd : Word) (s : State) : State :=
  { s with err := true, errCode := code, errInfo := info, errCmd := cmd }

/-- The return from an error (R215), the E part of `CLR` (R171). -/
def clearError (s : State) : State :=
  { s with err := false, errCode := .none, errInfo := 0#32, errCmd := 0#32 }

/-- The error gate for a legal command that is neither `SRST` nor a `CLR` with E (R213): with an error recorded it is
ignored and nothing changes. -/
def gated (s : State) (run : Host.Outcome State Fault Refusal) : Host.Outcome State Fault Refusal :=
  if s.err then .next s else run

/-- An illegal command word (R94, R213). -/
def illegalCommand (c : Word) (s : State) : Host.Outcome State Fault Refusal :=
  gated s (.next (raiseError .illCmd 0#32 c s))

/-- What the work of a command over its operands comes to: a result, an error with its information word, or a fault of
the model. The first offending element decides (R217). -/
inductive Work (α : Type) where
  | done (a : α)
  | raise (code : ErrCode) (info : Word)
  | stop (why : Fault)
deriving DecidableEq, Repr

/-- Change the result of a piece of work. -/
def Work.map {α β : Type} (f : α → β) : Work α → Work β
  | .done a => .done (f a)
  | .raise code info => .raise code info
  | .stop why => .stop why

/-- End a command with its work: store the result, or mark the destination unusable and raise a data error (R216). -/
def settle {α : Type} (cmd : Word) (s : State) (store : α → State → State) (spoil : State → State) :
    Work α → Host.Outcome State Fault Refusal
  | .done a => .next (store a s)
  | .raise code info => .next (raiseError code info cmd (spoil s))
  | .stop why => .fault why

/-! ## Reset (R41, R172, R240) -/

/-- The one reset transition: every field of the block takes its reset value. The host's side (the transactions still to
come, how many were performed, what they returned) is not the block's and stays. -/
def resetBlock (s : State) : State :=
  { State.reset with pending := s.pending, txnIndex := s.txnIndex, readLog := s.readLog }

/-! ## The host's side (R39, R101) -/

/-- The host takes up its next transaction. -/
def takeEvent (rest : List HostEvent) (s : State) : State :=
  { s with pending := rest, txnIndex := s.txnIndex + 1 }

/-- The word a host read returns is handed to the host. -/
def logRead (w : Word) (s : State) : State := { s with readLog := s.readLog ++ [w] }

end Sys2Proof.Machine
end

