-- ==== Sys2Proof/Machine/Flags.lean ====
section
/-! DEFINITION. The flags of `STATUS` and everything that sets or clears them (10_state.md R25, R38), and the range
check that stands in place of an overflow flag (00_scope.md R7, R10). -/

namespace Sys2Proof.Machine

/-- `STATUS` as the host reads it (R25): bit 0 `ERR`, bit 1 `TREE_VALID`, bit 2 `CODES_VALID`, the rest 0. -/
def statusWord (s : State) : Word :=
  0#29 ++ (BitVec.ofBool s.codesValid ++ (BitVec.ofBool s.treeValid ++ BitVec.ofBool s.err))

/-- "Invalidate the codes" (R38). -/
def invalidateCodes (s : State) : State := { s with codesValid := false, ct := [] }

/-- "Invalidate the tree" (R38); it invalidates the codes with it. -/
def invalidateTree (s : State) : State :=
  { s with treeValid := false, codesValid := false, root := 0#32, nodes := [], ct := [] }

/-- `VMIN = -2^31` (R7). -/
def valueMin : Int := -2147483648

/-- `VMAX = 2^31 - 1` (R7). -/
def valueMax : Int := 2147483647

/-- `to_word` of an exact result, or `none` when it lies outside `[VMIN, VMAX]` (R7, R10): no wrap, no saturation. -/
def narrow (z : Int) : Option Word :=
  if valueMin ≤ z ∧ z ≤ valueMax then some (BitVec.ofInt 32 z) else none

end Sys2Proof.Machine
end

