-- ==== Sys2Proof/Machine/Operands.lean ====
section
/-! DEFINITION. The operand forms. Every operand but the mask of `CLR` is implicit (30_encoding.md R91): the value
sequence `VBUF[0 .. VLEN-1]`, the table `FT` with `lookup` and `insert` (41_frequency_table.md R120), the registers
`FT_VAL` and `FT_CNT`, the bit-stream in `BBUF` (43_bitstream.md R152) and a codeword's bits (30_encoding.md R96). -/

namespace Sys2Proof.Machine

/-! ## The mask of CLR (R91) -/

def maskV (arg : Byte) : Bool := arg.getLsbD 0
def maskB (arg : Byte) : Bool := arg.getLsbD 1
def maskF (arg : Byte) : Bool := arg.getLsbD 2
def maskT (arg : Byte) : Bool := arg.getLsbD 3
def maskE (arg : Byte) : Bool := arg.getLsbD 7

/-! ## The value sequence (R27, R31) -/

/-- `VBUF[0 .. VLEN-1]`, the cells that are `UNSPEC` as `none`. -/
def valueCells (s : State) : List (Option Word) := Memory.cellsFrom s.vbuf 0 s.vlen.toNat

/-! ## The frequency table (R120) -/

/-- `lookup(v)`: the index of the entry of value `v` (R120). -/
def lookup (ft : List FtEntry) (v : Word) : Option Nat := ft.findIdx? (fun e => e.value == v)

/-- `insert(v, c)`: the entry goes where it keeps the list in ascending signed order of value (R120). -/
def insertEntry (e : FtEntry) : List FtEntry → List FtEntry
  | [] => [e]
  | x :: ft => if e.value.toInt < x.value.toInt then e :: x :: ft else x :: insertEntry e ft

/-- `FT[i].count <- FT[i].count + 1` (R121). -/
def bumpCount (i : Nat) (ft : List FtEntry) : List FtEntry :=
  ft.modify i (fun e => { e with count := e.count + 1#32 })

/-- The sum of all counts, in `Z` (R131, pre-check 2). -/
def countSum (ft : List FtEntry) : Nat := (ft.map (fun e => e.count.toNat)).sum

/-! ## The bit-stream (R66, R152) -/

/-- Bit `7 - (p mod 8)` of a byte: the place of stream bit `p` in its byte (R66). -/
def bitOfByte (b : Byte) (p : Nat) : Bool := b.getLsbD (7 - p % 8)

/-- Stream bit `p`, `none` when its byte is `UNSPEC` (R66, R245). -/
def streamBit (m : Memory Byte) (p : Nat) : Option Bool :=
  (Memory.read m (p / 8)).map (fun b => bitOfByte b p)

/-- The bytes that `p` bits take: `(p + 7) div 8` (R152). -/
def bytesFor (p : Nat) : Nat := (p + 7) / 8

/-- The bits of a codeword in stream order, most significant first (R96). -/
def codeBits (c : Code) : List Bool := (List.range c.len).map (fun j => c.bits.getLsbD (c.len - 1 - j))

/-- Up to eight bits as one byte, the first in bit 7, missing bits 0 (R152: "zero-padded"). -/
def packByte (bs : List Bool) : Byte :=
  BitVec.ofBool (bs.getD 0 false) ++ (BitVec.ofBool (bs.getD 1 false) ++ (BitVec.ofBool (bs.getD 2 false) ++
  (BitVec.ofBool (bs.getD 3 false) ++ (BitVec.ofBool (bs.getD 4 false) ++ (BitVec.ofBool (bs.getD 5 false) ++
  (BitVec.ofBool (bs.getD 6 false) ++ BitVec.ofBool (bs.getD 7 false)))))))

/-- The first `n` bytes of a bit sequence packed most significant bit first (R152). -/
def packBytes : Nat → List Bool → List Byte
  | 0, _ => []
  | n + 1, bs => packByte (bs.take 8) :: packBytes n (bs.drop 8)

/-! ## Node frequency and leaf test (R35) -/

/-- The `freq` field of a node. -/
def Node.freq : Node → Word
  | .leaf f _ => f
  | .internal f _ _ => f

/-- A node is a leaf when its `left` is `NIL` (R75). -/
def Node.isLeaf : Node → Bool
  | .leaf _ _ => true
  | .internal _ _ _ => false

end Sys2Proof.Machine
end

