-- ==== Sys2Proof/Machine/Bitstream.lean ====
section
/-! DEFINITION. The encoder, decoder and bit-stream packer commands `ENC` and `DEC` (43_bitstream.md). -/

namespace Sys2Proof.Machine

/-! ## ENC (R150) -/

/-- The loop of `ENC` from index `k` with the bit cursor at `p`: the bits of the codewords, in stream order. In one
iteration `E_NOCODE` comes before `E_CAPACITY` (R217). -/
def encodeValues (maxBytes : Nat) (ft : List FtEntry) (ct : List Code) :
    Nat → Nat → List (Option Word) → Work (List Bool)
  | _, _, [] => .done []
  | k, _, none :: _ => .stop (.vbufUnspec k)
  | k, p, some v :: cells =>
    match lookup ft v with
    | none => .raise .noCode (BitVec.ofNat 32 k)
    | some i =>
      match ct[i]? with
      | none => .stop .brokenTables
      | some c =>
        if 8 * maxBytes < p + c.len then .raise .capacity (BitVec.ofNat 32 k)
        else (encodeValues maxBytes ft ct (k + 1) (p + c.len) cells).map (fun bs => codeBits c ++ bs)

/-- `BBUF[0 .. BLEN-1]`, `BITCNT` and `BLEN` take the packed stream (R150, R152). -/
def storeStream (bs : List Bool) (s : State) : State :=
  { s with
    bbuf := Memory.writeFrom s.bbuf 0 (packBytes (bytesFor bs.length) bs)
    bitcnt := BitVec.ofNat 32 bs.length
    blen := BitVec.ofNat 32 (bytesFor bs.length) }

/-- A data error of `ENC`: `BLEN <- 0`, `BITCNT <- 0`, all of `BBUF` becomes `UNSPEC` (R150, R216). -/
def spoilStream (maxBytes : Nat) (s : State) : State :=
  { s with blen := 0#32, bitcnt := 0#32, bbuf := Memory.forget s.bbuf maxBytes }

/-- `ENC` for a block with parameters `P` (R150): not ready, then length, then the loop. -/
def encWith (P : Config.Params) (s : State) : Host.Outcome State Fault Refusal :=
  gated s
    (if !s.codesValid then .next (raiseError .notReady 0#32 (encode .enc) s)
    else if P.maxValues < s.vlen.toNat then .next (raiseError .len s.vlen (encode .enc) s)
    else settle (encode .enc) s storeStream (spoilStream P.maxBytes)
      (encodeValues P.maxBytes s.ft s.ct 0 0 (valueCells s)))

/-! ## DEC (R151, R155) -/

/-- One step of the decode walk: where bit `bit` leads from `node` in a tree with two or more leaves. -/
inductive Walk where
  /-- The bit leads to the leaf of this value: emit it and go back to the root. -/
  | leaf (value : Word)
  /-- The bit leads to this internal node. -/
  | inner (node : Nat)
  /-- The bit leads to the missing right child of a one-leaf tree (R155). -/
  | missing
  /-- The arena is not a tree (no run reaches it). -/
  | broken
deriving DecidableEq, Repr

/-- Follow one bit: 0 to the left, 1 to the right (R151). Under a one-leaf tree a 0 bit gives the leaf's value and a 1 bit
leads to the missing child (R155). -/
def walkBit (nodes : List Node) (root node : Nat) (bit : Bool) : Walk :=
  match nodes[root]? with
  | none => .broken
  | some (.leaf _ v) => if bit then .missing else .leaf v
  | some (.internal _ _ _) =>
    match nodes[node]? with
    | some (.internal _ l r) =>
      let child := if bit then r else l
      match nodes[child]? with
      | some (.leaf _ v) => .leaf v
      | some (.internal _ _ _) => .inner child
      | none => .broken
    | _ => .broken

/-- The loop of `DEC` with `n` bits left, at bit `p`, at `node`, with `m` values emitted; `total` is `BITCNT`. It gives the
values still to be emitted. In one iteration `E_WALK` comes before `E_CAPACITY`; the end-of-stream `E_WALK` comes last
(R217). -/
def decodeBits (maxValues : Nat) (bbuf : Memory Byte) (nodes : List Node) (root : Nat) (total : Word) :
    Nat → Nat → Nat → Nat → Work (List Word)
  | 0, _, node, _ => if node = root then .done [] else .raise .walk total
  | n + 1, p, node, m =>
    match streamBit bbuf p with
    | none => .stop (.bbufUnspec (p / 8))
    | some bit =>
      match walkBit nodes root node bit with
      | .broken => .stop .brokenTables
      | .missing => .raise .walk (BitVec.ofNat 32 p)
      | .inner child => decodeBits maxValues bbuf nodes root total n (p + 1) child m
      | .leaf v =>
        if m = maxValues then .raise .capacity (BitVec.ofNat 32 p)
        else (decodeBits maxValues bbuf nodes root total n (p + 1) root (m + 1)).map (fun out => v :: out)

/-- `VBUF[0 .. m-1]` and `VLEN` take the decoded values; cells from `m` up are unchanged (R151). -/
def storeDecoded (out : List Word) (s : State) : State :=
  { s with vbuf := Memory.writeFrom s.vbuf 0 out, vlen := BitVec.ofNat 32 out.length }

/-- A data error of `DEC`: `VLEN <- 0`, all of `VBUF` becomes `UNSPEC` (R151, R216). -/
def spoilDecoded (maxValues : Nat) (s : State) : State :=
  { s with vlen := 0#32, vbuf := Memory.forget s.vbuf maxValues }

/-- `DEC` for a block with parameters `P` (R151): not ready, then length, then truncation, then the walk. -/
def decWith (P : Config.Params) (s : State) : Host.Outcome State Fault Refusal :=
  gated s
    (if !s.treeValid then .next (raiseError .notReady 0#32 (encode .dec) s)
    else if P.maxBytes < s.blen.toNat then .next (raiseError .len s.blen (encode .dec) s)
    else if 8 * s.blen.toNat < s.bitcnt.toNat then .next (raiseError .trunc s.bitcnt (encode .dec) s)
    else settle (encode .dec) s storeDecoded (spoilDecoded P.maxValues)
      (decodeBits P.maxValues s.bbuf s.nodes s.root.toNat s.bitcnt s.bitcnt.toNat 0 s.root.toNat 0))

/-- `ENC` (R150). -/
def execEnc (s : State) : Host.Outcome State Fault Refusal := encWith Config.hdc1 s

/-- `DEC` (R151). -/
def execDec (s : State) : Host.Outcome State Fault Refusal := decWith Config.hdc1 s

end Sys2Proof.Machine
end

