-- ==== Sys2Proof/Machine/Control.lean ====
section
/-! DEFINITION. The control commands `NOP`, `CLR` and `SRST` (44_control.md). -/

namespace Sys2Proof.Machine

/-- The V part of `CLR`: `VLEN <- 0`, cells keep their contents (R171). -/
def clearV (s : State) : State := { s with vlen := 0#32 }

/-- The B part of `CLR`: `BLEN <- 0`, `BITCNT <- 0`, bytes keep their contents (R171). -/
def clearB (s : State) : State := { s with blen := 0#32, bitcnt := 0#32 }

/-- The F part of `CLR`: `FT` empty (so `NSYM` is 0) and the tree invalidated (R171). -/
def clearF (s : State) : State := invalidateTree { s with ft := [] }

/-- Perform one selected part. -/
def onlyIf (b : Bool) (part : State → State) (s : State) : State := if b then part s else s

/-- The parts that the mask selects (R171); they are independent, so their order does not matter. -/
def clearParts (arg : Byte) (s : State) : State :=
  onlyIf (maskE arg) clearError
    (onlyIf (maskT arg) invalidateTree
      (onlyIf (maskF arg) clearF
        (onlyIf (maskB arg) clearB
          (onlyIf (maskV arg) clearV s))))

/-- `NOP` (R170): nothing changes, whatever `ERR` is. -/
def execNop (s : State) : Host.Outcome State Fault Refusal := gated s (.next s)

/-- `CLR` (R171): with an error recorded it is ignored unless its E bit is 1, and then it runs entirely (R213). -/
def execClr (arg : Byte) (s : State) : Host.Outcome State Fault Refusal :=
  if s.err && !maskE arg then .next s else .next (clearParts arg s)

/-- `SRST` (R172): the reset transition, whatever `ERR` is (R213). -/
def execSrst (s : State) : Host.Outcome State Fault Refusal := .next (resetBlock s)

end Sys2Proof.Machine
end

