-- ==== Sys2Proof/Machine/Delta.lean ====
section
/-! DEFINITION. The delta coder commands `DENC` and `DDEC` (40_delta.md). -/

namespace Sys2Proof.Machine

/-- The loop of `DENC` from index `k`, with the two holding registers of R110: `a` is `in[k-2]` and `b` is `in[k-1]`
(they are not used below index 2). The least index that overflows raises. -/
def encodeDeltas : Nat → Word → Word → List (Option Word) → Work (List Word)
  | _, _, _, [] => .done []
  | k, _, _, none :: _ => .stop (.vbufUnspec k)
  | k, a, b, some x :: cells =>
    match if k < 2 then some x else narrow (x.toInt - a.toInt) with
    | none => .raise .range (BitVec.ofNat 32 k)
    | some d => (encodeDeltas (k + 1) b x cells).map (fun out => d :: out)

/-- The loop of `DDEC` from index `k`: `a` is `out[k-2]` and `b` is `out[k-1]` (R111). -/
def decodeDeltas : Nat → Word → Word → List (Option Word) → Work (List Word)
  | _, _, _, [] => .done []
  | k, _, _, none :: _ => .stop (.vbufUnspec k)
  | k, a, b, some d :: cells =>
    match if k < 2 then some d else narrow (d.toInt + a.toInt) with
    | none => .raise .range (BitVec.ofNat 32 k)
    | some x => (decodeDeltas (k + 1) b x cells).map (fun out => x :: out)

/-- `VBUF[0 .. n-1] <- out[0 .. n-1]`; `VLEN` is unchanged (R110, R111). -/
def storeDeltas (out : List Word) (s : State) : State := { s with vbuf := Memory.writeFrom s.vbuf 0 out }

/-- A data error of a delta command: `VLEN <- 0`, `VBUF[0 .. n-1]` becomes `UNSPEC` (R216). -/
def spoilDeltas (s : State) : State := { s with vlen := 0#32, vbuf := Memory.forget s.vbuf s.vlen.toNat }

/-- The pre-checks of both delta commands, capacity before parity (R110, R111, R217), then the loop. -/
def deltaCommand (P : Config.Params) (cmd : Word) (loop : List (Option Word) → Work (List Word)) (s : State) :
    Host.Outcome State Fault Refusal :=
  if P.maxValues < s.vlen.toNat then .next (raiseError .len s.vlen cmd s)
  else if s.vlen.toNat % 2 = 1 then .next (raiseError .len s.vlen cmd s)
  else settle cmd s storeDeltas spoilDeltas (loop (valueCells s))

/-- `DENC` for a block with parameters `P` (R110). -/
def dencWith (P : Config.Params) (s : State) : Host.Outcome State Fault Refusal :=
  gated s (deltaCommand P (encode .denc) (encodeDeltas 0 0#32 0#32) s)

/-- `DDEC` for a block with parameters `P` (R111). -/
def ddecWith (P : Config.Params) (s : State) : Host.Outcome State Fault Refusal :=
  gated s (deltaCommand P (encode .ddec) (decodeDeltas 0 0#32 0#32) s)

/-- `DENC` (R110). -/
def execDenc (s : State) : Host.Outcome State Fault Refusal := dencWith Config.hdc1 s

/-- `DDEC` (R111). -/
def execDdec (s : State) : Host.Outcome State Fault Refusal := ddecWith Config.hdc1 s

end Sys2Proof.Machine
end

