-- ==== Sys2Proof/Machine/Frequency.lean ====
section
/-! DEFINITION. The frequency table commands `FCNT` and `FPUT` (41_frequency_table.md). -/

namespace Sys2Proof.Machine

/-- The loop of `FCNT` from index `k` over the table counted so far (R121). -/
def countValues (maxSyms : Nat) : Nat → List FtEntry → List (Option Word) → Work (List FtEntry)
  | _, ft, [] => .done ft
  | k, _, none :: _ => .stop (.vbufUnspec k)
  | k, ft, some v :: cells =>
    match lookup ft v with
    | some i => countValues maxSyms (k + 1) (bumpCount i ft) cells
    | none =>
      if ft.length = maxSyms then .raise .capacity (BitVec.ofNat 32 k)
      else countValues maxSyms (k + 1) (insertEntry { value := v, count := 1#32 } ft) cells

/-- `FT` is replaced and the tree is invalidated (R121, R122, R38). -/
def storeTable (ft : List FtEntry) (s : State) : State := invalidateTree { s with ft := ft }

/-- `FCNT` for a block with parameters `P` (R121). On `E_CAPACITY` the table is left empty and the tree invalid. -/
def fcntWith (P : Config.Params) (s : State) : Host.Outcome State Fault Refusal :=
  gated s
    (if P.maxValues < s.vlen.toNat then .next (raiseError .len s.vlen (encode .fcnt) s)
    else settle (encode .fcnt) s storeTable (storeTable []) (countValues P.maxSyms 0 [] (valueCells s)))

/-- `FPUT` for a block with parameters `P` (R122): zero count, then duplicate, then table full. -/
def fputWith (P : Config.Params) (s : State) : Host.Outcome State Fault Refusal :=
  gated s
    (if s.ftCnt = 0#32 then .next (raiseError .zeroCnt 0#32 (encode .fput) s)
    else
      match lookup s.ft s.ftVal with
      | some i => .next (raiseError .dupSym (BitVec.ofNat 32 i) (encode .fput) s)
      | none =>
        if s.nsym = P.maxSyms then .next (raiseError .capacity (BitVec.ofNat 32 s.nsym) (encode .fput) s)
        else .next (storeTable (insertEntry { value := s.ftVal, count := s.ftCnt } s.ft) s))

/-- `FCNT` (R121). -/
def execFcnt (s : State) : Host.Outcome State Fault Refusal := fcntWith Config.hdc1 s

/-- `FPUT` (R122). -/
def execFput (s : State) : Host.Outcome State Fault Refusal := fputWith Config.hdc1 s

end Sys2Proof.Machine
end

