-- ==== Sys2Proof/Machine/Tree.lean ====
section
/-! DEFINITION. The code generator commands `BTREE` and `GCODE` (42_tree_and_codes.md). -/

namespace Sys2Proof.Machine

/-! ## BTREE (R131, R132) -/

/-- The priority key of a live node: `(freq, node index)`, both unsigned (R132). -/
structure Key where
  freq : Nat
  index : Nat
deriving DecidableEq, Repr

/-- Keys are compared lexicographically, `freq` first (R132). -/
def keyLt (a b : Key) : Bool := decide (a.freq < b.freq) || (a.freq == b.freq && decide (a.index < b.index))

/-- The least live key, and the others. -/
def takeLeast : List Key → Option (Key × List Key)
  | [] => none
  | k :: ks =>
    match takeLeast ks with
    | none => some (k, [])
    | some (m, rest) => if keyLt k m then some (k, ks) else some (m, k :: rest)

/-- The merging loop of R131, at most `fuel` times: the first node removed becomes the left child, the second the right
one, and the new node takes the next index. It ends when fewer than two nodes are live. -/
def mergeLoop : Nat → List Node → List Key → List Node × List Key
  | 0, nodes, live => (nodes, live)
  | fuel + 1, nodes, live =>
    match takeLeast live with
    | none => (nodes, live)
    | some (a, live1) =>
      match takeLeast live1 with
      | none => (nodes, live)
      | some (b, live2) =>
        mergeLoop fuel
          (nodes ++ [.internal (BitVec.ofNat 32 (a.freq + b.freq)) a.index b.index])
          (live2 ++ [{ freq := a.freq + b.freq, index := nodes.length }])

/-- The leaves, in the order of `FT` (R131, R132 (a)). -/
def leavesOf (ft : List FtEntry) : List Node := ft.map (fun e => .leaf e.count e.value)

/-- The keys of the leaves, numbered from `i`. -/
def leafKeys : Nat → List FtEntry → List Key
  | _, [] => []
  | i, e :: ft => { freq := e.count.toNat, index := i } :: leafKeys (i + 1) ft

/-- The arena and the root of the Huffman tree of `FT` (R131). A table of `n` entries needs `n - 1` merges, so `n` is
fuel enough. -/
def buildTree (ft : List FtEntry) : List Node × Word :=
  let r := mergeLoop ft.length (leavesOf ft) (leafKeys 0 ft)
  (r.1, BitVec.ofNat 32 ((r.2.map Key.index).headD 0))

/-- `NODE`, `ROOT` and `NNODES` take the new tree; `CODES_VALID` stays 0 after the invalidation (R131). -/
def storeTree (t : List Node × Word) (s : State) : State :=
  { invalidateTree s with nodes := t.1, root := t.2, treeValid := true }

/-- `BTREE` (R131): empty table, then the sum of the counts, then the construction. No parameter bears on it. -/
def execBtree (s : State) : Host.Outcome State Fault Refusal :=
  gated s
    (if s.nsym = 0 then .next (raiseError .empty 0#32 (encode .btree) s)
    else if 2 ^ 32 ≤ countSum s.ft then .next (raiseError .range 0#32 (encode .btree) s)
    else .next (storeTree (buildTree s.ft) s))

/-! ## GCODE (R133, R135) -/

/-- A root-to-leaf path: the leaf's node index, the path's length, and its bits as an integer in `Z` (R135). -/
structure LeafPath where
  index : Nat
  len : Nat
  bits : Nat
deriving DecidableEq, Repr

/-- `assign(k, len, bits)` of R135, left before right. `none` when the arena is not a tree below `k` (no child, or more
than `fuel` levels). -/
def assignPaths : Nat → List Node → Nat → Nat → Nat → Option (List LeafPath)
  | 0, _, _, _, _ => none
  | fuel + 1, nodes, k, len, bits =>
    match nodes[k]? with
    | none => none
    | some (.leaf _ _) => some [{ index := k, len := len, bits := bits }]
    | some (.internal _ l r) =>
      match assignPaths fuel nodes l (len + 1) (2 * bits), assignPaths fuel nodes r (len + 1) (2 * bits + 1) with
      | some a, some b => some (a ++ b)
      | _, _ => none

/-- All the paths of the tree; a one-leaf tree gives the path `(1, 0)` (R133, R135). -/
def treePaths (nodes : List Node) (root : Nat) : Option (List LeafPath) :=
  match nodes[root]? with
  | some (.leaf _ _) => some [{ index := 0, len := 1, bits := 0 }]
  | _ => assignPaths nodes.length nodes root 0 0

/-- The paths of leaves `i .. i+n-1`, in order of leaf index. -/
def pathsInOrder (ps : List LeafPath) (i : Nat) : Nat → Option (List LeafPath)
  | 0 => some []
  | n + 1 =>
    match ps.find? (fun p => p.index == i), pathsInOrder ps (i + 1) n with
    | some p, some rest => some (p :: rest)
    | _, _ => none

/-- The code that holds a path of at most 32 bits (R135). -/
def LeafPath.code (p : LeafPath) : Code := { len := p.len, bits := BitVec.ofNat 32 p.bits }

/-- The codes of a tree of `n` leaves; the least leaf index whose path is longer than `codeMax` raises (R135). -/
def generateCodes (codeMax : Nat) (nodes : List Node) (root n : Nat) : Work (List Code) :=
  match treePaths nodes root with
  | none => .stop .brokenTables
  | some ps =>
    match pathsInOrder ps 0 n with
    | none => .stop .brokenTables
    | some paths =>
      match paths.findIdx? (fun p => decide (codeMax < p.len)) with
      | some i => .raise .capacity (BitVec.ofNat 32 i)
      | none => .done (paths.map LeafPath.code)

/-- `CT` takes the codes and `CODES_VALID` is set (R135). -/
def storeCodes (ct : List Code) (s : State) : State := { s with ct := ct, codesValid := true }

/-- `GCODE` for a block with parameters `P` (R135). -/
def gcodeWith (P : Config.Params) (s : State) : Host.Outcome State Fault Refusal :=
  gated s
    (if !s.treeValid then .next (raiseError .notReady 0#32 (encode .gcode) s)
    else settle (encode .gcode) s storeCodes invalidateCodes
      (generateCodes P.codeMax s.nodes s.root.toNat s.nsym))

/-- `GCODE` (R135). -/
def execGcode (s : State) : Host.Outcome State Fault Refusal := gcodeWith Config.hdc1 s

end Sys2Proof.Machine
end

