-- ==== Sys2Proof/Machine/Dispatch.lean ====
section
/-! DEFINITION. One arm per command: what a legal command written to `CMD` does (30_encoding.md R93), each arm one call
of its meaning. -/

namespace Sys2Proof.Machine

def exec (i : Instr) (s : State) : Host.Outcome State Fault Refusal :=
  match i with
  | .nop => Sys2Proof.Machine.execNop s
  | .clr arg => Sys2Proof.Machine.execClr arg s
  | .srst => Sys2Proof.Machine.execSrst s
  | .denc => Sys2Proof.Machine.execDenc s
  | .ddec => Sys2Proof.Machine.execDdec s
  | .fcnt => Sys2Proof.Machine.execFcnt s
  | .fput => Sys2Proof.Machine.execFput s
  | .btree => Sys2Proof.Machine.execBtree s
  | .gcode => Sys2Proof.Machine.execGcode s
  | .enc => Sys2Proof.Machine.execEnc s
  | .dec => Sys2Proof.Machine.execDec s

end Sys2Proof.Machine
end

