-- ==== Sys2Proof/Machine/Port.lean ====
section
/-! DEFINITION. The block's port: the address map (20_memory.md R62), what a host read returns (R63, R69, R74 to R77), what
a host write does (R64), and one transaction of the host (30_encoding.md R101). -/

namespace Sys2Proof.Machine

/-! ## The register map (10_state.md R22) -/

/-- The eighteen registers. -/
inductive Reg where
  | id | capValues | capBytes | capSyms | cmd | status | errCode | errInfo | errCmd
  | vlen | blen | bitcnt | nsym | nnodes | root | ftVal | ftCnt | capCode
deriving DecidableEq, Repr

/-- The byte offset of a register. -/
def Reg.offset : Reg → Nat
  | .id => 0x00
  | .capValues => 0x04
  | .capBytes => 0x08
  | .capSyms => 0x0C
  | .cmd => 0x10
  | .status => 0x14
  | .errCode => 0x18
  | .errInfo => 0x1C
  | .errCmd => 0x20
  | .vlen => 0x24
  | .blen => 0x28
  | .bitcnt => 0x2C
  | .nsym => 0x30
  | .nnodes => 0x34
  | .root => 0x38
  | .ftVal => 0x3C
  | .ftCnt => 0x40
  | .capCode => 0x44

/-- Every register, in the order of the map. -/
def Reg.all : List Reg :=
  [.id, .capValues, .capBytes, .capSyms, .cmd, .status, .errCode, .errInfo, .errCmd,
   .vlen, .blen, .bitcnt, .nsym, .nnodes, .root, .ftVal, .ftCnt, .capCode]

/-- The register at an offset; `none` at a reserved offset (R22). -/
def regAt (offset : Nat) : Option Reg := Reg.all.find? (fun r => r.offset == offset)

/-- The access classes of R21. -/
inductive Access where
  | readOnly | readWrite | trigger
deriving DecidableEq, Repr

/-- The access class of a register (R22). -/
def Reg.access : Reg → Access
  | .cmd => .trigger
  | .vlen | .blen | .bitcnt | .ftVal | .ftCnt => .readWrite
  | .id | .capValues | .capBytes | .capSyms | .capCode | .status | .errCode | .errInfo | .errCmd
  | .nsym | .nnodes | .root => .readOnly

/-- A host read of a register (R21, R23, R24, R63). -/
def readReg (P : Config.Params) (s : State) : Reg → Word
  | .id => Config.idWord
  | .capValues => BitVec.ofNat 32 P.maxValues
  | .capBytes => BitVec.ofNat 32 P.maxBytes
  | .capSyms => BitVec.ofNat 32 P.maxSyms
  | .capCode => BitVec.ofNat 32 P.codeMax
  | .cmd => 0#32
  | .status => statusWord s
  | .errCode => s.errCode.toWord
  | .errInfo => s.errInfo
  | .errCmd => s.errCmd
  | .vlen => s.vlen
  | .blen => s.blen
  | .bitcnt => s.bitcnt
  | .nsym => BitVec.ofNat 32 s.nsym
  | .nnodes => BitVec.ofNat 32 s.nnodes
  | .root => s.root
  | .ftVal => s.ftVal
  | .ftCnt => s.ftCnt

/-- A host write of a register that is not `CMD`: an `RW` register stores the word, an `RO` one ignores it (R21, R64). -/
def writeReg (v : Word) (s : State) : Reg → State
  | .vlen => { s with vlen := v }
  | .blen => { s with blen := v }
  | .bitcnt => { s with bitcnt := v }
  | .ftVal => { s with ftVal := v }
  | .ftCnt => { s with ftCnt := v }
  | .id | .capValues | .capBytes | .capSyms | .capCode | .cmd | .status | .errCode | .errInfo | .errCmd
  | .nsym | .nnodes | .root => s

/-! ## The address map (R62) -/

/-- What lies at a word address. Window words are given by entry and word number. -/
inductive Loc where
  | reg (r : Reg)
  | vbuf (cell : Nat)
  | bbuf (word : Nat)
  | ft (entry word : Nat)
  | node (entry word : Nat)
  | ct (entry word : Nat)
  | reserved
deriving DecidableEq, Repr

/-- The window at an offset within its region: entries of `4 * words` bytes, `count` of them, the rest reserved. -/
def windowLoc (mk : Nat → Nat → Loc) (words count offset : Nat) : Loc :=
  if offset / (4 * words) < count then mk (offset / (4 * words)) (offset / 4 % words) else .reserved

/-- What lies at byte address `addr` (R62). -/
def locate (P : Config.Params) (addr : Nat) : Loc :=
  match addr / 0x100000 with
  | 0 => match regAt addr with
    | some r => .reg r
    | none => .reserved
  | 1 => windowLoc (fun i _ => .vbuf i) 1 P.maxValues (addr % 0x100000)
  | 2 => windowLoc (fun j _ => .bbuf j) 1 (P.maxBytes / 4) (addr % 0x100000)
  | 3 => windowLoc .ft 2 P.maxSyms (addr % 0x100000)
  | 4 => windowLoc .node 4 (2 * P.maxSyms - 1) (addr % 0x100000)
  | 5 => windowLoc .ct 2 P.maxSyms (addr % 0x100000)
  | _ => .reserved

/-! ## Host reads (R63) -/

/-- Byte `b` of BBUF window word `j` (R65). An `UNSPEC` byte shows its own eight bits of the free word (R63). -/
def bbufByte (free : Word) (m : Memory Byte) (j b : Nat) : Byte :=
  (Memory.read m (4 * j + b)).getD (free.extractLsb' (8 * b) 8)

/-- BBUF window word `j`: the byte of lowest index in bits 7:0 (R65). -/
def bbufWord (free : Word) (m : Memory Byte) (j : Nat) : Word :=
  bbufByte free m j 3 ++ (bbufByte free m j 2 ++ (bbufByte free m j 1 ++ bbufByte free m j 0))

/-- A word of an FT entry (R74). -/
def FtEntry.word (e : FtEntry) (w : Nat) : Word := if w = 0 then e.value else e.count

/-- `NIL` as a NODE window word (R75). -/
def nilWord : Word := 0xFFFFFFFF#32

/-- A word of a NODE entry: `FREQ`, `VALUE` (0 for an internal node), `LEFT`, `RIGHT` (R75). -/
def Node.word : Node → Nat → Word
  | .leaf f _, 0 => f
  | .leaf _ v, 1 => v
  | .leaf _ _, _ => nilWord
  | .internal f _ _, 0 => f
  | .internal _ _ _, 1 => 0#32
  | .internal _ l _, 2 => BitVec.ofNat 32 l
  | .internal _ _ r, _ => BitVec.ofNat 32 r

/-- A word of a CT entry: `LEN`, `BITS` (R76). -/
def Code.word (c : Code) (w : Nat) : Word := if w = 0 then BitVec.ofNat 32 c.len else c.bits

/-- What a host read of a location returns (R63); `free` is what `UNSPEC` bits show. An entry past the end of its table
reads 0 (R69), and `CT` reads 0 unless `CODES_VALID` is 1 (R69, R76). -/
def readLoc (P : Config.Params) (free : Word) (s : State) : Loc → Word
  | .reg r => readReg P s r
  | .vbuf i => (Memory.read s.vbuf i).getD free
  | .bbuf j => bbufWord free s.bbuf j
  | .ft i w => ((s.ft[i]?).map (fun e => e.word w)).getD 0#32
  | .node k w => ((s.nodes[k]?).map (fun n => n.word w)).getD 0#32
  | .ct i w => if s.codesValid && decide (i < s.nsym) then ((s.ct[i]?).map (fun c => c.word w)).getD 0#32 else 0#32
  | .reserved => 0#32

/-- `MemRead(addr, 4)` (R63) of a block with parameters `P`. -/
def memRead (P : Config.Params) (free : Word) (s : State) (addr : Nat) : Word := readLoc P free s (locate P addr)

/-! ## Host writes (R64) -/

/-- The four bytes of a word, lowest index first (R65). -/
def wordBytes (v : Word) : List Byte :=
  [v.extractLsb' 0 8, v.extractLsb' 8 8, v.extractLsb' 16 8, v.extractLsb' 24 8]

/-- A host write to a location other than `CMD` (R64): stored in an `RW` register, a `VBUF` cell or four `BBUF` bytes,
ignored everywhere else, with no error. -/
def writeLoc (v : Word) (s : State) : Loc → State
  | .reg r => writeReg v s r
  | .vbuf i => { s with vbuf := Memory.write s.vbuf i v }
  | .bbuf j => { s with bbuf := Memory.writeFrom s.bbuf (4 * j) (wordBytes v) }
  | .ft _ _ | .node _ _ | .ct _ _ | .reserved => s

/-- What a legal command does in a block with parameters `P` (00_scope.md R5); `exec` is this for HDC-1's own values. `NOP`,
`CLR`, `SRST` and `BTREE` do not look at the parameters. -/
def execWith (P : Config.Params) (i : Instr) (s : State) : Host.Outcome State Fault Refusal :=
  match i with
  | .nop => execNop s
  | .clr arg => execClr arg s
  | .srst => execSrst s
  | .denc => dencWith P s
  | .ddec => ddecWith P s
  | .fcnt => fcntWith P s
  | .fput => fputWith P s
  | .btree => execBtree s
  | .gcode => gcodeWith P s
  | .enc => encWith P s
  | .dec => decWith P s

/-- A host write of `c` to `CMD` in a block with parameters `P` (R23, R92, R213): decode, then run the command, or take the
illegal word. -/
def command (P : Config.Params) (c : Word) (s : State) : Host.Outcome State Fault Refusal :=
  match decode c with
  | .instr i => execWith P i s
  | .illegal _ => illegalCommand c s

/-- `MemWrite(addr, 4, v)` (R64) of a block with parameters `P`. -/
def memWrite (P : Config.Params) (v : Word) (s : State) (addr : Nat) : Host.Outcome State Fault Refusal :=
  match locate P addr with
  | .reg .cmd => command P v s
  | loc => .next (writeLoc v s loc)

/-! ## One transaction (R61, R101, R240) -/

/-- Perform one thing the host does to a block with parameters `P`. An address the port cannot express is refused (R61). A read hands its word to the host
and changes nothing of the block (R63); the free value of an `UNSPEC` cell is that of this transaction (U1). -/
def perform (P : Config.Params) (e : HostEvent) (s : State) : Host.Outcome State Fault Refusal :=
  match e with
  | .write addr v =>
    if addrOk addr then memWrite P v s addr else .refused (.inexpressibleAddress addr)
  | .read addr =>
    if addrOk addr then .next (logRead (memRead P (Config.freeWord s.txnIndex) s addr) s)
    else .refused (.inexpressibleAddress addr)
  | .hardReset => .next (resetBlock s)

/-- One step of a machine whose block has parameters `P` (00_scope.md R5): the host's next transaction, or nothing when it
has none (R101, R241: the block is idle). -/
def stepWith (P : Config.Params) (s : State) : Host.Outcome State Fault Refusal :=
  match s.pending with
  | [] => .next s
  | e :: rest => perform P e (takeEvent rest s)

/-- The host's next transaction becomes a write of this command word to `CMD`. -/
def placeCommand (s : State) (c : Word) : State := { s with pending := .write Reg.cmd.offset c :: s.pending }

end Sys2Proof.Machine
end

