-- ==== Sys2Proof/Machine/Step.lean ====
section
/-! DEFINITION. The step function: one transaction of the host (10_state.md R39, 30_encoding.md R101). -/

namespace Sys2Proof.Machine

/-- One step of HDC-1: the host's next transaction, with the parameter values of 00_scope.md R5. -/
def step : State → Host.Outcome State Fault Refusal := fun s => stepWith Config.hdc1 s

/-- The table word `w` of `nbits` bits becomes the command that the very next step runs: the data of the host's next write
to `CMD` (R23, R39). Nothing else changes. -/
def State.withFetchWord (s : State) (nbits w : Nat) : State := placeCommand s (BitVec.ofNat 32 (w % 2 ^ nbits))

end Sys2Proof.Machine
end

