-- ==== Sys2Proof/Machine/HostProgram.lean ====
section
/-! DEFINITION. The host's programs: the assembler's locations and lines (30_encoding.md R97), its pseudo-instructions
(R98), running a program (R101), and the two command orders of 70_reset_and_hazards.md R243 and R244. They are host-side
functions: nothing here is block state. -/

namespace Sys2Proof.Machine

/-! ## Locations and lines (R97) -/

/-- The `<loc>` forms of R97. -/
inductive Place where
  | reg (r : Reg)
  | offset (addr : Nat)
  | vbuf (i : Nat)
  | bbufWord (j : Nat)
  | ftValue (i : Nat)
  | ftCount (i : Nat)
  | nodeFreq (k : Nat)
  | nodeValue (k : Nat)
  | nodeLeft (k : Nat)
  | nodeRight (k : Nat)
  | ctLen (i : Nat)
  | ctBits (i : Nat)
deriving DecidableEq, Repr

/-- The byte address of a location, an offset from `BASE` (R97, R100). -/
def Place.addr : Place → Nat
  | .reg r => r.offset
  | .offset a => a
  | .vbuf i => 0x100000 + 4 * i
  | .bbufWord j => 0x200000 + 4 * j
  | .ftValue i => 0x300000 + 8 * i
  | .ftCount i => 0x300004 + 8 * i
  | .nodeFreq k => 0x400000 + 16 * k
  | .nodeValue k => 0x400004 + 16 * k
  | .nodeLeft k => 0x400008 + 16 * k
  | .nodeRight k => 0x40000C + 16 * k
  | .ctLen i => 0x500000 + 8 * i
  | .ctBits i => 0x500004 + 8 * i

/-- The offset within the block of a host address, for a block at `base` (20_memory.md R60; `BASE` is an argument,
92_eei_decisions.md D30). `none` outside the block's 16 MiB. -/
def blockOffset (base addr : Nat) : Option Nat :=
  if base ≤ addr ∧ addr < base + 2 ^ 24 then some (addr - base) else none

/-- `wr <loc>, <value>` (R97). -/
def wr (p : Place) (v : Word) : HostEvent := .write p.addr v

/-- `rd <loc>` (R97). -/
def rd (p : Place) : HostEvent := .read p.addr

/-- `cmd <MNEMONIC>`: the command's word written to `CMD` (R97). -/
def cmd (i : Instr) : HostEvent := wr (.reg .cmd) (encode i)

/-! ## Pseudo-instructions (R98) -/

/-- The cell writes of `ldv`, from index `i` up. -/
def loadCells : Nat → List Word → List HostEvent
  | _, [] => []
  | i, v :: vs => wr (.vbuf i) v :: loadCells (i + 1) vs

/-- `ldv v0, ..., v(n-1)`. -/
def ldv (vs : List Word) : List HostEvent :=
  loadCells 0 vs ++ [wr (.reg .vlen) (BitVec.ofNat 32 vs.length)]

/-- The word of the first four bytes, 0 for a byte that is not there (R98, R65). -/
def packWord (bs : List Byte) : Word := bs.getD 3 0#8 ++ (bs.getD 2 0#8 ++ (bs.getD 1 0#8 ++ bs.getD 0 0#8))

/-- The `n` window writes of `ldb`, from word `j` up. -/
def loadWords : Nat → Nat → List Byte → List HostEvent
  | _, 0, _ => []
  | j, n + 1, bs => wr (.bbufWord j) (packWord bs) :: loadWords (j + 1) n (bs.drop 4)

/-- `ldb b0, ..., b(n-1)`. -/
def ldb (bs : List Byte) : List HostEvent :=
  loadWords 0 ((bs.length + 3) / 4) bs ++ [wr (.reg .blen) (BitVec.ofNat 32 bs.length)]

/-- `fput v, c`. -/
def fput (v c : Word) : List HostEvent := [wr (.reg .ftVal) v, wr (.reg .ftCnt) c, cmd .fput]

/-- `clrall`: `CLR V|B|F|T|E`, the word `0x00008F01`. -/
def clrall : List HostEvent := [cmd (.clr 0x8F#8)]

/-- The two ways to clear the block between invocations (R243 (1), R244 (1); 46_host_pipeline.md R190 (4) and (7), R195). -/
inductive Clearing where
  | srst
  | clrall
deriving DecidableEq, Repr

/-- The transaction that clears the block. -/
def Clearing.program : Clearing → List HostEvent
  | .srst => [cmd .srst]
  | .clrall => Machine.clrall

/-! ## Running a program (R101) -/

/-! A run is over a block with parameters `P` (00_scope.md R5). -/

/-- `n` steps, stopping at the first fault or refusal. -/
def stepTimes (P : Config.Params) : Nat → State → Host.Outcome State Fault Refusal
  | 0, s => .next s
  | n + 1, s =>
    match stepWith P s with
    | .next t => stepTimes P n t
    | .fault f => .fault f
    | .refused r => .refused r

/-- Execute a host program from a block state: its transactions in order, until the list is exhausted (R101). -/
def runProgram (P : Config.Params) (prog : List HostEvent) (s : State) : Host.Outcome State Fault Refusal :=
  stepTimes P prog.length { s with pending := prog }

/-- Go on from what a piece of host work ends in; a fault or a refusal ends the whole. -/
def andThen {α β : Type} (work : Host.Outcome α Fault Refusal) (rest : α → Host.Outcome β Fault Refusal) :
    Host.Outcome β Fault Refusal :=
  match work with
  | .next a => rest a
  | .fault f => .fault f
  | .refused r => .refused r

/-- Read locations in order: the words that the block returns, and the state after the reads. -/
def readPlaces (P : Config.Params) (ps : List Place) (s : State) : Host.Outcome (List Word × State) Fault Refusal :=
  andThen (runProgram P (ps.map rd) s) (fun t => .next (t.readLog.drop s.readLog.length, t))

/-- A host that branches: its next transaction from how many transactions of this run it has performed and the words that
this run's reads returned so far; `none` ends the run. DESIGN CHOICE (log entry 21): R101 makes the host a function of the
read results so far and is silent on how such a host gets past a write, which returns no word; the count lets it go on. A
host of R101's own form is one that does not look at the count. -/
abbrev BranchingHost := Nat → List Word → Option HostEvent

/-- The transactions of a branching host from its transaction number `k` on, at most `n` of them; `before` is how many words
had been read before the run. -/
def adaptiveFrom (P : Config.Params) (host : BranchingHost) (before : Nat) :
    Nat → Nat → State → Host.Outcome State Fault Refusal
  | 0, _, s => .next s
  | n + 1, k, s =>
    match host k (s.readLog.drop before) with
    | none => .next s
    | some e => andThen (stepWith P { s with pending := [e] }) (adaptiveFrom P host before n (k + 1))

/-- The run of a branching host (R101) from a block state, for at most `n` transactions. DESIGN CHOICE (log entry 21): the
host is asked again after a write too, then with a count one more and the same words, and it sees the words of this run
only. -/
def runAdaptive (P : Config.Params) (host : BranchingHost) (n : Nat) (s : State) : Host.Outcome State Fault Refusal :=
  adaptiveFrom P host s.readLog.length n 0 s

/-! ## The two orders (R243, R244) -/

/-- Steps (1) to (7) of R243 for a flat sample sequence. -/
def encodeProgram (opening : Clearing) (flat : List Word) : List HostEvent :=
  opening.program ++ ldv flat ++ [cmd .denc, cmd .fcnt, cmd .btree, cmd .gcode, cmd .enc]

/-- The side information of R188: the exact bit count and the table entries. How it travels is the integrator's
(92_eei_decisions.md D28); here it is an explicit value. -/
structure SideInfo where
  bitcnt : Word
  table : List FtEntry
deriving DecidableEq, Repr

/-- The `fput`s of a table's entries (R244, step 2). -/
def loadTable (table : List FtEntry) : List HostEvent := table.flatMap (fun e => fput e.value e.count)

/-- Steps (1) to (6) of R244. -/
def decodeProgram (opening : Clearing) (side : SideInfo) (payload : List Byte) : List HostEvent :=
  opening.program ++ loadTable side.table ++ [cmd .btree] ++ ldb payload ++
    [wr (.reg .bitcnt) side.bitcnt, cmd .dec, cmd .ddec]

end Sys2Proof.Machine
end

