-- ==== Sys2Proof/Machine/HostFormats.lean ====
section
/-! DEFINITION. The software around the block (46_host_pipeline.md): the WAV container, the sample converter, the private
container, and compress and decompress as host programs. 00_scope.md R4 puts it outside the block; it is written here as
plain functions so that nothing the document settles is lost. What the document leaves open is an argument. -/

namespace Sys2Proof.Machine

/-- The document's three error kinds (R192). -/
inductive DocumentKind where
  | formatError
  | truncatedInput
  | codecConsistency
deriving DecidableEq, Repr

/-- The error record as the host reads it: `ERRCODE`, `ERRINFO` (R190 (5)) and `ERRCMD`, which tells apart the rows of
60_exceptions.md R211 that share a code. -/
structure ErrorRecord where
  code : Word
  info : Word
  cmd : Word
deriving DecidableEq, Repr

/-- The errors a host operation reports. FormatError comes from R181 and R183 alone (R192). -/
inductive HostError where
  /-- An error that host code detects and the document names (R181, R183, R187). -/
  | document (kind : DocumentKind)
  /-- The host's own: more samples than the block holds (R190 (3)). -/
  | capacity
  /-- The host's own, under `HostPolicy.rejectTrailing`: bytes after the declared payload (N14). -/
  | trailingBytes
  /-- An error of the block, with the document's kind where R211 has one (R190 (5)). -/
  | block (kind : Option DocumentKind) (record : ErrorRecord)
deriving DecidableEq, Repr

/-- The last column of R211's table. `E_LEN` has a kind only when a command other than `DEC` raises it after a `DEC`
(`afterDec`): the decoded data is foreign then. -/
def documentKind (afterDec : Bool) (r : ErrorRecord) : Option DocumentKind :=
  if r.code = ErrCode.noCode.toWord then some .codecConsistency
  else if r.code = ErrCode.walk.toWord then some .codecConsistency
  else if r.code = ErrCode.trunc.toWord then some .truncatedInput
  else if r.code = ErrCode.len.toWord ∧ afterDec = true ∧ r.cmd ≠ encode .dec then some .codecConsistency
  else none

/-- What the document does not settle about host files, and the choices it leaves a host, taken as arguments
(91_not_in_source.md N12, N13, N14; R184 for the channels beyond the second; R190 for the clearing; log entry 14). -/
structure HostPolicy where
  /-- N12: a subchunk of odd size is followed by a pad byte. -/
  padOddChunks : Bool
  /-- N12: a format code other than 1 is a FormatError. -/
  rejectNonPcm : Bool
  /-- N12: a `fmt ` subchunk larger than 16 bytes is a FormatError (else its first 16 bytes are read, the rest skipped). -/
  rejectLongFmt : Bool
  /-- N12: a RIFF size that disagrees with the file length is a FormatError (else it is not looked at). -/
  rejectRiffSize : Bool
  /-- N12: a `data` subchunk that declares more than remains is cut to what remains (else it is a FormatError). -/
  cutShortData : Bool
  /-- N13: trailing bytes that do not fill a frame are dropped (else they are a FormatError). -/
  dropPartialFrame : Bool
  /-- N14: bytes after the declared payload are an error of the host's own (else they are ignored). -/
  rejectTrailing : Bool
  /-- R184: the sample that ToBytes writes for a channel beyond the second. -/
  extraSample : Int
  /-- R190 (4): what `compress` clears the block with before it loads it. -/
  opening : Clearing
  /-- R190 (7), R191 (7): what ends an invocation. -/
  closing : Clearing
deriving DecidableEq, Repr

/-! ## Little-endian fields -/

/-- `n` bytes of an unsigned integer, lowest first. DESIGN CHOICE (log entry 18): the spec defines `u16le` and `u32le` for
integers that fit; one that does not is reduced modulo `2^(8n)`. -/
def leBytes : Nat → Nat → List Byte
  | 0, _ => []
  | n + 1, x => BitVec.ofNat 8 x :: leBytes n (x / 256)

/-- The unsigned integer of a byte list, lowest byte first. -/
def rdLe : List Byte → Nat
  | [] => 0
  | b :: bs => b.toNat + 256 * rdLe bs

/-- The two's-complement integer of a byte list, lowest byte first. -/
def rdLeSigned (bs : List Byte) : Int :=
  if rdLe bs < 2 ^ (8 * bs.length - 1) then (rdLe bs : Int) else (rdLe bs : Int) - 2 ^ (8 * bs.length)

/-! ## WAV container (R181, R182) -/

/-- What Parse gives and Serialize takes. -/
structure WavFile where
  channelCount : Nat
  bitsPerSample : Nat
  sampleRate : Nat
  pcm : List Byte
deriving DecidableEq, Repr

def tagRIFF : List Byte := [0x52#8, 0x49#8, 0x46#8, 0x46#8]
def tagWAVE : List Byte := [0x57#8, 0x41#8, 0x56#8, 0x45#8]
def tagFmt : List Byte := [0x66#8, 0x6D#8, 0x74#8, 0x20#8]
def tagData : List Byte := [0x64#8, 0x61#8, 0x74#8, 0x61#8]

/-- `Serialize`: the canonical 44-byte header and the samples (R182; the offsets are K1 of
93_implementation_defined.md). DESIGN CHOICE (log entry 18): where `channelCount * bitsPerSample` is not a multiple of 8 the
quotients of byteRate and blockAlign need not be whole, and R182 gives no integer then; each is its quotient rounded down. -/
def wavSerialize (w : WavFile) : List Byte :=
  tagRIFF ++ leBytes 4 (36 + w.pcm.length) ++ tagWAVE ++
  tagFmt ++ leBytes 4 16 ++ leBytes 2 1 ++ leBytes 2 w.channelCount ++ leBytes 4 w.sampleRate ++
  leBytes 4 (w.sampleRate * w.channelCount * w.bitsPerSample / 8) ++
  leBytes 2 (w.channelCount * w.bitsPerSample / 8) ++ leBytes 2 w.bitsPerSample ++
  tagData ++ leBytes 4 w.pcm.length ++ w.pcm

/-- The fields of a `fmt ` subchunk's body, by the offsets of R182's table. -/
def wavFormat (body pcm : List Byte) : WavFile where
  channelCount := rdLe ((body.drop 2).take 2)
  sampleRate := rdLe ((body.drop 4).take 4)
  bitsPerSample := rdLe ((body.drop 14).take 2)
  pcm := pcm

/-- The subchunks of a WAV file, unknown ones skipped by their declared size; `fmt` is the body of the `fmt ` subchunk seen
so far (R181). DESIGN CHOICE (log entry 17), the spec being silent on order, repetition and a short `fmt `: a `data` subchunk
before any `fmt ` is a FormatError, of several `fmt ` subchunks the last before `data` counts, the first `data` subchunk ends
the parse, and a `fmt ` subchunk that declares less than 16 bytes is a FormatError. -/
def wavChunks (pol : HostPolicy) : Nat → Option (List Byte) → List Byte → Except HostError WavFile
  | 0, _, _ => .error (.document .formatError)
  | fuel + 1, fmt, bs =>
    if bs.length < 8 then .error (.document .formatError)
    else
      let tag := bs.take 4
      let size := rdLe ((bs.drop 4).take 4)
      let body := bs.drop 8
      let next := body.drop (size + if pol.padOddChunks && size % 2 == 1 then 1 else 0)
      if tag = tagData then
        match fmt with
        | none => .error (.document .formatError)
        | some f =>
          if body.length < size && !pol.cutShortData then .error (.document .formatError)
          else .ok (wavFormat f (body.take size))
      else if tag = tagFmt then
        if size < 16 || body.length < 16 then .error (.document .formatError)
        else if pol.rejectLongFmt && decide (16 < size) then .error (.document .formatError)
        else if pol.rejectNonPcm && rdLe (body.take 2) != 1 then .error (.document .formatError)
        else wavChunks pol fuel (some (body.take 16)) next
      else wavChunks pol fuel fmt next

/-- `Parse` (R181). What becomes of a RIFF size (bytes 4 to 7) other than the number of bytes after it is a policy (N12). -/
def wavParse (pol : HostPolicy) (bs : List Byte) : Except HostError WavFile :=
  if bs.length < 12 then .error (.document .formatError)
  else if pol.rejectRiffSize && rdLe ((bs.drop 4).take 4) != bs.length - 8 then .error (.document .formatError)
  else if bs.take 4 = tagRIFF ∧ (bs.drop 8).take 4 = tagWAVE then wavChunks pol bs.length none (bs.drop 12)
  else .error (.document .formatError)

/-! ## Sample tuple converter (R183 to R185) -/

/-- A SamplePair (00_scope.md R8). -/
structure SamplePair where
  channelA : Int
  channelB : Int
deriving DecidableEq, Repr

/-- One sample: unsigned in one byte, signed in two or four (R183, conflict C4). -/
def rdSample (bs : List Byte) : Int := if bs.length = 1 then (rdLe bs : Int) else rdLeSigned bs

/-- The bytes of one sample of `n` bytes. DESIGN CHOICE (log entry 19): a sample that does not fit the width is reduced
modulo `2^(8n)`. -/
def sampleBytes (n : Nat) (z : Int) : List Byte := leBytes n (z % (2 : Int) ^ (8 * n)).toNat

/-- The pair of one frame: the first two channels; the second component of a mono frame is 0 (R183, R185). -/
def framePair (channels width : Nat) (frame : List Byte) : SamplePair where
  channelA := rdSample (frame.take width)
  channelB := if channels < 2 then 0 else rdSample ((frame.drop width).take width)

/-- The first `n` frames of a PCM buffer. -/
def framePairs (channels width : Nat) : Nat → List Byte → List SamplePair
  | 0, _ => []
  | n + 1, bs => framePair channels width (bs.take (channels * width)) ::
      framePairs channels width n (bs.drop (channels * width))

/-- `ToTuples` (R183). A frame of no channels holds no sample and is a FormatError (log entry 6). -/
def toTuples (pol : HostPolicy) (channels bits : Nat) (pcm : List Byte) : Except HostError (List SamplePair) :=
  if bits ≠ 8 ∧ bits ≠ 16 ∧ bits ≠ 32 then .error (.document .formatError)
  else if channels = 0 then .error (.document .formatError)
  else if pcm.length % (channels * (bits / 8)) ≠ 0 ∧ !pol.dropPartialFrame then .error (.document .formatError)
  else .ok (framePairs channels (bits / 8) (pcm.length / (channels * (bits / 8))) pcm)

/-- The bytes of one frame (R184): the two components at their channels, a mono frame the first only. -/
def pairBytes (pol : HostPolicy) (channels width : Nat) (p : SamplePair) : List Byte :=
  (sampleBytes width p.channelA ++ sampleBytes width p.channelB ++
    (List.replicate (channels - 2) (sampleBytes width pol.extraSample)).flatten).take (channels * width)

/-- `ToBytes` (R184). DESIGN CHOICE (log entry 19), the spec being silent on a depth outside 8, 16 and 32 and on 0 channels: a
sample takes `bits / 8` bytes, a frame of no channels none, and there is no error. -/
def toBytes (pol : HostPolicy) (channels bits : Nat) (tuples : List SamplePair) : List Byte :=
  tuples.flatMap (pairBytes pol channels (bits / 8))

/-- The flattening of a pair sequence as `VBUF` words (00_scope.md R8, R7). -/
def flattenPairs (tuples : List SamplePair) : List Word :=
  tuples.flatMap (fun p => [BitVec.ofInt 32 p.channelA, BitVec.ofInt 32 p.channelB])

/-- The pair sequence of a flat one (an odd last value has no pair and is dropped). -/
def unflattenPairs : List Word → List SamplePair
  | a :: b :: rest => { channelA := a.toInt, channelB := b.toInt } :: unflattenPairs rest
  | _ => []

/-! ## Compressed container (R186, R187) -/

/-- What the private container holds. -/
structure Container where
  channelCount : Nat
  bitsPerSample : Nat
  sampleRate : Nat
  payload : List Byte
deriving DecidableEq, Repr

/-- `Write` (R186): the 12-byte little-endian header, then the payload. -/
def containerWrite (c : Container) : List Byte :=
  leBytes 2 c.channelCount ++ leBytes 2 c.bitsPerSample ++ leBytes 4 c.sampleRate ++
    leBytes 4 c.payload.length ++ c.payload

/-- `Read` (R187): exactly the declared payload; a short header or payload is a TruncatedInputError. -/
def containerRead (pol : HostPolicy) (bs : List Byte) : Except HostError Container :=
  let declared := rdLe ((bs.drop 8).take 4)
  let rest := bs.drop 12
  if bs.length < 12 then .error (.document .truncatedInput)
  else if rest.length < declared then .error (.document .truncatedInput)
  else if declared < rest.length && pol.rejectTrailing then .error .trailingBytes
  else .ok
    { channelCount := rdLe (bs.take 2), bitsPerSample := rdLe ((bs.drop 2).take 2),
      sampleRate := rdLe ((bs.drop 4).take 4), payload := rest.take declared }

/-! ## Reading the block out (R195)

Each read is a transaction of its own; what the host reads next may depend on what it has read. -/

/-- Step (5) of R190 and R191: read `STATUS`, and the error record when `ERR` is 1. -/
def readError (P : Config.Params) (s : State) : Host.Outcome (Option ErrorRecord × State) Fault Refusal :=
  andThen (readPlaces P [.reg .status] s) fun r =>
    if (r.1.getD 0 0#32).getLsbD 0 then
      andThen (readPlaces P [.reg .errCode, .reg .errInfo, .reg .errCmd] r.2) fun e =>
        .next (some { code := e.1.getD 0 0#32, info := e.1.getD 1 0#32, cmd := e.1.getD 2 0#32 }, e.2)
    else .next (none, r.2)

/-- The entries of a table read word by word, values and counts in turn. -/
def pairEntries : List Word → List FtEntry
  | v :: c :: ws => { value := v, count := c } :: pairEntries ws
  | _ => []

/-- Step (6) of R190: `BLEN` and `BITCNT`, the bytes `BBUF[0 .. BLEN-1]`, `NSYM` and the table's entries. -/
def readEncoded (P : Config.Params) (s : State) : Host.Outcome ((List Byte × SideInfo) × State) Fault Refusal :=
  andThen (readPlaces P [.reg .blen, .reg .bitcnt] s) fun lens =>
    let blen := (lens.1.getD 0 0#32).toNat
    andThen (readPlaces P ((List.range ((blen + 3) / 4)).map .bbufWord) lens.2) fun words =>
      andThen (readPlaces P [.reg .nsym] words.2) fun nsym =>
        andThen (readPlaces P ((List.range (nsym.1.getD 0 0#32).toNat).flatMap fun i => [.ftValue i, .ftCount i]) nsym.2)
          fun table =>
            .next (((words.1.flatMap wordBytes).take blen, { bitcnt := lens.1.getD 1 0#32, table := pairEntries table.1 }),
              table.2)

/-- Step (6) of R191: `VLEN`, then `VBUF[0 .. VLEN-1]`. -/
def readValues (P : Config.Params) (s : State) : Host.Outcome (List Word × State) Fault Refusal :=
  andThen (readPlaces P [.reg .vlen] s) fun r => readPlaces P ((List.range (r.1.getD 0 0#32).toNat).map .vbuf) r.2

/-! ## compress and decompress (R190, R191) -/

/-- The end of an invocation: what it returns, and the block it leaves. -/
structure Finished (α : Type) where
  result : Except HostError α
  block : State

/-- Step (7) of R190 and R191: clear the block, whatever the invocation returns (R195, its last row; log entry 20). -/
def finish {α : Type} (P : Config.Params) (pol : HostPolicy) (result : Except HostError α) (s : State) :
    Host.Outcome (Finished α) Fault Refusal :=
  andThen (runProgram P pol.closing.program s) fun t => .next { result := result, block := t }

/-- Return an error before the block was used; the block is as it was (log entry 20). -/
def giveUp {α : Type} (e : HostError) (s : State) : Host.Outcome (Finished α) Fault Refusal :=
  .next { result := .error e, block := s }

/-- Steps (4) to (7) of R190, (3) to (7) of R191: run the program, check `STATUS` once, read out, clear the block. -/
def useBlock {α β : Type} (P : Config.Params) (pol : HostPolicy) (afterDec : Bool) (prog : List HostEvent)
    (readOut : State → Host.Outcome (α × State) Fault Refusal) (use : α → β) (s : State) :
    Host.Outcome (Finished β) Fault Refusal :=
  andThen (runProgram P prog s) fun t =>
    andThen (readError P t) fun e =>
      match e.1 with
      | some record => finish P pol (.error (.block (documentKind afterDec record) record)) e.2
      | none => andThen (readOut e.2) fun r => finish P pol (.ok (use r.1)) r.2

/-- `compress` on file contents, over a block in state `s` (R190): the container's bytes and the side information, and the
block that is left. -/
def compress (P : Config.Params) (pol : HostPolicy) (s : State) (input : List Byte) :
    Host.Outcome (Finished (List Byte × SideInfo)) Fault Refusal :=
  match wavParse pol input with
  | .error e => giveUp e s
  | .ok w =>
    match toTuples pol w.channelCount w.bitsPerSample w.pcm with
    | .error e => giveUp e s
    | .ok tuples =>
      let file := fun payload => containerWrite
        { channelCount := w.channelCount, bitsPerSample := w.bitsPerSample, sampleRate := w.sampleRate,
          payload := payload }
      if tuples.isEmpty then finish P pol (.ok (file [], { bitcnt := 0#32, table := [] })) s
      else if P.maxValues < 2 * tuples.length then giveUp .capacity s
      else useBlock P pol false (encodeProgram pol.opening (flattenPairs tuples)) (readEncoded P)
        (fun r => (file r.1, r.2)) s

/-- `decompress` on file contents, over a block in state `s` (R191): the bytes of the WAV file, and the block that is
left. -/
def decompress (P : Config.Params) (pol : HostPolicy) (s : State) (input : List Byte) (side : SideInfo) :
    Host.Outcome (Finished (List Byte)) Fault Refusal :=
  match containerRead pol input with
  | .error e => giveUp e s
  | .ok c =>
    let file := fun tuples => wavSerialize
      { channelCount := c.channelCount, bitsPerSample := c.bitsPerSample, sampleRate := c.sampleRate,
        pcm := toBytes pol c.channelCount c.bitsPerSample tuples }
    if side.table.isEmpty then finish P pol (.ok (file [])) s
    else useBlock P pol true (decodeProgram .srst side c.payload) (readValues P) (fun vs => file (unflattenPairs vs)) s

end Sys2Proof.Machine
end

