-- ==== Sys2Proof/Safety.lean ====
section
/-! DEFINITION. The terms claims are stated in: the invariants of 10_state.md R34, R36, R37 and R42, what a program must have
written before a command reads it (70_reset_and_hazards.md R245), and the spec's own mathematical readings of the delta
coder, the code and the bit-stream. Nothing here is used by the machine. What depends on the parameters of 00_scope.md R5
takes them as its last argument, HDC-1's values when none is given. -/

namespace Sys2Proof.Machine

/-! ## The frequency table (R34) -/

/-- R34: strictly ascending signed values (so pairwise distinct), every count at least 1, at most `MAX_SYMS` entries. -/
structure TableOk (ft : List FtEntry) (P : Config.Params := Config.hdc1) : Prop where
  ascending : ft.Pairwise (fun a b => a.value.toInt < b.value.toInt)
  positive : ∀ e ∈ ft, e.count ≠ 0#32
  fits : ft.length ≤ P.maxSyms

/-! ## The tree (R36) -/

/-- The frequency of node `k`, 0 when there is none. -/
def freqAt (nodes : List Node) (k : Nat) : Nat := ((nodes[k]?).map (fun n => n.freq.toNat)).getD 0

/-- All children of the internal nodes of an arena. -/
def childrenOf (nodes : List Node) : List Nat :=
  nodes.flatMap (fun n => match n with
    | .leaf _ _ => []
    | .internal _ l r => [l, r])

/-- R36 (c) for node `k`: internal, with two different earlier children and the sum of their frequencies. -/
def innerOk (nodes : List Node) (k : Nat) : Bool :=
  match nodes[k]? with
  | some (.internal f l r) =>
    decide (l < k) && decide (r < k) && decide (l ≠ r) && f.toNat == freqAt nodes l + freqAt nodes r
  | _ => false

/-- R36 (a) to (e) for the tree of `ft`. -/
structure TreeOk (ft : List FtEntry) (nodes : List Node) (root : Nat) : Prop where
  nonempty : 1 ≤ ft.length
  count : nodes.length = 2 * ft.length - 1
  rootLast : root = 2 * ft.length - 2
  leaves : ∀ i < ft.length, nodes[i]? = (ft[i]?).map (fun e => Node.leaf e.count e.value)
  inner : ∀ k < nodes.length, ft.length ≤ k → innerOk nodes k = true
  oneParent : ∀ k < root, (childrenOf nodes).count k = 1
  total : freqAt nodes root = countSum ft ∧ countSum ft < 2 ^ 32

/-- Where a bit sequence leads from node `k`, 0 to the left and 1 to the right; `none` when it asks for a child of a
leaf. -/
def descend (nodes : List Node) (k : Nat) : List Bool → Option Nat
  | [] => some k
  | b :: bs =>
    match nodes[k]? with
    | some (.internal _ l r) => descend nodes (if b then r else l) bs
    | _ => none

/-! ## The codes (R37) -/

/-- R37 for entry `i` of a table of `n` symbols: `1 <= len <= CODE_MAX`, `bits < 2^len`, and the bits are the path of leaf
`i`; the one-leaf tree has the code `(1, 0)` (R133). -/
def codeOk (P : Config.Params) (nodes : List Node) (root n i : Nat) (c : Code) : Bool :=
  decide (1 ≤ c.len) && decide (c.len ≤ P.codeMax) && decide (c.bits.toNat < 2 ^ c.len) &&
  (if n = 1 then c.len == 1 && c.bits == 0#32 else descend nodes root (codeBits c) == some i)

/-- R37 and R42 (c) for the whole table. -/
structure CodesOk (ft : List FtEntry) (nodes : List Node) (root : Nat) (ct : List Code)
    (P : Config.Params := Config.hdc1) : Prop where
  count : ct.length = ft.length
  codes : ∀ i < ct.length, ((ct[i]?).map (codeOk P nodes root ft.length i)) = some true

/-! ## The machine invariant (R42) -/

/-- Every listed index of a buffer is below its capacity, and the list is in its canonical form. -/
structure BufferOk {α : Type} (capacity : Nat) (m : Memory α) : Prop where
  canonical : Memory.wf m
  inside : ∀ c ∈ m, c.1 < capacity

/-- R42: it holds after reset and after every command and every host access. -/
structure State.Inv (s : State) (P : Config.Params := Config.hdc1) : Prop where
  table : TableOk s.ft P
  tree : s.treeValid = true → TreeOk s.ft s.nodes s.root.toNat
  noTree : s.treeValid = false → s.nodes = [] ∧ s.root = 0#32 ∧ s.codesValid = false
  codes : s.codesValid = true → CodesOk s.ft s.nodes s.root.toNat s.ct P
  noCodes : s.codesValid = false → s.ct = []
  error : s.err = false ↔ s.errCode = .none
  clean : s.err = false → s.errInfo = 0#32 ∧ s.errCmd = 0#32
  vbuf : BufferOk P.maxValues s.vbuf
  bbuf : BufferOk P.maxBytes s.bbuf

/-! ## What a command may read (R245) -/

/-- Every cell `VBUF[0 .. VLEN-1]` has been written. -/
def ValuesWritten (s : State) : Prop := ∀ k < s.vlen.toNat, (Memory.read s.vbuf k).isSome = true

/-- Every byte `BBUF[0 .. (BITCNT+7) div 8 - 1]` has been written. -/
def StreamWritten (s : State) : Prop := ∀ j < bytesFor s.bitcnt.toNat, (Memory.read s.bbuf j).isSome = true

/-- The current value sequence is `vs`: `VLEN` is its length and cells `0 .. VLEN-1` hold it (R31). -/
def ValuesAre (s : State) (vs : List Word) : Prop :=
  s.vlen.toNat = vs.length ∧ ∀ k < vs.length, Memory.read s.vbuf k = vs[k]?

/-- The current stream's code bits are `bits`: `BITCNT` is their number and stream bit `p` is `bits[p]` (R29, R66). -/
def StreamIs (s : State) (bits : List Bool) : Prop :=
  s.bitcnt.toNat = bits.length ∧ ∀ p < bits.length, streamBit s.bbuf p = bits[p]?

/-! ## The delta coder in Z (R110 to R112) -/

/-- A result fits the value range (R7). -/
def inRange (z : Int) : Bool := decide (valueMin ≤ z) && decide (z ≤ valueMax)

/-- `in[k]` as an integer, 0 past the end. -/
def valueAt (vs : List Word) (k : Nat) : Int := (vs.getD k 0#32).toInt

/-- The difference that `DENC` stores at index `k` (R110). -/
def deltaAt (vs : List Word) (k : Nat) : Int := if k < 2 then valueAt vs k else valueAt vs k - valueAt vs (k - 2)

/-- The running sum that `DDEC` stores at index `k` (R111): `in[k] + in[k-2] + ...` down to `k mod 2`. -/
def sumAt (vs : List Word) : Nat → Int
  | 0 => valueAt vs 0
  | 1 => valueAt vs 1
  | k + 2 => valueAt vs (k + 2) + sumAt vs k

/-- `VBUF[0 .. n-1]` holds the integers `f 0 .. f (n-1)`. -/
def CellsHold (m : Memory Word) (n : Nat) (f : Nat → Int) : Prop :=
  ∀ k < n, ∃ w, Memory.read m k = some w ∧ w.toInt = f k

/-- Cells from `n` up are what they were. -/
def CellsKept {α : Type} (n : Nat) (m m' : Memory α) : Prop := ∀ k, n ≤ k → Memory.read m' k = Memory.read m k

/-- Cells `0 .. n-1` are `UNSPEC`. -/
def CellsUnspec {α : Type} (n : Nat) (m : Memory α) : Prop := ∀ k < n, Memory.read m k = none

/-! ## Priority keys and the merging order (R132) -/

/-- The key of node `k`. -/
def keyOf (nodes : List Node) (k : Nat) : Key := { freq := freqAt nodes k, index := k }

/-- Node `j` is live when node `k` is about to be created: it exists and no internal node before `k` has it as a child. -/
def isLive (nodes : List Node) (k j : Nat) : Bool := decide (j < k) && !(childrenOf (nodes.take k)).contains j

/-- R131 and R132 for internal node `k`: its left child is the live node of least key, its right child the live node of
least key among the others. -/
def MergedLeast (nodes : List Node) (k : Nat) : Prop :=
  ∃ f l r, nodes[k]? = some (Node.internal f l r) ∧
    isLive nodes k l = true ∧ isLive nodes k r = true ∧ l ≠ r ∧
    (∀ j, isLive nodes k j = true → j ≠ l → keyLt (keyOf nodes l) (keyOf nodes j) = true) ∧
    (∀ j, isLive nodes k j = true → j ≠ l → j ≠ r → keyLt (keyOf nodes r) (keyOf nodes j) = true)

/-! ## The bit-stream of a value sequence (R150, R152, R156) -/

/-- The codeword of a value: that of the table entry with this value. -/
def codewordFor (ft : List FtEntry) (ct : List Code) (v : Word) : Option (List Bool) :=
  ((ft.zip ct).find? (fun p => p.1.value == v)).map (fun p => codeBits p.2)

/-- `words` are the codewords of `vs`, one each, in order. -/
def CodewordsOf (ft : List FtEntry) (ct : List Code) (vs : List Word) (words : List (List Bool)) : Prop :=
  words.map some = vs.map (codewordFor ft ct)

/-- `paths` lead from the root to the leaves `leaves`, one each, in order, in a tree whose first `n` nodes are its
leaves. -/
def LeafPaths (nodes : List Node) (root n : Nat) (paths : List (List Bool)) (leaves : List Nat) : Prop :=
  paths.map (descend nodes root) = leaves.map some ∧ ∀ i ∈ leaves, i < n

/-! ## Errors by command (R211) -/

/-- The error codes a command may raise, by 60_exceptions.md R211 (its index of the command rules). -/
def mayRaise : Instr → List ErrCode
  | .nop => []
  | .clr _ => []
  | .srst => []
  | .denc => [.len, .range]
  | .ddec => [.len, .range]
  | .fcnt => [.len, .capacity]
  | .fput => [.zeroCnt, .dupSym, .capacity]
  | .btree => [.empty, .range]
  | .gcode => [.notReady, .capacity]
  | .enc => [.notReady, .len, .noCode, .capacity]
  | .dec => [.notReady, .len, .trunc, .walk, .capacity]

/-- The pre-check errors of a command, by the class column of R211. -/
def preCheckErrors : Instr → List ErrCode
  | .nop => []
  | .clr _ => []
  | .srst => []
  | .denc => [.len]
  | .ddec => [.len]
  | .fcnt => [.len]
  | .fput => [.zeroCnt, .dupSym, .capacity]
  | .btree => [.empty, .range]
  | .gcode => [.notReady]
  | .enc => [.notReady, .len]
  | .dec => [.notReady, .len, .trunc]

/-! ## What a step is about -/

/-- The word of the host's next transaction when that is a write to `CMD`. -/
def nextCommandWord (s : State) : Option Word :=
  match s.pending with
  | .write addr w :: _ => if addr = Reg.cmd.offset then some w else none
  | _ => none

/-- The command that the next step carries, when it is a legal word written to `CMD`. -/
def nextCommand (s : State) : Option Instr :=
  match nextCommandWord s with
  | some w => match decode w with
    | .instr i => some i
    | .illegal _ => none
  | none => none

/-- The host's next transaction is a hardware reset (R240). -/
def nextIsHardReset (s : State) : Bool :=
  match s.pending with
  | .hardReset :: _ => true
  | _ => false

end Sys2Proof.Machine
end

