-- ==== Sys2Proof/Certificates/Slice0/Obligations.lean ====
section
/-! DEFINITION. The statements for the provers, each from the rules of spec/ that its docstring names. -/

open Sys2Proof
open Sys2Proof.Machine

/-! ## Encoding -/

/-- Decoding and encoding agree on every word and every command (30_encoding.md R90 to R93): a word decodes to a command
exactly when that command is well formed and the word is its encoding. So no bit of an encoding is dropped and no two
commands share a word. -/
def Obligations.DecodeIsExactlyEncode : Prop :=
  ∀ (c : Word) (i : Instr), decode c = .instr i ↔ i.wellFormed = true ∧ encode i = c

/-- The match and mask columns of R93: a word is the command if and only if `c AND mask = match`. -/
def Obligations.DecodeMatchesTheTable : Prop :=
  ∀ c : Word,
    (decode c = .instr .nop ↔ c &&& 0xFFFFFFFF#32 = 0x00000000#32) ∧
    ((∃ arg, decode c = .instr (.clr arg)) ↔ c &&& 0xFFFF70FF#32 = 0x00000001#32) ∧
    (decode c = .instr .srst ↔ c &&& 0xFFFFFFFF#32 = 0x00000002#32) ∧
    (decode c = .instr .denc ↔ c &&& 0xFFFFFFFF#32 = 0x00000010#32) ∧
    (decode c = .instr .ddec ↔ c &&& 0xFFFFFFFF#32 = 0x00000011#32) ∧
    (decode c = .instr .fcnt ↔ c &&& 0xFFFFFFFF#32 = 0x00000020#32) ∧
    (decode c = .instr .fput ↔ c &&& 0xFFFFFFFF#32 = 0x00000021#32) ∧
    (decode c = .instr .btree ↔ c &&& 0xFFFFFFFF#32 = 0x00000022#32) ∧
    (decode c = .instr .gcode ↔ c &&& 0xFFFFFFFF#32 = 0x00000023#32) ∧
    (decode c = .instr .enc ↔ c &&& 0xFFFFFFFF#32 = 0x00000030#32) ∧
    (decode c = .instr .dec ↔ c &&& 0xFFFFFFFF#32 = 0x00000031#32)

/-- Words written out from R93, and illegal words of 95_test_vectors.md section 2.6. -/
def Obligations.SampleWordsDecode : Prop :=
  decode 0x00000000#32 = .instr .nop ∧ decode 0x00008F01#32 = .instr (.clr 0x8F#8) ∧
  decode 0x00000010#32 = .instr .denc ∧ decode 0x00000021#32 = .instr .fput ∧
  decode 0x00000023#32 = .instr .gcode ∧ decode 0x00000031#32 = .instr .dec ∧
  decode 0x00001001#32 = .illegal .clrReservedMask ∧ decode 0x00000110#32 = .illegal .strayArg ∧
  decode 0x00010000#32 = .illegal .reservedBits ∧ decode 0x00000012#32 = .illegal .unknownOpcode

/-- R94: an illegal word is ignored while an error is recorded, otherwise it raises `E_ILLCMD` with `ERRINFO = 0` and
`ERRCMD` the word, and changes nothing else. Every opcode but the eleven is illegal, and so are the words R92 names; no word
but `NOP` and `CLR` with `arg = 0` does nothing in every state. -/
def Obligations.IllegalWordsRaise : Prop :=
  (∀ (s : State) (c : Word) (rest : List HostEvent) (why : Illegal),
    s.pending = .write 0x10 c :: rest → decode c = .illegal why →
    step s = .next (if s.err then takeEvent rest s else
      { takeEvent rest s with err := true, errCode := .illCmd, errInfo := 0#32, errCmd := c })) ∧
  (∀ c : Word, (∀ o : Opcode, o.code ≠ c.extractLsb' 0 8) → ∃ why, decode c = .illegal why) ∧
  (∀ c : Word, c.extractLsb' 16 16 ≠ 0#16 → ∃ why, decode c = .illegal why) ∧
  (∀ c : Word, c.extractLsb' 0 8 = 0x01#8 → c.extractLsb' 12 3 ≠ 0#3 → ∃ why, decode c = .illegal why) ∧
  (∀ c : Word, c.extractLsb' 0 8 ≠ 0x01#8 → c.extractLsb' 8 8 ≠ 0#8 → ∃ why, decode c = .illegal why) ∧
  (∀ (c : Word) (i : Instr), decode c = .instr i → (∀ s, exec i s = .next s) → c = 0x00000000#32 ∨ c = 0x00000001#32)

/-! ## Steps and the port -/

/-- A step runs the decoded command (10_state.md R23, 20_memory.md R64, 30_encoding.md R101): when the host's next
transaction writes a word to `CMD` that decodes to `i`, the step is `exec i` after the host has taken that transaction up (the
host's side is the model's own, log entry 1). -/
def Obligations.StepRunsTheDecodedCommand : Prop :=
  ∀ (s : State) (c : Word) (i : Instr) (rest : List HostEvent),
    s.pending = .write 0x10 c :: rest → decode c = .instr i →
    step s = exec i { s with pending := rest, txnIndex := s.txnIndex + 1 }

/-- A block with no transaction pending is idle, and a hardware reset gives the reset state with the host's side kept
(70_reset_and_hazards.md R240, R241). That an idle step is a step is the model's choice (log entry 2). -/
def Obligations.IdleAndHardReset : Prop :=
  (∀ s : State, s.pending = [] → step s = .next s) ∧
  (∀ (s : State) (rest : List HostEvent), s.pending = .hardReset :: rest →
    step s = .next { State.reset with pending := rest, txnIndex := s.txnIndex + 1, readLog := s.readLog })

/-- An address that is not word aligned or not below 2^24 is refused at the model's boundary (20_memory.md R61, log
entry 9). -/
def Obligations.InexpressibleAddressRefused : Prop :=
  ∀ (s : State) (a : Nat) (rest : List HostEvent), (a % 4 ≠ 0 ∨ 2 ^ 24 ≤ a) →
    (∀ v, s.pending = .write a v :: rest → step s = .refused (.inexpressibleAddress a)) ∧
    (s.pending = .read a :: rest → step s = .refused (.inexpressibleAddress a))

/-- A host read changes no state of the block: it only hands one word to the host (20_memory.md R63; log entries
1 and 4). -/
def Obligations.HostReadChangesNothing : Prop :=
  ∀ (s : State) (a : Nat) (rest : List HostEvent), s.pending = .read a :: rest → a % 4 = 0 → a < 2 ^ 24 →
    step s = .next { s with
      pending := rest, txnIndex := s.txnIndex + 1,
      readLog := s.readLog ++ [memRead Config.hdc1 (Config.freeWord (s.txnIndex + 1)) s a] }

/-- What a host read of a register offset returns, the constants and the reserved offsets among them (10_state.md R22 to
R26, R30; the error numbers are those of 60_exceptions.md R211), for any state and any free word. -/
def Obligations.RegisterReads : Prop :=
  ∀ (free : Word) (s : State),
    memRead Config.hdc1 free s 0x00 = 0x48444331#32 ∧ memRead Config.hdc1 free s 0x04 = 65536#32 ∧
    memRead Config.hdc1 free s 0x08 = 262144#32 ∧ memRead Config.hdc1 free s 0x0C = 4096#32 ∧
    memRead Config.hdc1 free s 0x10 = 0#32 ∧
    memRead Config.hdc1 free s 0x14 =
      BitVec.ofNat 32 (s.err.toNat + 2 * s.treeValid.toNat + 4 * s.codesValid.toNat) ∧
    (memRead Config.hdc1 free s 0x18).toNat = [ErrCode.none, .illCmd, .len, .zeroCnt, .dupSym, .range, .capacity, .empty,
      .notReady, .noCode, .walk, .trunc].idxOf s.errCode ∧ memRead Config.hdc1 free s 0x1C = s.errInfo ∧
    memRead Config.hdc1 free s 0x20 = s.errCmd ∧ memRead Config.hdc1 free s 0x24 = s.vlen ∧
    memRead Config.hdc1 free s 0x28 = s.blen ∧ memRead Config.hdc1 free s 0x2C = s.bitcnt ∧
    memRead Config.hdc1 free s 0x30 = BitVec.ofNat 32 s.ft.length ∧
    memRead Config.hdc1 free s 0x34 = BitVec.ofNat 32 s.nodes.length ∧
    memRead Config.hdc1 free s 0x38 = s.root ∧ memRead Config.hdc1 free s 0x3C = s.ftVal ∧
    memRead Config.hdc1 free s 0x40 = s.ftCnt ∧ memRead Config.hdc1 free s 0x44 = 32#32 ∧
    (∀ a, 0x48 ≤ a → a < 0x100 → a % 4 = 0 → memRead Config.hdc1 free s a = 0#32)

/-- What a host read of a window returns, with the entries past a table's end and the reserved ranges reading 0
(20_memory.md R62, R63, R65, R69, R74 to R77), for any state and any free word. -/
def Obligations.WindowReads : Prop :=
  ∀ (free : Word) (s : State),
    (∀ i < 65536, memRead Config.hdc1 free s (0x100000 + 4 * i) = (Memory.read s.vbuf i).getD free) ∧
    (∀ j < 65536, ∀ b < 4, (memRead Config.hdc1 free s (0x200000 + 4 * j)).extractLsb' (8 * b) 8 =
      (Memory.read s.bbuf (4 * j + b)).getD (free.extractLsb' (8 * b) 8)) ∧
    (∀ i < 4096,
      memRead Config.hdc1 free s (0x300000 + 8 * i) = ((s.ft[i]?).map FtEntry.value).getD 0#32 ∧
      memRead Config.hdc1 free s (0x300004 + 8 * i) = ((s.ft[i]?).map FtEntry.count).getD 0#32) ∧
    (∀ k < 8191,
      (∀ f v, s.nodes[k]? = some (.leaf f v) →
        memRead Config.hdc1 free s (0x400000 + 16 * k) = f ∧ memRead Config.hdc1 free s (0x400004 + 16 * k) = v ∧
        memRead Config.hdc1 free s (0x400008 + 16 * k) = 0xFFFFFFFF#32 ∧
        memRead Config.hdc1 free s (0x40000C + 16 * k) = 0xFFFFFFFF#32) ∧
      (∀ f l r, s.nodes[k]? = some (.internal f l r) →
        memRead Config.hdc1 free s (0x400000 + 16 * k) = f ∧ memRead Config.hdc1 free s (0x400004 + 16 * k) = 0#32 ∧
        memRead Config.hdc1 free s (0x400008 + 16 * k) = BitVec.ofNat 32 l ∧
        memRead Config.hdc1 free s (0x40000C + 16 * k) = BitVec.ofNat 32 r) ∧
      (s.nodes.length ≤ k → ∀ w < 4, memRead Config.hdc1 free s (0x400000 + 16 * k + 4 * w) = 0#32)) ∧
    (∀ i < 4096,
      (∀ c, s.codesValid = true → i < s.ft.length → s.ct[i]? = some c →
        memRead Config.hdc1 free s (0x500000 + 8 * i) = BitVec.ofNat 32 c.len ∧
        memRead Config.hdc1 free s (0x500004 + 8 * i) = c.bits) ∧
      ((s.codesValid = false ∨ s.ft.length ≤ i) →
        memRead Config.hdc1 free s (0x500000 + 8 * i) = 0#32 ∧
        memRead Config.hdc1 free s (0x500004 + 8 * i) = 0#32)) ∧
    (∀ a, a < 2 ^ 24 → a % 4 = 0 →
      ((0x100 ≤ a ∧ a < 0x100000) ∨ (0x140000 ≤ a ∧ a < 0x200000) ∨ (0x240000 ≤ a ∧ a < 0x300000) ∨
        (0x308000 ≤ a ∧ a < 0x400000) ∨ (0x41FFF0 ≤ a ∧ a < 0x500000) ∨ (0x508000 ≤ a ∧ a < 0x600000) ∨
        0x600000 ≤ a) → memRead Config.hdc1 free s a = 0#32)

/-- What a host write does, whatever `ERR` is: an `RW` register, a `VBUF` cell or four `BBUF` bytes store the word and
nothing else changes; a write anywhere else but `CMD` is ignored (20_memory.md R62, R64, R65). -/
def Obligations.HostWrites : Prop :=
  ∀ (s : State) (a : Nat) (v : Word) (rest : List HostEvent), s.pending = .write a v :: rest →
    (a = 0x24 → step s = .next { takeEvent rest s with vlen := v }) ∧
    (a = 0x28 → step s = .next { takeEvent rest s with blen := v }) ∧
    (a = 0x2C → step s = .next { takeEvent rest s with bitcnt := v }) ∧
    (a = 0x3C → step s = .next { takeEvent rest s with ftVal := v }) ∧
    (a = 0x40 → step s = .next { takeEvent rest s with ftCnt := v }) ∧
    (∀ i < 65536, a = 0x100000 + 4 * i →
      ∃ t, step s = .next t ∧ t = { takeEvent rest s with vbuf := t.vbuf } ∧
        ∀ k, Memory.read t.vbuf k = if k = i then some v else Memory.read s.vbuf k) ∧
    (∀ j < 65536, a = 0x200000 + 4 * j →
      ∃ t, step s = .next t ∧ t = { takeEvent rest s with bbuf := t.bbuf } ∧
        ∀ k, Memory.read t.bbuf k =
          if k / 4 = j then some (v.extractLsb' (8 * (k % 4)) 8) else Memory.read s.bbuf k) ∧
    (a < 2 ^ 24 → a % 4 = 0 →
      (a < 0x10 ∨ (0x14 ≤ a ∧ a < 0x24) ∨ (0x30 ≤ a ∧ a < 0x3C) ∨ (0x44 ≤ a ∧ a < 0x100000) ∨
        (0x140000 ≤ a ∧ a < 0x200000) ∨ 0x240000 ≤ a) → step s = .next (takeEvent rest s))

/-- Stream bit `p` is bit `8*((p div 8) mod 4) + 7 - (p mod 8)` of BBUF window word `p div 32` (20_memory.md R65, R66). -/
def Obligations.StreamBitInWindowWord : Prop :=
  ∀ (free : Word) (s : State) (p : Nat) (b : Bool), p < 8 * 262144 → streamBit s.bbuf p = some b →
    (memRead Config.hdc1 free s (0x200000 + 4 * (p / 32))).getLsbD (8 * (p / 8 % 4) + 7 - p % 8) = b

/-! ## Reset and the control commands -/

/-- The reset state (10_state.md R41, 70_reset_and_hazards.md R241): every register 0 but the constants, no flag, no error,
the tables empty, every buffer cell `UNSPEC`. -/
def Obligations.ResetStateIsR41 : Prop :=
  (∀ (free : Word) (a : Nat), a < 0x100 → a % 4 = 0 → a ∉ [0x00, 0x04, 0x08, 0x0C, 0x44] →
    memRead Config.hdc1 free State.reset a = 0#32) ∧
  State.reset.ft = [] ∧ State.reset.nodes = [] ∧ State.reset.ct = [] ∧
  State.reset.err = false ∧ State.reset.treeValid = false ∧ State.reset.codesValid = false ∧
  (∀ k, Memory.read State.reset.vbuf k = none) ∧ (∀ k, Memory.read State.reset.bbuf k = none)

/-- R172: `SRST` puts the whole block in its reset state, whatever `ERR` is, and the host's side is not the block's (log
entry 1). -/
def Obligations.SrstResetsTheBlock : Prop :=
  decode 0x00000002#32 = .instr .srst ∧ ∀ s : State, exec .srst s =
    .next { State.reset with pending := s.pending, txnIndex := s.txnIndex, readLog := s.readLog }

/-- R170: `NOP` changes nothing, whatever `ERR` is. -/
def Obligations.NopChangesNothing : Prop :=
  decode 0x00000000#32 = .instr .nop ∧ ∀ s : State, exec .nop s = .next s

/-- R171: `CLR` performs every selected part and nothing else; with an error recorded and E = 0 it is ignored entirely. -/
def Obligations.ClrClearsTheSelected : Prop :=
  (∀ arg : Byte, arg.extractLsb' 4 3 = 0#3 → decode (BitVec.ofNat 32 (1 + 2 ^ 8 * arg.toNat)) = .instr (.clr arg)) ∧
  (∀ arg : Byte, arg.extractLsb' 4 3 ≠ 0#3 →
    ∃ why, decode (BitVec.ofNat 32 (1 + 2 ^ 8 * arg.toNat)) = .illegal why) ∧
  ∀ (arg : Byte) (s : State),
    ((s.err = false ∨ arg.getLsbD 7 = true) → exec (.clr arg) s = .next { s with
      vlen := if arg.getLsbD 0 then 0#32 else s.vlen
      blen := if arg.getLsbD 1 then 0#32 else s.blen
      bitcnt := if arg.getLsbD 1 then 0#32 else s.bitcnt
      ft := if arg.getLsbD 2 then [] else s.ft
      treeValid := if arg.getLsbD 2 || arg.getLsbD 3 then false else s.treeValid
      codesValid := if arg.getLsbD 2 || arg.getLsbD 3 then false else s.codesValid
      root := if arg.getLsbD 2 || arg.getLsbD 3 then 0#32 else s.root
      nodes := if arg.getLsbD 2 || arg.getLsbD 3 then [] else s.nodes
      ct := if arg.getLsbD 2 || arg.getLsbD 3 then [] else s.ct
      err := if arg.getLsbD 7 then false else s.err
      errCode := if arg.getLsbD 7 then .none else s.errCode
      errInfo := if arg.getLsbD 7 then 0#32 else s.errInfo
      errCmd := if arg.getLsbD 7 then 0#32 else s.errCmd }) ∧
    ((s.err = true ∧ arg.getLsbD 7 = false) → exec (.clr arg) s = .next s)

/-! ## The error mechanism -/

/-- R213, the error gate on a write of `c` to `CMD`: with an error recorded only `SRST` and a legal `CLR` with E run and
every other word, legal or not, changes nothing; with none recorded a legal command runs and an illegal word raises. -/
def Obligations.ErrorGate : Prop :=
  ∀ (s : State) (c : Word) (rest : List HostEvent), s.pending = .write 0x10 c :: rest →
    (s.err = true →
      (decode c = .instr .srst → step s = exec .srst (takeEvent rest s)) ∧
      (∀ arg, decode c = .instr (.clr arg) → arg.getLsbD 7 = true →
        ∃ t, step s = .next t ∧ step s = exec (.clr arg) (takeEvent rest s) ∧ t.err = false) ∧
      ((∀ arg, decode c = .instr (.clr arg) → arg.getLsbD 7 = false) → decode c ≠ .instr .srst →
        step s = .next (takeEvent rest s))) ∧
    (s.err = false →
      (∀ i, decode c = .instr i → step s = exec i (takeEvent rest s)) ∧
      (∀ why, decode c = .illegal why → step s = .next { takeEvent rest s with
        err := true, errCode := .illCmd, errInfo := 0#32, errCmd := c }))

/-- An error a command raises is one of its own (R211), `ERRCMD` is its word (R214), and a pre-check error changes only the
error record (R216). -/
def Obligations.ErrorsAreTheCommandsOwn : Prop :=
  ∀ (i : Instr) (s t : State), s.err = false → exec i s = .next t → t.err = true →
    t.errCode ∈ mayRaise i ∧ t.errCmd = encode i ∧
    (t.errCode ∈ preCheckErrors i →
      t = { s with err := true, errCode := t.errCode, errInfo := t.errInfo, errCmd := t.errCmd })

/-- A recorded error stays as it is until `CLR` with E, `SRST` or a hardware reset (10_state.md R26, 60_exceptions.md R213,
R215), and then it is cleared. -/
def Obligations.ErrorRecordIsSticky : Prop :=
  ∀ s t : State, s.err = true → step s = .next t →
    (t.err = true ∧ t.errCode = s.errCode ∧ t.errInfo = s.errInfo ∧ t.errCmd = s.errCmd) ∨
    ((nextIsHardReset s = true ∨ nextCommand s = some .srst ∨
        ∃ arg, nextCommand s = some (.clr arg) ∧ arg.getLsbD 7 = true) ∧
      t.err = false ∧ t.errCode = .none ∧ t.errInfo = 0#32 ∧ t.errCmd = 0#32)

/-! ## The delta coder -/

/-- R110, `DENC`: the length pre-checks, the differences in `Z` stored in place, and `E_RANGE` at the least index that
overflows with `VLEN = 0` and the buffer `UNSPEC`. -/
def Obligations.DencEffect : Prop :=
  decode 0x00000010#32 = .instr .denc ∧ ∀ s : State, s.err = false →
    ((Config.hdc1.maxValues < s.vlen.toNat ∨ s.vlen.toNat % 2 = 1) →
      exec .denc s = .next { s with err := true, errCode := .len, errInfo := s.vlen, errCmd := 0x10#32 }) ∧
    (∀ vs, ValuesAre s vs → vs.length ≤ Config.hdc1.maxValues → vs.length % 2 = 0 →
      ((∀ k < vs.length, inRange (deltaAt vs k) = true) →
        ∃ t, exec .denc s = .next t ∧ t = { s with vbuf := t.vbuf } ∧
          CellsHold t.vbuf vs.length (deltaAt vs) ∧ CellsKept vs.length s.vbuf t.vbuf) ∧
      (∀ k < vs.length, inRange (deltaAt vs k) = false → (∀ j < k, inRange (deltaAt vs j) = true) →
        ∃ t, exec .denc s = .next t ∧
          t = { s with vbuf := t.vbuf, vlen := 0#32, err := true, errCode := .range,
                       errInfo := BitVec.ofNat 32 k, errCmd := 0x10#32 } ∧
          CellsUnspec vs.length t.vbuf ∧ CellsKept vs.length s.vbuf t.vbuf))

/-- R111, `DDEC`: the length pre-checks, the running sums of each lane stored in place, and `E_RANGE` at the least index
that overflows with `VLEN = 0` and the buffer `UNSPEC`. -/
def Obligations.DdecEffect : Prop :=
  decode 0x00000011#32 = .instr .ddec ∧ ∀ s : State, s.err = false →
    ((Config.hdc1.maxValues < s.vlen.toNat ∨ s.vlen.toNat % 2 = 1) →
      exec .ddec s = .next { s with err := true, errCode := .len, errInfo := s.vlen, errCmd := 0x11#32 }) ∧
    (∀ vs, ValuesAre s vs → vs.length ≤ Config.hdc1.maxValues → vs.length % 2 = 0 →
      ((∀ k < vs.length, inRange (sumAt vs k) = true) →
        ∃ t, exec .ddec s = .next t ∧ t = { s with vbuf := t.vbuf } ∧
          CellsHold t.vbuf vs.length (sumAt vs) ∧ CellsKept vs.length s.vbuf t.vbuf) ∧
      (∀ k < vs.length, inRange (sumAt vs k) = false → (∀ j < k, inRange (sumAt vs j) = true) →
        ∃ t, exec .ddec s = .next t ∧
          t = { s with vbuf := t.vbuf, vlen := 0#32, err := true, errCode := .range,
                       errInfo := BitVec.ofNat 32 k, errCmd := 0x11#32 } ∧
          CellsUnspec vs.length t.vbuf ∧ CellsKept vs.length s.vbuf t.vbuf))

/-- R113, the delta round trip in both orders, and that inputs of 8-bit or 16-bit PCM never raise `E_RANGE` while others can. -/
def Obligations.DeltaRoundTrip : Prop :=
  (∃ s t : State, s.err = false ∧ exec .denc s = .next t ∧ t.err = true ∧ t.errCode = .range) ∧
  ∀ (s : State) (vs : List Word), s.err = false → ValuesAre s vs → vs.length ≤ Config.hdc1.maxValues →
    vs.length % 2 = 0 →
    (∀ t, exec .denc s = .next t → t.err = false →
      ∃ u, exec .ddec t = .next u ∧ u.err = false ∧ ValuesAre u vs) ∧
    (∀ t, exec .ddec s = .next t → t.err = false →
      ∃ u, exec .denc t = .next u ∧ u.err = false ∧ ValuesAre u vs) ∧
    ((∀ v ∈ vs, -32768 ≤ v.toInt ∧ v.toInt ≤ 32767) ∨ (∀ v ∈ vs, 0 ≤ v.toInt ∧ v.toInt ≤ 255) →
      ∃ t, exec .denc s = .next t ∧ t.err = false ∧
        ∀ k < vs.length, ∃ w, Memory.read t.vbuf k = some w ∧ -65535 ≤ w.toInt ∧ w.toInt ≤ 65535)

/-- The frame of the delta commands (40_delta.md R110, R111, R114), for every next state: only `VBUF[0 .. n-1]`, `VLEN` and
the error record may change. -/
def Obligations.DeltaFrame : Prop :=
  ∀ (i : Instr) (s t : State), (i = .denc ∨ i = .ddec) → exec i s = .next t →
    t = { s with vbuf := t.vbuf, vlen := t.vlen, err := t.err, errCode := t.errCode,
                 errInfo := t.errInfo, errCmd := t.errCmd } ∧
    CellsKept s.vlen.toNat s.vbuf t.vbuf ∧ (t.err = false → t.vlen = s.vlen)

/-! ## The frequency table -/

/-- R121, `FCNT`: the length pre-check; the table of the distinct values with their counts, ascending, replacing the old
one; and `E_CAPACITY` at the first value that does not fit, with the table left empty. The tree and the codes are
invalidated. -/
def Obligations.FcntEffect : Prop :=
  decode 0x00000020#32 = .instr .fcnt ∧ ∀ s : State, s.err = false →
    (Config.hdc1.maxValues < s.vlen.toNat →
      exec .fcnt s = .next { s with err := true, errCode := .len, errInfo := s.vlen, errCmd := 0x20#32 }) ∧
    (∀ vs, ValuesAre s vs → vs.length ≤ Config.hdc1.maxValues →
      (vs.dedup.length ≤ Config.hdc1.maxSyms →
        ∃ t, exec .fcnt s = .next t ∧
          t = { s with ft := t.ft, treeValid := false, codesValid := false, root := 0#32, nodes := [], ct := [] } ∧
          t.ft.Pairwise (fun a b => a.value.toInt < b.value.toInt) ∧
          (∀ e, e ∈ t.ft ↔ e.value ∈ vs ∧ e.count = BitVec.ofNat 32 (vs.count e.value)) ∧
          countSum t.ft = vs.length) ∧
      (∀ k < vs.length, (vs.take k).dedup.length = Config.hdc1.maxSyms → vs.getD k 0#32 ∉ vs.take k →
        exec .fcnt s = .next { s with
          ft := [], treeValid := false, codesValid := false, root := 0#32, nodes := [], ct := [],
          err := true, errCode := .capacity, errInfo := BitVec.ofNat 32 k, errCmd := 0x20#32 }))

/-- R122, `FPUT`: zero count, then duplicate, then table full, each changing only the error record; otherwise the entry is
inserted in order and the tree and the codes are invalidated, `FT_VAL` and `FT_CNT` kept. -/
def Obligations.FputEffect : Prop :=
  decode 0x00000021#32 = .instr .fput ∧ ∀ s : State, s.err = false → TableOk s.ft →
    (s.ftCnt = 0#32 → exec .fput s = .next { s with
      err := true, errCode := .zeroCnt, errInfo := 0#32, errCmd := 0x21#32 }) ∧
    (∀ i e, s.ftCnt ≠ 0#32 → s.ft[i]? = some e → e.value = s.ftVal → exec .fput s = .next { s with
      err := true, errCode := .dupSym, errInfo := BitVec.ofNat 32 i, errCmd := 0x21#32 }) ∧
    (s.ftCnt ≠ 0#32 → (∀ e ∈ s.ft, e.value ≠ s.ftVal) →
      (s.ft.length = Config.hdc1.maxSyms → exec .fput s = .next { s with
        err := true, errCode := .capacity, errInfo := BitVec.ofNat 32 s.ft.length, errCmd := 0x21#32 }) ∧
      (s.ft.length ≠ Config.hdc1.maxSyms →
        ∃ t, exec .fput s = .next t ∧
          t = { s with ft := t.ft, treeValid := false, codesValid := false, root := 0#32, nodes := [], ct := [] } ∧
          TableOk t.ft ∧ t.ft.length = s.ft.length + 1 ∧
          ∀ e, e ∈ t.ft ↔ e ∈ s.ft ∨ (e.value = s.ftVal ∧ e.count = s.ftCnt)))

/-- Two `FPUT`s of different values give the same table in either order (41_frequency_table.md R122). -/
def Obligations.FputOrderDoesNotMatter : Prop :=
  ∀ (s : State) (v c v' c' : Word), s.err = false → TableOk s.ft → v ≠ v' → c ≠ 0#32 → c' ≠ 0#32 →
    (∀ e ∈ s.ft, e.value ≠ v ∧ e.value ≠ v') → s.ft.length + 2 ≤ Config.hdc1.maxSyms →
    ∃ t t' u u',
      exec .fput { s with ftVal := v, ftCnt := c } = .next t ∧
      exec .fput { t with ftVal := v', ftCnt := c' } = .next t' ∧
      exec .fput { s with ftVal := v', ftCnt := c' } = .next u ∧
      exec .fput { u with ftVal := v, ftCnt := c } = .next u' ∧
      t'.err = false ∧ u'.err = false ∧ t'.ft = u'.ft ∧ t'.ft.length = s.ft.length + 2

/-- The frame of the table commands (41_frequency_table.md R121, R122), for every next state: the buffers, the length
registers and `FT_VAL`, `FT_CNT` are unchanged. -/
def Obligations.TableCommandFrame : Prop :=
  ∀ (i : Instr) (s t : State), (i = .fcnt ∨ i = .fput) → exec i s = .next t →
    t = { s with ft := t.ft, treeValid := t.treeValid, codesValid := t.codesValid, root := t.root, nodes := t.nodes,
                 ct := t.ct, err := t.err, errCode := t.errCode, errInfo := t.errInfo, errCmd := t.errCmd }

/-- Only `FCNT`, `FPUT`, `CLR` with F, `SRST` and a hardware reset change `FT`; only they, `BTREE` and `CLR` with T change
`NODE`, `ROOT` or `TREE_VALID`; only they and `GCODE` change `CT` or `CODES_VALID` (10_state.md R22, R34, R35, R37, R38). -/
def Obligations.WhoWritesTheTables : Prop :=
  ∀ s t : State, step s = .next t → nextIsHardReset s = false →
    (t.ft ≠ s.ft → ∃ i, nextCommand s = some i ∧
      (i = .fcnt ∨ i = .fput ∨ i = .srst ∨ ∃ arg, i = .clr arg ∧ arg.getLsbD 2 = true)) ∧
    ((t.nodes ≠ s.nodes ∨ t.root ≠ s.root ∨ t.treeValid ≠ s.treeValid) → ∃ i, nextCommand s = some i ∧
      (i = .fcnt ∨ i = .fput ∨ i = .srst ∨ i = .btree ∨
        ∃ arg, i = .clr arg ∧ (arg.getLsbD 2 = true ∨ arg.getLsbD 3 = true))) ∧
    ((t.ct ≠ s.ct ∨ t.codesValid ≠ s.codesValid) → ∃ i, nextCommand s = some i ∧
      (i = .fcnt ∨ i = .fput ∨ i = .srst ∨ i = .btree ∨ i = .gcode ∨
        ∃ arg, i = .clr arg ∧ (arg.getLsbD 2 = true ∨ arg.getLsbD 3 = true)))

/-! ## The code generator -/

/-- R131 and R132, `BTREE`: empty table, then the sum of the counts, each changing only the error record; otherwise the
arena is the Huffman tree of `FT` (the invariants of R36), every internal node merges the two live nodes of least key,
least first on the left, and the codes are invalidated. -/
def Obligations.BtreeEffect : Prop :=
  ∀ s : State, s.err = false →
    (s.ft = [] → exec .btree s = .next { s with
      err := true, errCode := .empty, errInfo := 0#32, errCmd := 0x22#32 }) ∧
    (s.ft ≠ [] → 2 ^ 32 ≤ countSum s.ft → exec .btree s = .next { s with
      err := true, errCode := .range, errInfo := 0#32, errCmd := 0x22#32 }) ∧
    (s.ft ≠ [] → countSum s.ft < 2 ^ 32 → s.ft.length ≤ Config.hdc1.maxSyms →
      ∃ t, exec .btree s = .next t ∧
        t = { s with treeValid := true, codesValid := false, ct := [], nodes := t.nodes, root := t.root } ∧
        TreeOk s.ft t.nodes t.root.toNat ∧
        ∀ k, s.ft.length ≤ k → k < t.nodes.length → MergedLeast t.nodes k)

/-- R132 and R136 (d): the tree is a function of `FT` alone and the codes are a function of the tree: equal tables give
equal arenas, roots and codes. -/
def Obligations.EqualTablesGiveEqualTrees : Prop :=
  (∀ s u t : State, s.err = false → u.err = false → s.ft = u.ft → exec .btree s = .next t → t.err = false →
    ∃ v, exec .btree u = .next v ∧ v.err = false ∧ v.nodes = t.nodes ∧ v.root = t.root ∧ v.ft = t.ft) ∧
  (∀ s u t : State, s.err = false → u.err = false → s.treeValid = true → u.treeValid = true → s.ft = u.ft →
    s.nodes = u.nodes → s.root = u.root → exec .gcode s = .next t → t.err = false →
    ∃ v, exec .gcode u = .next v ∧ v.err = false ∧ v.ct = t.ct)

/-- R135 with R133, `GCODE`, in a state whose tree is the tree of `FT`: not ready changes only the error record; when every
path fits, `CT` holds the path of every leaf, the one-leaf tree's code being `(1, 0)`; otherwise `E_CAPACITY` names the
least leaf whose path is too long, the codes are invalid and the tree stays. -/
def Obligations.GcodeEffect : Prop :=
  ∀ s : State, s.err = false →
    (s.treeValid = false → exec .gcode s = .next { s with
      err := true, errCode := .notReady, errInfo := 0#32, errCmd := 0x23#32 }) ∧
    (s.treeValid = true → TreeOk s.ft s.nodes s.root.toNat → s.ft.length ≤ Config.hdc1.maxSyms →
      ((∀ i < s.ft.length, ∀ bs, descend s.nodes s.root.toNat bs = some i → bs.length ≤ Config.hdc1.codeMax) →
        ∃ t, exec .gcode s = .next t ∧ t = { s with ct := t.ct, codesValid := true } ∧
          CodesOk s.ft s.nodes s.root.toNat t.ct) ∧
      (∀ i < s.ft.length,
        (∃ bs, descend s.nodes s.root.toNat bs = some i ∧ Config.hdc1.codeMax < bs.length) →
        (∀ j < i, ∀ bs, descend s.nodes s.root.toNat bs = some j → bs.length ≤ Config.hdc1.codeMax) →
        exec .gcode s = .next { s with
          ct := [], codesValid := false, err := true, errCode := .capacity,
          errInfo := BitVec.ofNat 32 i, errCmd := 0x23#32 }))

/-- R136 (a): for two or more symbols no codeword is the start of another's. -/
def Obligations.CodesArePrefixFree : Prop :=
  ∀ (ft : List FtEntry) (nodes : List Node) (root : Nat) (ct : List Code),
    TreeOk ft nodes root → CodesOk ft nodes root ct → 2 ≤ ft.length →
    ∀ (i j : Nat) (c d : Code), ct[i]? = some c → ct[j]? = some d → i ≠ j → ¬ codeBits c <+: codeBits d

/-- R136 (b): for two or more symbols the code is complete: the sum of `2^(-len)` is 1, here scaled by `2^32`; and every
internal node has two children, so no bit leads out of the tree. -/
def Obligations.CodesAreComplete : Prop :=
  ∀ (ft : List FtEntry) (nodes : List Node) (root : Nat) (ct : List Code),
    TreeOk ft nodes root → CodesOk ft nodes root ct → 2 ≤ ft.length →
    (ct.map (fun c => 2 ^ (32 - c.len))).sum = 2 ^ 32 ∧
    (∀ k, ft.length ≤ k → k < nodes.length → ∀ b : Bool, ∃ l, descend nodes k [b] = some l ∧ l < k)

/-- R136 (c), second half: for two or more symbols the total cost `sum of count * len` is the sum of the frequencies of the
internal nodes; for one symbol it is its count. -/
def Obligations.CodeCostIsInternalFrequency : Prop :=
  ∀ (ft : List FtEntry) (nodes : List Node) (root : Nat) (ct : List Code),
    TreeOk ft nodes root → CodesOk ft nodes root ct →
    (2 ≤ ft.length → ((ft.zip ct).map (fun p => p.1.count.toNat * p.2.len)).sum =
      ((nodes.drop ft.length).map (fun n => n.freq.toNat)).sum) ∧
    (∀ e, ft = [e] → ((ft.zip ct).map (fun p => p.1.count.toNat * p.2.len)).sum = e.count.toNat)

/-- R136 (c), first half: for two or more symbols no prefix code costs less. `words` is any prefix code, one codeword per
table entry; the tree is a Huffman tree by R131 and R132 (`BtreeEffect`), whichever way. -/
def Obligations.CodesAreOptimal : Prop :=
  ∀ (ft : List FtEntry) (nodes : List Node) (root : Nat) (ct : List Code),
    TreeOk ft nodes root → (∀ k, ft.length ≤ k → k < nodes.length → MergedLeast nodes k) → CodesOk ft nodes root ct →
    2 ≤ ft.length → ∀ words : List (List Bool), words.length = ft.length →
    words.Pairwise (fun a b => ¬ a <+: b ∧ ¬ b <+: a) →
    ((ft.zip ct).map (fun p => p.1.count.toNat * p.2.len)).sum ≤
      ((ft.zip words).map (fun p => p.1.count.toNat * p.2.length)).sum

/-- The frame of the code generator (42_tree_and_codes.md R131, R135), for every next state: `FT`, the buffers and every
host register are unchanged, and `GCODE` leaves the tree alone. -/
def Obligations.CodeGeneratorFrame : Prop :=
  (∀ s t : State, exec .btree s = .next t →
    t = { s with treeValid := t.treeValid, codesValid := t.codesValid, root := t.root, nodes := t.nodes, ct := t.ct,
                 err := t.err, errCode := t.errCode, errInfo := t.errInfo, errCmd := t.errCmd }) ∧
  (∀ s t : State, exec .gcode s = .next t →
    t = { s with codesValid := t.codesValid, ct := t.ct,
                 err := t.err, errCode := t.errCode, errInfo := t.errInfo, errCmd := t.errCmd })

/-! ## The encoder, the decoder and the packer -/

/-- R150 with R152, `ENC`: not ready, then length; otherwise the codewords of the values are laid end to end, most
significant bit first, the last byte padded with zeros, and bytes from `BLEN` up are unchanged. -/
def Obligations.EncEffect : Prop :=
  ∀ s : State, s.err = false →
    (s.codesValid = false → exec .enc s = .next { s with
      err := true, errCode := .notReady, errInfo := 0#32, errCmd := 0x30#32 }) ∧
    (s.codesValid = true → Config.hdc1.maxValues < s.vlen.toNat → exec .enc s = .next { s with
      err := true, errCode := .len, errInfo := s.vlen, errCmd := 0x30#32 }) ∧
    (s.codesValid = true → ∀ vs words, ValuesAre s vs → vs.length ≤ Config.hdc1.maxValues →
      CodewordsOf s.ft s.ct vs words → words.flatten.length ≤ 8 * Config.hdc1.maxBytes →
      ∃ t, exec .enc s = .next t ∧ t = { s with bbuf := t.bbuf, blen := t.blen, bitcnt := t.bitcnt } ∧
        t.bitcnt.toNat = words.flatten.length ∧ t.blen.toNat = (words.flatten.length + 7) / 8 ∧
        (∀ p < words.flatten.length, streamBit t.bbuf p = words.flatten[p]?) ∧
        (∀ p, words.flatten.length ≤ p → p < 8 * t.blen.toNat → streamBit t.bbuf p = some false) ∧
        CellsKept t.blen.toNat s.bbuf t.bbuf)

/-- R150, the data errors of `ENC` at the first offending value: `E_NOCODE` for a value that is not in `FT`, `E_CAPACITY` for
a codeword that does not fit; `BLEN` and `BITCNT` become 0 and all of `BBUF` `UNSPEC`. -/
def Obligations.EncDataErrors : Prop :=
  ∀ (s : State) (vs : List Word) (k : Nat) (words : List (List Bool)) (v : Word),
    s.err = false → s.codesValid = true → ValuesAre s vs → vs.length ≤ Config.hdc1.maxValues → vs[k]? = some v →
    CodewordsOf s.ft s.ct (vs.take k) words → words.flatten.length ≤ 8 * Config.hdc1.maxBytes →
    ((∀ e ∈ s.ft, e.value ≠ v) →
      ∃ t, exec .enc s = .next t ∧ CellsUnspec Config.hdc1.maxBytes t.bbuf ∧
        t = { s with bbuf := t.bbuf, blen := 0#32, bitcnt := 0#32, err := true, errCode := .noCode,
                     errInfo := BitVec.ofNat 32 k, errCmd := 0x30#32 }) ∧
    (∀ w, codewordFor s.ft s.ct v = some w → 8 * Config.hdc1.maxBytes < words.flatten.length + w.length →
      ∃ t, exec .enc s = .next t ∧ CellsUnspec Config.hdc1.maxBytes t.bbuf ∧
        t = { s with bbuf := t.bbuf, blen := 0#32, bitcnt := 0#32, err := true, errCode := .capacity,
                     errInfo := BitVec.ofNat 32 k, errCmd := 0x30#32 })

/-- With the parameter values of 00_scope.md R5 an `ENC` of a full `VBUF` never overflows `BBUF` (R5, R150). -/
def Obligations.EncNeverOverflowsBbuf : Prop :=
  ∀ s t : State, s.Inv → s.err = false → exec .enc s = .next t → t.errCode ≠ .capacity

/-- R151 with R155, `DEC`: the three pre-checks in order; otherwise, over the tree of `FT`, a stream that is a row of
root-to-leaf paths gives the leaves' values in order, and under a one-leaf tree every 0 bit gives the leaf's value. Cells
from `VLEN` up are unchanged. -/
def Obligations.DecEffect : Prop :=
  ∀ s : State, s.err = false →
    (s.treeValid = false → exec .dec s = .next { s with
      err := true, errCode := .notReady, errInfo := 0#32, errCmd := 0x31#32 }) ∧
    (s.treeValid = true → Config.hdc1.maxBytes < s.blen.toNat → exec .dec s = .next { s with
      err := true, errCode := .len, errInfo := s.blen, errCmd := 0x31#32 }) ∧
    (s.treeValid = true → s.blen.toNat ≤ Config.hdc1.maxBytes → 8 * s.blen.toNat < s.bitcnt.toNat →
      exec .dec s = .next { s with err := true, errCode := .trunc, errInfo := s.bitcnt, errCmd := 0x31#32 }) ∧
    (s.treeValid = true → TreeOk s.ft s.nodes s.root.toNat → s.blen.toNat ≤ Config.hdc1.maxBytes →
      s.bitcnt.toNat ≤ 8 * s.blen.toNat →
      (2 ≤ s.ft.length → ∀ paths leaves, LeafPaths s.nodes s.root.toNat s.ft.length paths leaves →
        StreamIs s paths.flatten → leaves.length ≤ Config.hdc1.maxValues →
        ∃ t, exec .dec s = .next t ∧ t = { s with vbuf := t.vbuf, vlen := t.vlen } ∧
          t.vlen.toNat = leaves.length ∧ CellsKept leaves.length s.vbuf t.vbuf ∧
          (∀ m < leaves.length, Memory.read t.vbuf m = (s.ft[leaves.getD m 0]?).map FtEntry.value)) ∧
      (∀ e n, s.ft = [e] → StreamIs s (List.replicate n false) → n ≤ Config.hdc1.maxValues →
        ∃ t, exec .dec s = .next t ∧ t = { s with vbuf := t.vbuf, vlen := t.vlen } ∧
          t.vlen.toNat = n ∧ CellsKept n s.vbuf t.vbuf ∧
          (∀ m < n, Memory.read t.vbuf m = some e.value)))

/-- R151 with R155, the data errors of `DEC`: `E_WALK(BITCNT)` for a stream that ends inside a codeword, `E_WALK(p)` for a
1 bit under a one-leaf tree, `E_CAPACITY(p)` for the bit that completes the value that does not fit; `VLEN` becomes 0 and
all of `VBUF` `UNSPEC`. -/
def Obligations.DecDataErrors : Prop :=
  ∀ s : State, s.err = false → s.treeValid = true → TreeOk s.ft s.nodes s.root.toNat →
    s.blen.toNat ≤ Config.hdc1.maxBytes → s.bitcnt.toNat ≤ 8 * s.blen.toNat →
    let failsWith := fun (code : ErrCode) (info : Word) =>
      ∃ t, exec .dec s = .next t ∧ CellsUnspec Config.hdc1.maxValues t.vbuf ∧
        t = { s with vbuf := t.vbuf, vlen := 0#32, err := true, errCode := code, errInfo := info, errCmd := 0x31#32 }
    (2 ≤ s.ft.length → ∀ paths leaves, LeafPaths s.nodes s.root.toNat s.ft.length paths leaves →
      (∀ last k, leaves.length ≤ Config.hdc1.maxValues → last ≠ [] → descend s.nodes s.root.toNat last = some k →
        s.ft.length ≤ k → StreamIs s (paths.flatten ++ last) → failsWith .walk s.bitcnt) ∧
      (∀ rest, leaves.length = Config.hdc1.maxValues + 1 → StreamIs s (paths.flatten ++ rest) →
        failsWith .capacity (BitVec.ofNat 32 (paths.flatten.length - 1)))) ∧
    (∀ e n rest, s.ft = [e] →
      (n ≤ Config.hdc1.maxValues → StreamIs s (List.replicate n false ++ true :: rest) →
        failsWith .walk (BitVec.ofNat 32 n)) ∧
      (StreamIs s (List.replicate (Config.hdc1.maxValues + 1) false ++ rest) →
        failsWith .capacity (BitVec.ofNat 32 Config.hdc1.maxValues)))

/-- R153: `DEC` looks at no bit from `BITCNT` up: changing the padding or the surplus bytes of `BBUF` changes nothing in the
result. -/
def Obligations.DecIgnoresPadding : Prop :=
  ∀ (s t : State) (m : Memory Byte),
    (∀ p < s.bitcnt.toNat, streamBit m p = streamBit s.bbuf p) → exec .dec s = .next t →
    exec .dec { s with bbuf := m } = .next { t with bbuf := m }

/-- R154, the Huffman round trip: `FCNT`, `BTREE`, `GCODE`, `ENC` raise only if `GCODE` raises `E_CAPACITY`; otherwise `DEC`
next restores the values, and so does a `DEC` on any block whose tree was built by `BTREE` from an equal table and which
holds the same stream. For no values at all `BTREE` raises `E_EMPTY`. -/
def Obligations.HuffmanRoundTrip : Prop :=
  ∀ (s : State) (vs : List Word), s.err = false → ValuesAre s vs →
    (1 ≤ vs.length → vs.length ≤ Config.hdc1.maxValues → vs.dedup.length ≤ Config.hdc1.maxSyms →
      ∃ s1 s2 s3, exec .fcnt s = .next s1 ∧ s1.err = false ∧ exec .btree s1 = .next s2 ∧ s2.err = false ∧
        exec .gcode s2 = .next s3 ∧ (s3.err = true → s3.errCode = .capacity) ∧
        (s3.err = false →
          ∃ s4 s5, exec .enc s3 = .next s4 ∧ s4.err = false ∧ exec .dec s4 = .next s5 ∧ s5.err = false ∧
            ValuesAre s5 vs ∧
            (∀ u u' w : State, u.err = false → u.ft = s4.ft → exec .btree u = .next u' →
              w.err = false → w.treeValid = true → w.nodes = u'.nodes → w.root = u'.root →
              w.blen = s4.blen → w.bitcnt = s4.bitcnt →
              (∀ j < s4.blen.toNat, Memory.read w.bbuf j = Memory.read s4.bbuf j) →
              ∃ w', exec .dec w = .next w' ∧ w'.err = false ∧ ValuesAre w' vs))) ∧
    (vs = [] → ∃ s1 s2, exec .fcnt s = .next s1 ∧ exec .btree s1 = .next s2 ∧ s2.err = true ∧ s2.errCode = .empty)

/-- The frame of `ENC` and `DEC` (43_bitstream.md R150, R151), for every next state: `ENC` changes only `BBUF`, `BLEN`,
`BITCNT` and the error record, and without an error no byte from `BLEN` up; `DEC` changes only `VBUF`, `VLEN` and the error
record, and without an error no cell from `VLEN` up. -/
def Obligations.CodecFrame : Prop :=
  (∀ s t : State, exec .enc s = .next t →
    t = { s with bbuf := t.bbuf, blen := t.blen, bitcnt := t.bitcnt, err := t.err, errCode := t.errCode,
                 errInfo := t.errInfo, errCmd := t.errCmd } ∧
    (t.err = false → CellsKept t.blen.toNat s.bbuf t.bbuf) ∧ CellsKept Config.hdc1.maxBytes s.bbuf t.bbuf) ∧
  (∀ s t : State, exec .dec s = .next t →
    t = { s with vbuf := t.vbuf, vlen := t.vlen, err := t.err, errCode := t.errCode,
                 errInfo := t.errInfo, errCmd := t.errCmd } ∧
    (t.err = false → CellsKept t.vlen.toNat s.vbuf t.vbuf) ∧ CellsKept Config.hdc1.maxValues s.vbuf t.vbuf)

/-! ## The machine as a whole -/

/-- The invariant holds at reset (10_state.md R42). -/
def Obligations.InvAtReset : Prop := State.reset.Inv

/-- Every step keeps the invariants of R34, R36, R37 and R42, from every state that has them. -/
def Obligations.StepKeepsInv : Prop := ∀ s t : State, s.Inv → step s = .next t → t.Inv

/-- Every command completes (30_encoding.md R99, 70_reset_and_hazards.md R245, R248): from a state with the invariant in
which the cells a command may read have been written, every command answers a next state. -/
def Obligations.EveryCommandCompletes : Prop :=
  ∀ (s : State) (i : Instr), s.Inv → ValuesWritten s → StreamWritten s → ∃ t, exec i s = .next t

/-- The only faults are reads of `UNSPEC` cells by the commands that read them (70_reset_and_hazards.md R245), and no command
is refused: from a state with the invariant the tables are never broken. That such a read is a fault is the treatment that
93_implementation_defined.md U1 asks of a model (log entry 3). -/
def Obligations.FaultsOnlyOnUnspecReads : Prop :=
  ∀ (s : State) (i : Instr), s.Inv →
    (∀ f, exec i s = .fault f →
      (∃ k < s.vlen.toNat, f = .vbufUnspec k ∧ Memory.read s.vbuf k = none ∧ s.err = false ∧
        (i = .denc ∨ i = .ddec ∨ i = .fcnt ∨ i = .enc)) ∨
      (∃ j < bytesFor s.bitcnt.toNat, f = .bbufUnspec j ∧ Memory.read s.bbuf j = none ∧ s.err = false ∧ i = .dec)) ∧
    (∀ r, exec i s ≠ .refused r)

/-- No command touches the host's side: what the host has still to do, how many transactions it has performed and what it
was given (10_state.md R39, 30_encoding.md R101). -/
def Obligations.CommandsLeaveTheHostAlone : Prop :=
  ∀ (i : Instr) (s t : State), exec i s = .next t →
    t.pending = s.pending ∧ t.txnIndex = s.txnIndex ∧ t.readLog = s.readLog

/-- No command but `SRST` writes `FT_VAL` or `FT_CNT` (10_state.md R22, R30), and no command but `ENC` and `SRST` writes
`BBUF` (R33). -/
def Obligations.OperandRegistersAndBbufWriters : Prop :=
  ∀ (i : Instr) (s t : State), exec i s = .next t →
    (i ≠ .srst → t.ftVal = s.ftVal ∧ t.ftCnt = s.ftCnt) ∧
    (i ≠ .srst → i ≠ .enc → t.bbuf = s.bbuf) ∧
    (i ≠ .srst → i ≠ .denc → i ≠ .ddec → i ≠ .dec → t.vbuf = s.vbuf)

/-! ## Any parameters (00_scope.md R5) -/

/-- HDC-1 is the machine with the parameter values of 00_scope.md R5, and those values meet R5's constraints. -/
def Obligations.HdcOneIsAnInstance : Prop :=
  Config.hdc1.ok = true ∧ (∀ (i : Instr) (s : State), exec i s = execWith Config.hdc1 i s) ∧
  (∀ s : State, step s = stepWith Config.hdc1 s)

/-- `StepRunsTheDecodedCommand` for any parameters (R5, R23, R64, R101; the host's side is the model's own, log entry 1). -/
def Obligations.StepRunsTheDecodedCommandAnyParams : Prop :=
  ∀ (P : Config.Params) (s : State) (c : Word) (i : Instr) (rest : List HostEvent),
    s.pending = .write 0x10 c :: rest → decode c = .instr i →
    stepWith P s = execWith P i { s with pending := rest, txnIndex := s.txnIndex + 1 }

/-- The capacity registers hold the parameters (R5, 10_state.md R24), whatever values the constraints of R5 admit. -/
def Obligations.CapacityRegistersAnyParams : Prop :=
  ∀ (P : Config.Params) (free : Word) (s : State), P.ok = true →
    (memRead P free s 0x04).toNat = P.maxValues ∧ (memRead P free s 0x08).toNat = P.maxBytes ∧
    (memRead P free s 0x0C).toNat = P.maxSyms ∧ (memRead P free s 0x44).toNat = P.codeMax

/-- The five windows have the capacities' sizes (R5, 20_memory.md R62 to R65, R69, R74 to R76), for any parameters. Below the
capacity every word of an entry is read, and a write stores a `VBUF` cell or four `BBUF` bytes and nothing else. From the
capacity to the end of the window's megabyte every word reads 0 and a write is ignored. In the `FT`, `NODE` and `CT` windows
every write is ignored. -/
def Obligations.WindowsFollowTheCapacities : Prop :=
  ∀ (P : Config.Params) (free : Word) (s : State), P.ok = true →
    (∀ i < 2 ^ 18,
      memRead P free s (0x100000 + 4 * i) =
        (if i < P.maxValues then (Memory.read s.vbuf i).getD free else 0#32) ∧
      ∀ v rest, s.pending = .write (0x100000 + 4 * i) v :: rest →
        stepWith P s = .next (if i < P.maxValues
          then { takeEvent rest s with vbuf := Memory.write s.vbuf i v } else takeEvent rest s)) ∧
    (∀ j < 2 ^ 18,
      (∀ b < 4, (memRead P free s (0x200000 + 4 * j)).extractLsb' (8 * b) 8 =
        (if 4 * j < P.maxBytes then (Memory.read s.bbuf (4 * j + b)).getD (free.extractLsb' (8 * b) 8) else 0#8)) ∧
      ∀ v rest, s.pending = .write (0x200000 + 4 * j) v :: rest →
        (4 * j < P.maxBytes → ∃ t, stepWith P s = .next t ∧ t = { takeEvent rest s with bbuf := t.bbuf } ∧
          ∀ k, Memory.read t.bbuf k =
            if k / 4 = j then some (v.extractLsb' (8 * (k % 4)) 8) else Memory.read s.bbuf k) ∧
        (P.maxBytes ≤ 4 * j → stepWith P s = .next (takeEvent rest s))) ∧
    (∀ i < 2 ^ 17,
      memRead P free s (0x300000 + 8 * i) =
        (if i < P.maxSyms then ((s.ft[i]?).map FtEntry.value).getD 0#32 else 0#32) ∧
      memRead P free s (0x300004 + 8 * i) =
        (if i < P.maxSyms then ((s.ft[i]?).map FtEntry.count).getD 0#32 else 0#32)) ∧
    (∀ k < 2 ^ 16,
      (∀ f v, k < 2 * P.maxSyms - 1 → s.nodes[k]? = some (.leaf f v) →
        memRead P free s (0x400000 + 16 * k) = f ∧ memRead P free s (0x400004 + 16 * k) = v ∧
        memRead P free s (0x400008 + 16 * k) = 0xFFFFFFFF#32 ∧
        memRead P free s (0x40000C + 16 * k) = 0xFFFFFFFF#32) ∧
      (∀ f l r, k < 2 * P.maxSyms - 1 → s.nodes[k]? = some (.internal f l r) →
        memRead P free s (0x400000 + 16 * k) = f ∧ memRead P free s (0x400004 + 16 * k) = 0#32 ∧
        memRead P free s (0x400008 + 16 * k) = BitVec.ofNat 32 l ∧
        memRead P free s (0x40000C + 16 * k) = BitVec.ofNat 32 r) ∧
      ((s.nodes.length ≤ k ∨ 2 * P.maxSyms - 1 ≤ k) →
        ∀ w < 4, memRead P free s (0x400000 + 16 * k + 4 * w) = 0#32)) ∧
    (∀ i < 2 ^ 17,
      (∀ c, i < P.maxSyms → s.codesValid = true → i < s.ft.length → s.ct[i]? = some c →
        memRead P free s (0x500000 + 8 * i) = BitVec.ofNat 32 c.len ∧
        memRead P free s (0x500004 + 8 * i) = c.bits) ∧
      ((s.codesValid = false ∨ s.ft.length ≤ i ∨ P.maxSyms ≤ i) →
        memRead P free s (0x500000 + 8 * i) = 0#32 ∧ memRead P free s (0x500004 + 8 * i) = 0#32)) ∧
    (∀ a v rest, s.pending = .write a v :: rest → a % 4 = 0 → 0x300000 ≤ a → a < 0x600000 →
      stepWith P s = .next (takeEvent rest s))

/-- A run performs its transactions one at a time in list order (30_encoding.md R101), for any parameters: a run of a program
and then of another, from the state the first leaves, is the run of the two joined, stops included. -/
def Obligations.RunsCompose : Prop :=
  ∀ (P : Config.Params) (first second : List HostEvent) (s : State),
    runProgram P (first ++ second) s = andThen (runProgram P first s) (runProgram P second)

/-- `StepKeepsInv` for any parameters that meet R5's constraints: the invariants of R34, R36, R37 and R42, with those
parameters as the bounds, are kept by every step of a machine with those parameters. -/
def Obligations.StepKeepsInvAnyParams : Prop :=
  ∀ P : Config.Params, P.ok = true → ∀ s t : State, s.Inv P → stepWith P s = .next t → t.Inv P

/-- Every run of a host program keeps the invariant (R5, R42, R101), for any parameters that meet R5's constraints. -/
def Obligations.RunKeepsInvAnyParams : Prop :=
  ∀ P : Config.Params, P.ok = true → ∀ (prog : List HostEvent) (s t : State), s.Inv P → runProgram P prog s = .next t →
    t.Inv P

/-- `EveryCommandCompletes` for any parameters that meet R5's constraints. -/
def Obligations.EveryCommandCompletesAnyParams : Prop :=
  ∀ P : Config.Params, P.ok = true → ∀ (s : State) (i : Instr), s.Inv P → ValuesWritten s → StreamWritten s →
    ∃ t, execWith P i s = .next t

/-- Why `MAX_BYTES = CODE_MAX*MAX_VALUES/8` is enough (R5, R150), for any parameters: where `BBUF` holds `MAX_VALUES`
codewords of `CODE_MAX` bits, `ENC` never overflows it. -/
def Obligations.EncNeverOverflowsAnyParams : Prop :=
  ∀ P : Config.Params, P.ok = true → P.codeMax * P.maxValues ≤ 8 * P.maxBytes →
    ∀ s t : State, s.Inv P → s.err = false → execWith P .enc s = .next t → t.errCode ≠ .capacity
end

