-- ==== Sys2Proof/Laws/Memory.lean ====
section
/-! SUPPORT. The buffers: a read after a write, what a write leaves alone, and that every operation keeps the canonical form
and the capacity bound. -/

namespace Sys2Proof.Machine

variable {α : Type}

@[simp] theorem read_nil (k : Nat) : Memory.read ([] : Memory α) k = none := rfl

/-- A read after a write, at the written cell and at every other one. -/
theorem read_write (m : Memory α) (i : Nat) (v : α) (k : Nat) :
    Memory.read (Memory.write m i v) k = if k = i then some v else Memory.read m k := by
  induction m with
  | nil => simp [Memory.write, Memory.read, eq_comm]
  | cons c m ih =>
    simp only [Memory.write]
    split
    · by_cases hk : i = k <;> simp [Memory.read, hk, eq_comm]
    · split
      · rename_i h
        by_cases hk : i = k <;> simp [Memory.read, ← h, hk, eq_comm]
      · rename_i h
        by_cases hc : c.1 = k
        · have : ¬ k = i := by omega
          simp [Memory.read, hc, this]
        · simp [Memory.read, hc, ih]

/-- A read after writing consecutive cells. -/
theorem read_writeFrom (vs : List α) (m : Memory α) (i k : Nat) :
    Memory.read (Memory.writeFrom m i vs) k =
      if i ≤ k ∧ k < i + vs.length then vs[k - i]? else Memory.read m k := by
  induction vs generalizing m i with
  | nil => simp only [Memory.writeFrom, List.length_nil]; rw [if_neg (by omega)]
  | cons v vs ih =>
    simp only [Memory.writeFrom, ih, read_write, List.length_cons]
    by_cases hk : k = i
    · subst hk; simp
    · by_cases h : i + 1 ≤ k ∧ k < i + 1 + vs.length
      · rw [if_pos h, if_pos (by omega), show k - i = (k - (i + 1)) + 1 by omega, List.getElem?_cons_succ]
      · rw [if_neg h, if_neg hk, if_neg (by omega)]

/-- A read after cells `0 .. n-1` were made `UNSPEC`. -/
theorem read_forget (m : Memory α) (n k : Nat) :
    Memory.read (Memory.forget m n) k = if k < n then none else Memory.read m k := by
  induction m with
  | nil => simp [Memory.forget]
  | cons c m ih =>
    simp only [Memory.forget, List.filter_cons] at ih ⊢
    by_cases hc : n ≤ c.1
    · rw [if_pos (by simpa using hc)]
      simp only [Memory.read, ih]
      by_cases hk : c.1 = k
      · rw [if_pos hk, if_pos hk, if_neg (by omega)]
      · rw [if_neg hk, if_neg hk]
    · rw [if_neg (by simpa using hc), ih]
      by_cases hk : k < n
      · rw [if_pos hk, if_pos hk]
      · rw [if_neg hk, if_neg hk, Memory.read, if_neg (by omega)]

/-- The cells a command reads, one by one. -/
theorem cellsFrom_getElem? (m : Memory α) (n i j : Nat) :
    (Memory.cellsFrom m i n)[j]? = if j < n then some (Memory.read m (i + j)) else none := by
  induction n generalizing i j with
  | zero => simp [Memory.cellsFrom]
  | succ n ih =>
    cases j with
    | zero => simp [Memory.cellsFrom]
    | succ j => simp [Memory.cellsFrom, ih, show i + 1 + j = i + (j + 1) by omega]

@[simp] theorem cellsFrom_length (m : Memory α) (n i : Nat) : (Memory.cellsFrom m i n).length = n := by
  induction n generalizing i with
  | zero => rfl
  | succ n ih => simp [Memory.cellsFrom, ih]

/-- The cells a command reads are the values, when the current value sequence is `vs`. -/
theorem cellsFrom_eq_map (m : Memory α) (vs : List α) (h : ∀ k < vs.length, Memory.read m k = vs[k]?) :
    Memory.cellsFrom m 0 vs.length = vs.map some := by
  apply List.ext_getElem?
  intro j
  rw [cellsFrom_getElem?, List.getElem?_map]
  by_cases hj : j < vs.length
  · rw [if_pos hj, Nat.zero_add, h j hj, List.getElem?_eq_getElem hj]; rfl
  · rw [if_neg hj, List.getElem?_eq_none (by omega)]; rfl

/-! ## The canonical form -/

theorem wf_nil : Memory.wf ([] : Memory α) := List.Pairwise.nil

/-- What is listed after a write. -/
theorem mem_write {m : Memory α} {i : Nat} {v : α} {c : Nat × α} (h : c ∈ Memory.write m i v) :
    c = (i, v) ∨ c ∈ m := by
  induction m with
  | nil => simpa [Memory.write] using h
  | cons d m ih =>
    simp only [Memory.write] at h
    split at h
    · simpa using h
    · split at h
      · rcases List.mem_cons.mp h with h | h
        · exact .inl h
        · exact .inr (List.mem_cons_of_mem _ h)
      · rcases List.mem_cons.mp h with h | h
        · exact .inr (by simp [h])
        · exact (ih h).imp id (List.mem_cons_of_mem _)

/-- A write keeps the canonical form. -/
theorem write_wf {m : Memory α} (h : Memory.wf m) (i : Nat) (v : α) : Memory.wf (Memory.write m i v) := by
  induction m with
  | nil => simp [Memory.write, Memory.wf]
  | cons d m ih =>
    obtain ⟨hd, hm⟩ := List.pairwise_cons.mp h
    simp only [Memory.write]
    split
    · rename_i hi
      refine List.pairwise_cons.mpr ⟨fun b hb => ?_, h⟩
      rcases List.mem_cons.mp hb with rfl | hb
      · exact hi
      · exact Nat.lt_trans hi (hd b hb)
    · split
      · rename_i hi
        exact List.pairwise_cons.mpr ⟨fun b hb => by simpa [hi] using hd b hb, hm⟩
      · refine List.pairwise_cons.mpr ⟨fun b hb => ?_, ih hm⟩
        rcases mem_write hb with rfl | hb
        · show d.1 < i
          omega
        · exact hd b hb

/-- Writing consecutive cells keeps the canonical form. -/
theorem writeFrom_wf {m : Memory α} (h : Memory.wf m) (i : Nat) (vs : List α) :
    Memory.wf (Memory.writeFrom m i vs) := by
  induction vs generalizing m i with
  | nil => exact h
  | cons v vs ih => exact ih (write_wf h i v) (i + 1)

/-- Making cells `UNSPEC` keeps the canonical form. -/
theorem forget_wf {m : Memory α} (h : Memory.wf m) (n : Nat) : Memory.wf (Memory.forget m n) :=
  List.Pairwise.filter _ h

/-- What is listed after writing consecutive cells. -/
theorem mem_writeFrom {vs : List α} {m : Memory α} {i : Nat} {c : Nat × α} (h : c ∈ Memory.writeFrom m i vs) :
    (i ≤ c.1 ∧ c.1 < i + vs.length) ∨ c ∈ m := by
  induction vs generalizing m i with
  | nil => exact .inr h
  | cons v vs ih =>
    rcases ih h with h | h
    · left; simp only [List.length_cons]; omega
    · rcases mem_write h with rfl | h
      · left; simp
      · exact .inr h

/-- A write inside the capacity keeps a buffer well formed. -/
theorem write_ok {cap : Nat} {m : Memory α} (h : BufferOk cap m) {i : Nat} (hi : i < cap) (v : α) :
    BufferOk cap (Memory.write m i v) :=
  ⟨write_wf h.canonical i v, fun c hc => by
    rcases mem_write hc with rfl | hc
    · exact hi
    · exact h.inside c hc⟩

/-- Writing consecutive cells inside the capacity keeps a buffer well formed. -/
theorem writeFrom_ok {cap : Nat} {m : Memory α} (h : BufferOk cap m) {i : Nat} {vs : List α}
    (hi : i + vs.length ≤ cap) : BufferOk cap (Memory.writeFrom m i vs) :=
  ⟨writeFrom_wf h.canonical i vs, fun c hc => by
    rcases mem_writeFrom hc with hc | hc
    · omega
    · exact h.inside c hc⟩

/-- Making cells `UNSPEC` keeps a buffer well formed. -/
theorem forget_ok {cap : Nat} {m : Memory α} (h : BufferOk cap m) (n : Nat) : BufferOk cap (Memory.forget m n) :=
  ⟨forget_wf h.canonical n, fun c hc => h.inside c (List.mem_of_mem_filter hc)⟩

/-- After cells below the capacity were made `UNSPEC`, nothing is listed. -/
theorem forget_all {cap : Nat} {m : Memory α} (h : BufferOk cap m) : Memory.forget m cap = [] :=
  List.filter_eq_nil_iff.mpr fun c hc => by simpa using h.inside c hc

end Sys2Proof.Machine
end

