-- ==== Sys2Proof/Laws/State.lean ====
section
/-! SUPPORT. What each named update of the state does to each field, so that no proof unfolds a record update. -/

namespace Sys2Proof.Machine

/-! ## raiseError -/

@[simp] theorem raiseError_err (e : ErrCode) (info c : Word) (s : State) : (raiseError e info c s).err = true := rfl
@[simp] theorem raiseError_treeValid (e : ErrCode) (info c : Word) (s : State) : (raiseError e info c s).treeValid = s.treeValid := rfl
@[simp] theorem raiseError_codesValid (e : ErrCode) (info c : Word) (s : State) : (raiseError e info c s).codesValid = s.codesValid := rfl
@[simp] theorem raiseError_errCode (e : ErrCode) (info c : Word) (s : State) : (raiseError e info c s).errCode = e := rfl
@[simp] theorem raiseError_errInfo (e : ErrCode) (info c : Word) (s : State) : (raiseError e info c s).errInfo = info := rfl
@[simp] theorem raiseError_errCmd (e : ErrCode) (info c : Word) (s : State) : (raiseError e info c s).errCmd = c := rfl
@[simp] theorem raiseError_vlen (e : ErrCode) (info c : Word) (s : State) : (raiseError e info c s).vlen = s.vlen := rfl
@[simp] theorem raiseError_blen (e : ErrCode) (info c : Word) (s : State) : (raiseError e info c s).blen = s.blen := rfl
@[simp] theorem raiseError_bitcnt (e : ErrCode) (info c : Word) (s : State) : (raiseError e info c s).bitcnt = s.bitcnt := rfl
@[simp] theorem raiseError_root (e : ErrCode) (info c : Word) (s : State) : (raiseError e info c s).root = s.root := rfl
@[simp] theorem raiseError_ftVal (e : ErrCode) (info c : Word) (s : State) : (raiseError e info c s).ftVal = s.ftVal := rfl
@[simp] theorem raiseError_ftCnt (e : ErrCode) (info c : Word) (s : State) : (raiseError e info c s).ftCnt = s.ftCnt := rfl
@[simp] theorem raiseError_ft (e : ErrCode) (info c : Word) (s : State) : (raiseError e info c s).ft = s.ft := rfl
@[simp] theorem raiseError_nodes (e : ErrCode) (info c : Word) (s : State) : (raiseError e info c s).nodes = s.nodes := rfl
@[simp] theorem raiseError_ct (e : ErrCode) (info c : Word) (s : State) : (raiseError e info c s).ct = s.ct := rfl
@[simp] theorem raiseError_vbuf (e : ErrCode) (info c : Word) (s : State) : (raiseError e info c s).vbuf = s.vbuf := rfl
@[simp] theorem raiseError_bbuf (e : ErrCode) (info c : Word) (s : State) : (raiseError e info c s).bbuf = s.bbuf := rfl
@[simp] theorem raiseError_pending (e : ErrCode) (info c : Word) (s : State) : (raiseError e info c s).pending = s.pending := rfl
@[simp] theorem raiseError_txnIndex (e : ErrCode) (info c : Word) (s : State) : (raiseError e info c s).txnIndex = s.txnIndex := rfl
@[simp] theorem raiseError_readLog (e : ErrCode) (info c : Word) (s : State) : (raiseError e info c s).readLog = s.readLog := rfl

/-! ## clearError -/

@[simp] theorem clearError_err (s : State) : (clearError s).err = false := rfl
@[simp] theorem clearError_treeValid (s : State) : (clearError s).treeValid = s.treeValid := rfl
@[simp] theorem clearError_codesValid (s : State) : (clearError s).codesValid = s.codesValid := rfl
@[simp] theorem clearError_errCode (s : State) : (clearError s).errCode = .none := rfl
@[simp] theorem clearError_errInfo (s : State) : (clearError s).errInfo = 0#32 := rfl
@[simp] theorem clearError_errCmd (s : State) : (clearError s).errCmd = 0#32 := rfl
@[simp] theorem clearError_vlen (s : State) : (clearError s).vlen = s.vlen := rfl
@[simp] theorem clearError_blen (s : State) : (clearError s).blen = s.blen := rfl
@[simp] theorem clearError_bitcnt (s : State) : (clearError s).bitcnt = s.bitcnt := rfl
@[simp] theorem clearError_root (s : State) : (clearError s).root = s.root := rfl
@[simp] theorem clearError_ftVal (s : State) : (clearError s).ftVal = s.ftVal := rfl
@[simp] theorem clearError_ftCnt (s : State) : (clearError s).ftCnt = s.ftCnt := rfl
@[simp] theorem clearError_ft (s : State) : (clearError s).ft = s.ft := rfl
@[simp] theorem clearError_nodes (s : State) : (clearError s).nodes = s.nodes := rfl
@[simp] theorem clearError_ct (s : State) : (clearError s).ct = s.ct := rfl
@[simp] theorem clearError_vbuf (s : State) : (clearError s).vbuf = s.vbuf := rfl
@[simp] theorem clearError_bbuf (s : State) : (clearError s).bbuf = s.bbuf := rfl
@[simp] theorem clearError_pending (s : State) : (clearError s).pending = s.pending := rfl
@[simp] theorem clearError_txnIndex (s : State) : (clearError s).txnIndex = s.txnIndex := rfl
@[simp] theorem clearError_readLog (s : State) : (clearError s).readLog = s.readLog := rfl

/-! ## invalidateCodes -/

@[simp] theorem invalidateCodes_err (s : State) : (invalidateCodes s).err = s.err := rfl
@[simp] theorem invalidateCodes_treeValid (s : State) : (invalidateCodes s).treeValid = s.treeValid := rfl
@[simp] theorem invalidateCodes_codesValid (s : State) : (invalidateCodes s).codesValid = false := rfl
@[simp] theorem invalidateCodes_errCode (s : State) : (invalidateCodes s).errCode = s.errCode := rfl
@[simp] theorem invalidateCodes_errInfo (s : State) : (invalidateCodes s).errInfo = s.errInfo := rfl
@[simp] theorem invalidateCodes_errCmd (s : State) : (invalidateCodes s).errCmd = s.errCmd := rfl
@[simp] theorem invalidateCodes_vlen (s : State) : (invalidateCodes s).vlen = s.vlen := rfl
@[simp] theorem invalidateCodes_blen (s : State) : (invalidateCodes s).blen = s.blen := rfl
@[simp] theorem invalidateCodes_bitcnt (s : State) : (invalidateCodes s).bitcnt = s.bitcnt := rfl
@[simp] theorem invalidateCodes_root (s : State) : (invalidateCodes s).root = s.root := rfl
@[simp] theorem invalidateCodes_ftVal (s : State) : (invalidateCodes s).ftVal = s.ftVal := rfl
@[simp] theorem invalidateCodes_ftCnt (s : State) : (invalidateCodes s).ftCnt = s.ftCnt := rfl
@[simp] theorem invalidateCodes_ft (s : State) : (invalidateCodes s).ft = s.ft := rfl
@[simp] theorem invalidateCodes_nodes (s : State) : (invalidateCodes s).nodes = s.nodes := rfl
@[simp] theorem invalidateCodes_ct (s : State) : (invalidateCodes s).ct = [] := rfl
@[simp] theorem invalidateCodes_vbuf (s : State) : (invalidateCodes s).vbuf = s.vbuf := rfl
@[simp] theorem invalidateCodes_bbuf (s : State) : (invalidateCodes s).bbuf = s.bbuf := rfl
@[simp] theorem invalidateCodes_pending (s : State) : (invalidateCodes s).pending = s.pending := rfl
@[simp] theorem invalidateCodes_txnIndex (s : State) : (invalidateCodes s).txnIndex = s.txnIndex := rfl
@[simp] theorem invalidateCodes_readLog (s : State) : (invalidateCodes s).readLog = s.readLog := rfl

/-! ## invalidateTree -/

@[simp] theorem invalidateTree_err (s : State) : (invalidateTree s).err = s.err := rfl
@[simp] theorem invalidateTree_treeValid (s : State) : (invalidateTree s).treeValid = false := rfl
@[simp] theorem invalidateTree_codesValid (s : State) : (invalidateTree s).codesValid = false := rfl
@[simp] theorem invalidateTree_errCode (s : State) : (invalidateTree s).errCode = s.errCode := rfl
@[simp] theorem invalidateTree_errInfo (s : State) : (invalidateTree s).errInfo = s.errInfo := rfl
@[simp] theorem invalidateTree_errCmd (s : State) : (invalidateTree s).errCmd = s.errCmd := rfl
@[simp] theorem invalidateTree_vlen (s : State) : (invalidateTree s).vlen = s.vlen := rfl
@[simp] theorem invalidateTree_blen (s : State) : (invalidateTree s).blen = s.blen := rfl
@[simp] theorem invalidateTree_bitcnt (s : State) : (invalidateTree s).bitcnt = s.bitcnt := rfl
@[simp] theorem invalidateTree_root (s : State) : (invalidateTree s).root = 0#32 := rfl
@[simp] theorem invalidateTree_ftVal (s : State) : (invalidateTree s).ftVal = s.ftVal := rfl
@[simp] theorem invalidateTree_ftCnt (s : State) : (invalidateTree s).ftCnt = s.ftCnt := rfl
@[simp] theorem invalidateTree_ft (s : State) : (invalidateTree s).ft = s.ft := rfl
@[simp] theorem invalidateTree_nodes (s : State) : (invalidateTree s).nodes = [] := rfl
@[simp] theorem invalidateTree_ct (s : State) : (invalidateTree s).ct = [] := rfl
@[simp] theorem invalidateTree_vbuf (s : State) : (invalidateTree s).vbuf = s.vbuf := rfl
@[simp] theorem invalidateTree_bbuf (s : State) : (invalidateTree s).bbuf = s.bbuf := rfl
@[simp] theorem invalidateTree_pending (s : State) : (invalidateTree s).pending = s.pending := rfl
@[simp] theorem invalidateTree_txnIndex (s : State) : (invalidateTree s).txnIndex = s.txnIndex := rfl
@[simp] theorem invalidateTree_readLog (s : State) : (invalidateTree s).readLog = s.readLog := rfl

/-! ## clearV -/

@[simp] theorem clearV_err (s : State) : (clearV s).err = s.err := rfl
@[simp] theorem clearV_treeValid (s : State) : (clearV s).treeValid = s.treeValid := rfl
@[simp] theorem clearV_codesValid (s : State) : (clearV s).codesValid = s.codesValid := rfl
@[simp] theorem clearV_errCode (s : State) : (clearV s).errCode = s.errCode := rfl
@[simp] theorem clearV_errInfo (s : State) : (clearV s).errInfo = s.errInfo := rfl
@[simp] theorem clearV_errCmd (s : State) : (clearV s).errCmd = s.errCmd := rfl
@[simp] theorem clearV_vlen (s : State) : (clearV s).vlen = 0#32 := rfl
@[simp] theorem clearV_blen (s : State) : (clearV s).blen = s.blen := rfl
@[simp] theorem clearV_bitcnt (s : State) : (clearV s).bitcnt = s.bitcnt := rfl
@[simp] theorem clearV_root (s : State) : (clearV s).root = s.root := rfl
@[simp] theorem clearV_ftVal (s : State) : (clearV s).ftVal = s.ftVal := rfl
@[simp] theorem clearV_ftCnt (s : State) : (clearV s).ftCnt = s.ftCnt := rfl
@[simp] theorem clearV_ft (s : State) : (clearV s).ft = s.ft := rfl
@[simp] theorem clearV_nodes (s : State) : (clearV s).nodes = s.nodes := rfl
@[simp] theorem clearV_ct (s : State) : (clearV s).ct = s.ct := rfl
@[simp] theorem clearV_vbuf (s : State) : (clearV s).vbuf = s.vbuf := rfl
@[simp] theorem clearV_bbuf (s : State) : (clearV s).bbuf = s.bbuf := rfl
@[simp] theorem clearV_pending (s : State) : (clearV s).pending = s.pending := rfl
@[simp] theorem clearV_txnIndex (s : State) : (clearV s).txnIndex = s.txnIndex := rfl
@[simp] theorem clearV_readLog (s : State) : (clearV s).readLog = s.readLog := rfl

/-! ## clearB -/

@[simp] theorem clearB_err (s : State) : (clearB s).err = s.err := rfl
@[simp] theorem clearB_treeValid (s : State) : (clearB s).treeValid = s.treeValid := rfl
@[simp] theorem clearB_codesValid (s : State) : (clearB s).codesValid = s.codesValid := rfl
@[simp] theorem clearB_errCode (s : State) : (clearB s).errCode = s.errCode := rfl
@[simp] theorem clearB_errInfo (s : State) : (clearB s).errInfo = s.errInfo := rfl
@[simp] theorem clearB_errCmd (s : State) : (clearB s).errCmd = s.errCmd := rfl
@[simp] theorem clearB_vlen (s : State) : (clearB s).vlen = s.vlen := rfl
@[simp] theorem clearB_blen (s : State) : (clearB s).blen = 0#32 := rfl
@[simp] theorem clearB_bitcnt (s : State) : (clearB s).bitcnt = 0#32 := rfl
@[simp] theorem clearB_root (s : State) : (clearB s).root = s.root := rfl
@[simp] theorem clearB_ftVal (s : State) : (clearB s).ftVal = s.ftVal := rfl
@[simp] theorem clearB_ftCnt (s : State) : (clearB s).ftCnt = s.ftCnt := rfl
@[simp] theorem clearB_ft (s : State) : (clearB s).ft = s.ft := rfl
@[simp] theorem clearB_nodes (s : State) : (clearB s).nodes = s.nodes := rfl
@[simp] theorem clearB_ct (s : State) : (clearB s).ct = s.ct := rfl
@[simp] theorem clearB_vbuf (s : State) : (clearB s).vbuf = s.vbuf := rfl
@[simp] theorem clearB_bbuf (s : State) : (clearB s).bbuf = s.bbuf := rfl
@[simp] theorem clearB_pending (s : State) : (clearB s).pending = s.pending := rfl
@[simp] theorem clearB_txnIndex (s : State) : (clearB s).txnIndex = s.txnIndex := rfl
@[simp] theorem clearB_readLog (s : State) : (clearB s).readLog = s.readLog := rfl

/-! ## clearF -/

@[simp] theorem clearF_err (s : State) : (clearF s).err = s.err := rfl
@[simp] theorem clearF_treeValid (s : State) : (clearF s).treeValid = false := rfl
@[simp] theorem clearF_codesValid (s : State) : (clearF s).codesValid = false := rfl
@[simp] theorem clearF_errCode (s : State) : (clearF s).errCode = s.errCode := rfl
@[simp] theorem clearF_errInfo (s : State) : (clearF s).errInfo = s.errInfo := rfl
@[simp] theorem clearF_errCmd (s : State) : (clearF s).errCmd = s.errCmd := rfl
@[simp] theorem clearF_vlen (s : State) : (clearF s).vlen = s.vlen := rfl
@[simp] theorem clearF_blen (s : State) : (clearF s).blen = s.blen := rfl
@[simp] theorem clearF_bitcnt (s : State) : (clearF s).bitcnt = s.bitcnt := rfl
@[simp] theorem clearF_root (s : State) : (clearF s).root = 0#32 := rfl
@[simp] theorem clearF_ftVal (s : State) : (clearF s).ftVal = s.ftVal := rfl
@[simp] theorem clearF_ftCnt (s : State) : (clearF s).ftCnt = s.ftCnt := rfl
@[simp] theorem clearF_ft (s : State) : (clearF s).ft = [] := rfl
@[simp] theorem clearF_nodes (s : State) : (clearF s).nodes = [] := rfl
@[simp] theorem clearF_ct (s : State) : (clearF s).ct = [] := rfl
@[simp] theorem clearF_vbuf (s : State) : (clearF s).vbuf = s.vbuf := rfl
@[simp] theorem clearF_bbuf (s : State) : (clearF s).bbuf = s.bbuf := rfl
@[simp] theorem clearF_pending (s : State) : (clearF s).pending = s.pending := rfl
@[simp] theorem clearF_txnIndex (s : State) : (clearF s).txnIndex = s.txnIndex := rfl
@[simp] theorem clearF_readLog (s : State) : (clearF s).readLog = s.readLog := rfl

/-! ## storeDeltas -/

@[simp] theorem storeDeltas_err (out : List Word) (s : State) : (storeDeltas out s).err = s.err := rfl
@[simp] theorem storeDeltas_treeValid (out : List Word) (s : State) : (storeDeltas out s).treeValid = s.treeValid := rfl
@[simp] theorem storeDeltas_codesValid (out : List Word) (s : State) : (storeDeltas out s).codesValid = s.codesValid := rfl
@[simp] theorem storeDeltas_errCode (out : List Word) (s : State) : (storeDeltas out s).errCode = s.errCode := rfl
@[simp] theorem storeDeltas_errInfo (out : List Word) (s : State) : (storeDeltas out s).errInfo = s.errInfo := rfl
@[simp] theorem storeDeltas_errCmd (out : List Word) (s : State) : (storeDeltas out s).errCmd = s.errCmd := rfl
@[simp] theorem storeDeltas_vlen (out : List Word) (s : State) : (storeDeltas out s).vlen = s.vlen := rfl
@[simp] theorem storeDeltas_blen (out : List Word) (s : State) : (storeDeltas out s).blen = s.blen := rfl
@[simp] theorem storeDeltas_bitcnt (out : List Word) (s : State) : (storeDeltas out s).bitcnt = s.bitcnt := rfl
@[simp] theorem storeDeltas_root (out : List Word) (s : State) : (storeDeltas out s).root = s.root := rfl
@[simp] theorem storeDeltas_ftVal (out : List Word) (s : State) : (storeDeltas out s).ftVal = s.ftVal := rfl
@[simp] theorem storeDeltas_ftCnt (out : List Word) (s : State) : (storeDeltas out s).ftCnt = s.ftCnt := rfl
@[simp] theorem storeDeltas_ft (out : List Word) (s : State) : (storeDeltas out s).ft = s.ft := rfl
@[simp] theorem storeDeltas_nodes (out : List Word) (s : State) : (storeDeltas out s).nodes = s.nodes := rfl
@[simp] theorem storeDeltas_ct (out : List Word) (s : State) : (storeDeltas out s).ct = s.ct := rfl
@[simp] theorem storeDeltas_vbuf (out : List Word) (s : State) : (storeDeltas out s).vbuf = Memory.writeFrom s.vbuf 0 out := rfl
@[simp] theorem storeDeltas_bbuf (out : List Word) (s : State) : (storeDeltas out s).bbuf = s.bbuf := rfl
@[simp] theorem storeDeltas_pending (out : List Word) (s : State) : (storeDeltas out s).pending = s.pending := rfl
@[simp] theorem storeDeltas_txnIndex (out : List Word) (s : State) : (storeDeltas out s).txnIndex = s.txnIndex := rfl
@[simp] theorem storeDeltas_readLog (out : List Word) (s : State) : (storeDeltas out s).readLog = s.readLog := rfl

/-! ## spoilDeltas -/

@[simp] theorem spoilDeltas_err (s : State) : (spoilDeltas s).err = s.err := rfl
@[simp] theorem spoilDeltas_treeValid (s : State) : (spoilDeltas s).treeValid = s.treeValid := rfl
@[simp] theorem spoilDeltas_codesValid (s : State) : (spoilDeltas s).codesValid = s.codesValid := rfl
@[simp] theorem spoilDeltas_errCode (s : State) : (spoilDeltas s).errCode = s.errCode := rfl
@[simp] theorem spoilDeltas_errInfo (s : State) : (spoilDeltas s).errInfo = s.errInfo := rfl
@[simp] theorem spoilDeltas_errCmd (s : State) : (spoilDeltas s).errCmd = s.errCmd := rfl
@[simp] theorem spoilDeltas_vlen (s : State) : (spoilDeltas s).vlen = 0#32 := rfl
@[simp] theorem spoilDeltas_blen (s : State) : (spoilDeltas s).blen = s.blen := rfl
@[simp] theorem spoilDeltas_bitcnt (s : State) : (spoilDeltas s).bitcnt = s.bitcnt := rfl
@[simp] theorem spoilDeltas_root (s : State) : (spoilDeltas s).root = s.root := rfl
@[simp] theorem spoilDeltas_ftVal (s : State) : (spoilDeltas s).ftVal = s.ftVal := rfl
@[simp] theorem spoilDeltas_ftCnt (s : State) : (spoilDeltas s).ftCnt = s.ftCnt := rfl
@[simp] theorem spoilDeltas_ft (s : State) : (spoilDeltas s).ft = s.ft := rfl
@[simp] theorem spoilDeltas_nodes (s : State) : (spoilDeltas s).nodes = s.nodes := rfl
@[simp] theorem spoilDeltas_ct (s : State) : (spoilDeltas s).ct = s.ct := rfl
@[simp] theorem spoilDeltas_vbuf (s : State) : (spoilDeltas s).vbuf = Memory.forget s.vbuf s.vlen.toNat := rfl
@[simp] theorem spoilDeltas_bbuf (s : State) : (spoilDeltas s).bbuf = s.bbuf := rfl
@[simp] theorem spoilDeltas_pending (s : State) : (spoilDeltas s).pending = s.pending := rfl
@[simp] theorem spoilDeltas_txnIndex (s : State) : (spoilDeltas s).txnIndex = s.txnIndex := rfl
@[simp] theorem spoilDeltas_readLog (s : State) : (spoilDeltas s).readLog = s.readLog := rfl

/-! ## storeTable -/

@[simp] theorem storeTable_err (ft : List FtEntry) (s : State) : (storeTable ft s).err = s.err := rfl
@[simp] theorem storeTable_treeValid (ft : List FtEntry) (s : State) : (storeTable ft s).treeValid = false := rfl
@[simp] theorem storeTable_codesValid (ft : List FtEntry) (s : State) : (storeTable ft s).codesValid = false := rfl
@[simp] theorem storeTable_errCode (ft : List FtEntry) (s : State) : (storeTable ft s).errCode = s.errCode := rfl
@[simp] theorem storeTable_errInfo (ft : List FtEntry) (s : State) : (storeTable ft s).errInfo = s.errInfo := rfl
@[simp] theorem storeTable_errCmd (ft : List FtEntry) (s : State) : (storeTable ft s).errCmd = s.errCmd := rfl
@[simp] theorem storeTable_vlen (ft : List FtEntry) (s : State) : (storeTable ft s).vlen = s.vlen := rfl
@[simp] theorem storeTable_blen (ft : List FtEntry) (s : State) : (storeTable ft s).blen = s.blen := rfl
@[simp] theorem storeTable_bitcnt (ft : List FtEntry) (s : State) : (storeTable ft s).bitcnt = s.bitcnt := rfl
@[simp] theorem storeTable_root (ft : List FtEntry) (s : State) : (storeTable ft s).root = 0#32 := rfl
@[simp] theorem storeTable_ftVal (ft : List FtEntry) (s : State) : (storeTable ft s).ftVal = s.ftVal := rfl
@[simp] theorem storeTable_ftCnt (ft : List FtEntry) (s : State) : (storeTable ft s).ftCnt = s.ftCnt := rfl
@[simp] theorem storeTable_ft (ft : List FtEntry) (s : State) : (storeTable ft s).ft = ft := rfl
@[simp] theorem storeTable_nodes (ft : List FtEntry) (s : State) : (storeTable ft s).nodes = [] := rfl
@[simp] theorem storeTable_ct (ft : List FtEntry) (s : State) : (storeTable ft s).ct = [] := rfl
@[simp] theorem storeTable_vbuf (ft : List FtEntry) (s : State) : (storeTable ft s).vbuf = s.vbuf := rfl
@[simp] theorem storeTable_bbuf (ft : List FtEntry) (s : State) : (storeTable ft s).bbuf = s.bbuf := rfl
@[simp] theorem storeTable_pending (ft : List FtEntry) (s : State) : (storeTable ft s).pending = s.pending := rfl
@[simp] theorem storeTable_txnIndex (ft : List FtEntry) (s : State) : (storeTable ft s).txnIndex = s.txnIndex := rfl
@[simp] theorem storeTable_readLog (ft : List FtEntry) (s : State) : (storeTable ft s).readLog = s.readLog := rfl

/-! ## storeTree -/

@[simp] theorem storeTree_err (t : List Node × Word) (s : State) : (storeTree t s).err = s.err := rfl
@[simp] theorem storeTree_treeValid (t : List Node × Word) (s : State) : (storeTree t s).treeValid = true := rfl
@[simp] theorem storeTree_codesValid (t : List Node × Word) (s : State) : (storeTree t s).codesValid = false := rfl
@[simp] theorem storeTree_errCode (t : List Node × Word) (s : State) : (storeTree t s).errCode = s.errCode := rfl
@[simp] theorem storeTree_errInfo (t : List Node × Word) (s : State) : (storeTree t s).errInfo = s.errInfo := rfl
@[simp] theorem storeTree_errCmd (t : List Node × Word) (s : State) : (storeTree t s).errCmd = s.errCmd := rfl
@[simp] theorem storeTree_vlen (t : List Node × Word) (s : State) : (storeTree t s).vlen = s.vlen := rfl
@[simp] theorem storeTree_blen (t : List Node × Word) (s : State) : (storeTree t s).blen = s.blen := rfl
@[simp] theorem storeTree_bitcnt (t : List Node × Word) (s : State) : (storeTree t s).bitcnt = s.bitcnt := rfl
@[simp] theorem storeTree_root (t : List Node × Word) (s : State) : (storeTree t s).root = t.2 := rfl
@[simp] theorem storeTree_ftVal (t : List Node × Word) (s : State) : (storeTree t s).ftVal = s.ftVal := rfl
@[simp] theorem storeTree_ftCnt (t : List Node × Word) (s : State) : (storeTree t s).ftCnt = s.ftCnt := rfl
@[simp] theorem storeTree_ft (t : List Node × Word) (s : State) : (storeTree t s).ft = s.ft := rfl
@[simp] theorem storeTree_nodes (t : List Node × Word) (s : State) : (storeTree t s).nodes = t.1 := rfl
@[simp] theorem storeTree_ct (t : List Node × Word) (s : State) : (storeTree t s).ct = [] := rfl
@[simp] theorem storeTree_vbuf (t : List Node × Word) (s : State) : (storeTree t s).vbuf = s.vbuf := rfl
@[simp] theorem storeTree_bbuf (t : List Node × Word) (s : State) : (storeTree t s).bbuf = s.bbuf := rfl
@[simp] theorem storeTree_pending (t : List Node × Word) (s : State) : (storeTree t s).pending = s.pending := rfl
@[simp] theorem storeTree_txnIndex (t : List Node × Word) (s : State) : (storeTree t s).txnIndex = s.txnIndex := rfl
@[simp] theorem storeTree_readLog (t : List Node × Word) (s : State) : (storeTree t s).readLog = s.readLog := rfl

/-! ## storeCodes -/

@[simp] theorem storeCodes_err (ct : List Code) (s : State) : (storeCodes ct s).err = s.err := rfl
@[simp] theorem storeCodes_treeValid (ct : List Code) (s : State) : (storeCodes ct s).treeValid = s.treeValid := rfl
@[simp] theorem storeCodes_codesValid (ct : List Code) (s : State) : (storeCodes ct s).codesValid = true := rfl
@[simp] theorem storeCodes_errCode (ct : List Code) (s : State) : (storeCodes ct s).errCode = s.errCode := rfl
@[simp] theorem storeCodes_errInfo (ct : List Code) (s : State) : (storeCodes ct s).errInfo = s.errInfo := rfl
@[simp] theorem storeCodes_errCmd (ct : List Code) (s : State) : (storeCodes ct s).errCmd = s.errCmd := rfl
@[simp] theorem storeCodes_vlen (ct : List Code) (s : State) : (storeCodes ct s).vlen = s.vlen := rfl
@[simp] theorem storeCodes_blen (ct : List Code) (s : State) : (storeCodes ct s).blen = s.blen := rfl
@[simp] theorem storeCodes_bitcnt (ct : List Code) (s : State) : (storeCodes ct s).bitcnt = s.bitcnt := rfl
@[simp] theorem storeCodes_root (ct : List Code) (s : State) : (storeCodes ct s).root = s.root := rfl
@[simp] theorem storeCodes_ftVal (ct : List Code) (s : State) : (storeCodes ct s).ftVal = s.ftVal := rfl
@[simp] theorem storeCodes_ftCnt (ct : List Code) (s : State) : (storeCodes ct s).ftCnt = s.ftCnt := rfl
@[simp] theorem storeCodes_ft (ct : List Code) (s : State) : (storeCodes ct s).ft = s.ft := rfl
@[simp] theorem storeCodes_nodes (ct : List Code) (s : State) : (storeCodes ct s).nodes = s.nodes := rfl
@[simp] theorem storeCodes_ct (ct : List Code) (s : State) : (storeCodes ct s).ct = ct := rfl
@[simp] theorem storeCodes_vbuf (ct : List Code) (s : State) : (storeCodes ct s).vbuf = s.vbuf := rfl
@[simp] theorem storeCodes_bbuf (ct : List Code) (s : State) : (storeCodes ct s).bbuf = s.bbuf := rfl
@[simp] theorem storeCodes_pending (ct : List Code) (s : State) : (storeCodes ct s).pending = s.pending := rfl
@[simp] theorem storeCodes_txnIndex (ct : List Code) (s : State) : (storeCodes ct s).txnIndex = s.txnIndex := rfl
@[simp] theorem storeCodes_readLog (ct : List Code) (s : State) : (storeCodes ct s).readLog = s.readLog := rfl

/-! ## storeStream -/

@[simp] theorem storeStream_err (bs : List Bool) (s : State) : (storeStream bs s).err = s.err := rfl
@[simp] theorem storeStream_treeValid (bs : List Bool) (s : State) : (storeStream bs s).treeValid = s.treeValid := rfl
@[simp] theorem storeStream_codesValid (bs : List Bool) (s : State) : (storeStream bs s).codesValid = s.codesValid := rfl
@[simp] theorem storeStream_errCode (bs : List Bool) (s : State) : (storeStream bs s).errCode = s.errCode := rfl
@[simp] theorem storeStream_errInfo (bs : List Bool) (s : State) : (storeStream bs s).errInfo = s.errInfo := rfl
@[simp] theorem storeStream_errCmd (bs : List Bool) (s : State) : (storeStream bs s).errCmd = s.errCmd := rfl
@[simp] theorem storeStream_vlen (bs : List Bool) (s : State) : (storeStream bs s).vlen = s.vlen := rfl
@[simp] theorem storeStream_blen (bs : List Bool) (s : State) : (storeStream bs s).blen = BitVec.ofNat 32 (bytesFor bs.length) := rfl
@[simp] theorem storeStream_bitcnt (bs : List Bool) (s : State) : (storeStream bs s).bitcnt = BitVec.ofNat 32 bs.length := rfl
@[simp] theorem storeStream_root (bs : List Bool) (s : State) : (storeStream bs s).root = s.root := rfl
@[simp] theorem storeStream_ftVal (bs : List Bool) (s : State) : (storeStream bs s).ftVal = s.ftVal := rfl
@[simp] theorem storeStream_ftCnt (bs : List Bool) (s : State) : (storeStream bs s).ftCnt = s.ftCnt := rfl
@[simp] theorem storeStream_ft (bs : List Bool) (s : State) : (storeStream bs s).ft = s.ft := rfl
@[simp] theorem storeStream_nodes (bs : List Bool) (s : State) : (storeStream bs s).nodes = s.nodes := rfl
@[simp] theorem storeStream_ct (bs : List Bool) (s : State) : (storeStream bs s).ct = s.ct := rfl
@[simp] theorem storeStream_vbuf (bs : List Bool) (s : State) : (storeStream bs s).vbuf = s.vbuf := rfl
@[simp] theorem storeStream_bbuf (bs : List Bool) (s : State) : (storeStream bs s).bbuf = Memory.writeFrom s.bbuf 0 (packBytes (bytesFor bs.length) bs) := rfl
@[simp] theorem storeStream_pending (bs : List Bool) (s : State) : (storeStream bs s).pending = s.pending := rfl
@[simp] theorem storeStream_txnIndex (bs : List Bool) (s : State) : (storeStream bs s).txnIndex = s.txnIndex := rfl
@[simp] theorem storeStream_readLog (bs : List Bool) (s : State) : (storeStream bs s).readLog = s.readLog := rfl

/-! ## spoilStream -/

@[simp] theorem spoilStream_err (n : Nat) (s : State) : (spoilStream n s).err = s.err := rfl
@[simp] theorem spoilStream_treeValid (n : Nat) (s : State) : (spoilStream n s).treeValid = s.treeValid := rfl
@[simp] theorem spoilStream_codesValid (n : Nat) (s : State) : (spoilStream n s).codesValid = s.codesValid := rfl
@[simp] theorem spoilStream_errCode (n : Nat) (s : State) : (spoilStream n s).errCode = s.errCode := rfl
@[simp] theorem spoilStream_errInfo (n : Nat) (s : State) : (spoilStream n s).errInfo = s.errInfo := rfl
@[simp] theorem spoilStream_errCmd (n : Nat) (s : State) : (spoilStream n s).errCmd = s.errCmd := rfl
@[simp] theorem spoilStream_vlen (n : Nat) (s : State) : (spoilStream n s).vlen = s.vlen := rfl
@[simp] theorem spoilStream_blen (n : Nat) (s : State) : (spoilStream n s).blen = 0#32 := rfl
@[simp] theorem spoilStream_bitcnt (n : Nat) (s : State) : (spoilStream n s).bitcnt = 0#32 := rfl
@[simp] theorem spoilStream_root (n : Nat) (s : State) : (spoilStream n s).root = s.root := rfl
@[simp] theorem spoilStream_ftVal (n : Nat) (s : State) : (spoilStream n s).ftVal = s.ftVal := rfl
@[simp] theorem spoilStream_ftCnt (n : Nat) (s : State) : (spoilStream n s).ftCnt = s.ftCnt := rfl
@[simp] theorem spoilStream_ft (n : Nat) (s : State) : (spoilStream n s).ft = s.ft := rfl
@[simp] theorem spoilStream_nodes (n : Nat) (s : State) : (spoilStream n s).nodes = s.nodes := rfl
@[simp] theorem spoilStream_ct (n : Nat) (s : State) : (spoilStream n s).ct = s.ct := rfl
@[simp] theorem spoilStream_vbuf (n : Nat) (s : State) : (spoilStream n s).vbuf = s.vbuf := rfl
@[simp] theorem spoilStream_bbuf (n : Nat) (s : State) : (spoilStream n s).bbuf = Memory.forget s.bbuf n := rfl
@[simp] theorem spoilStream_pending (n : Nat) (s : State) : (spoilStream n s).pending = s.pending := rfl
@[simp] theorem spoilStream_txnIndex (n : Nat) (s : State) : (spoilStream n s).txnIndex = s.txnIndex := rfl
@[simp] theorem spoilStream_readLog (n : Nat) (s : State) : (spoilStream n s).readLog = s.readLog := rfl

/-! ## storeDecoded -/

@[simp] theorem storeDecoded_err (out : List Word) (s : State) : (storeDecoded out s).err = s.err := rfl
@[simp] theorem storeDecoded_treeValid (out : List Word) (s : State) : (storeDecoded out s).treeValid = s.treeValid := rfl
@[simp] theorem storeDecoded_codesValid (out : List Word) (s : State) : (storeDecoded out s).codesValid = s.codesValid := rfl
@[simp] theorem storeDecoded_errCode (out : List Word) (s : State) : (storeDecoded out s).errCode = s.errCode := rfl
@[simp] theorem storeDecoded_errInfo (out : List Word) (s : State) : (storeDecoded out s).errInfo = s.errInfo := rfl
@[simp] theorem storeDecoded_errCmd (out : List Word) (s : State) : (storeDecoded out s).errCmd = s.errCmd := rfl
@[simp] theorem storeDecoded_vlen (out : List Word) (s : State) : (storeDecoded out s).vlen = BitVec.ofNat 32 out.length := rfl
@[simp] theorem storeDecoded_blen (out : List Word) (s : State) : (storeDecoded out s).blen = s.blen := rfl
@[simp] theorem storeDecoded_bitcnt (out : List Word) (s : State) : (storeDecoded out s).bitcnt = s.bitcnt := rfl
@[simp] theorem storeDecoded_root (out : List Word) (s : State) : (storeDecoded out s).root = s.root := rfl
@[simp] theorem storeDecoded_ftVal (out : List Word) (s : State) : (storeDecoded out s).ftVal = s.ftVal := rfl
@[simp] theorem storeDecoded_ftCnt (out : List Word) (s : State) : (storeDecoded out s).ftCnt = s.ftCnt := rfl
@[simp] theorem storeDecoded_ft (out : List Word) (s : State) : (storeDecoded out s).ft = s.ft := rfl
@[simp] theorem storeDecoded_nodes (out : List Word) (s : State) : (storeDecoded out s).nodes = s.nodes := rfl
@[simp] theorem storeDecoded_ct (out : List Word) (s : State) : (storeDecoded out s).ct = s.ct := rfl
@[simp] theorem storeDecoded_vbuf (out : List Word) (s : State) : (storeDecoded out s).vbuf = Memory.writeFrom s.vbuf 0 out := rfl
@[simp] theorem storeDecoded_bbuf (out : List Word) (s : State) : (storeDecoded out s).bbuf = s.bbuf := rfl
@[simp] theorem storeDecoded_pending (out : List Word) (s : State) : (storeDecoded out s).pending = s.pending := rfl
@[simp] theorem storeDecoded_txnIndex (out : List Word) (s : State) : (storeDecoded out s).txnIndex = s.txnIndex := rfl
@[simp] theorem storeDecoded_readLog (out : List Word) (s : State) : (storeDecoded out s).readLog = s.readLog := rfl

/-! ## spoilDecoded -/

@[simp] theorem spoilDecoded_err (n : Nat) (s : State) : (spoilDecoded n s).err = s.err := rfl
@[simp] theorem spoilDecoded_treeValid (n : Nat) (s : State) : (spoilDecoded n s).treeValid = s.treeValid := rfl
@[simp] theorem spoilDecoded_codesValid (n : Nat) (s : State) : (spoilDecoded n s).codesValid = s.codesValid := rfl
@[simp] theorem spoilDecoded_errCode (n : Nat) (s : State) : (spoilDecoded n s).errCode = s.errCode := rfl
@[simp] theorem spoilDecoded_errInfo (n : Nat) (s : State) : (spoilDecoded n s).errInfo = s.errInfo := rfl
@[simp] theorem spoilDecoded_errCmd (n : Nat) (s : State) : (spoilDecoded n s).errCmd = s.errCmd := rfl
@[simp] theorem spoilDecoded_vlen (n : Nat) (s : State) : (spoilDecoded n s).vlen = 0#32 := rfl
@[simp] theorem spoilDecoded_blen (n : Nat) (s : State) : (spoilDecoded n s).blen = s.blen := rfl
@[simp] theorem spoilDecoded_bitcnt (n : Nat) (s : State) : (spoilDecoded n s).bitcnt = s.bitcnt := rfl
@[simp] theorem spoilDecoded_root (n : Nat) (s : State) : (spoilDecoded n s).root = s.root := rfl
@[simp] theorem spoilDecoded_ftVal (n : Nat) (s : State) : (spoilDecoded n s).ftVal = s.ftVal := rfl
@[simp] theorem spoilDecoded_ftCnt (n : Nat) (s : State) : (spoilDecoded n s).ftCnt = s.ftCnt := rfl
@[simp] theorem spoilDecoded_ft (n : Nat) (s : State) : (spoilDecoded n s).ft = s.ft := rfl
@[simp] theorem spoilDecoded_nodes (n : Nat) (s : State) : (spoilDecoded n s).nodes = s.nodes := rfl
@[simp] theorem spoilDecoded_ct (n : Nat) (s : State) : (spoilDecoded n s).ct = s.ct := rfl
@[simp] theorem spoilDecoded_vbuf (n : Nat) (s : State) : (spoilDecoded n s).vbuf = Memory.forget s.vbuf n := rfl
@[simp] theorem spoilDecoded_bbuf (n : Nat) (s : State) : (spoilDecoded n s).bbuf = s.bbuf := rfl
@[simp] theorem spoilDecoded_pending (n : Nat) (s : State) : (spoilDecoded n s).pending = s.pending := rfl
@[simp] theorem spoilDecoded_txnIndex (n : Nat) (s : State) : (spoilDecoded n s).txnIndex = s.txnIndex := rfl
@[simp] theorem spoilDecoded_readLog (n : Nat) (s : State) : (spoilDecoded n s).readLog = s.readLog := rfl

/-! ## takeEvent -/

@[simp] theorem takeEvent_err (rest : List HostEvent) (s : State) : (takeEvent rest s).err = s.err := rfl
@[simp] theorem takeEvent_treeValid (rest : List HostEvent) (s : State) : (takeEvent rest s).treeValid = s.treeValid := rfl
@[simp] theorem takeEvent_codesValid (rest : List HostEvent) (s : State) : (takeEvent rest s).codesValid = s.codesValid := rfl
@[simp] theorem takeEvent_errCode (rest : List HostEvent) (s : State) : (takeEvent rest s).errCode = s.errCode := rfl
@[simp] theorem takeEvent_errInfo (rest : List HostEvent) (s : State) : (takeEvent rest s).errInfo = s.errInfo := rfl
@[simp] theorem takeEvent_errCmd (rest : List HostEvent) (s : State) : (takeEvent rest s).errCmd = s.errCmd := rfl
@[simp] theorem takeEvent_vlen (rest : List HostEvent) (s : State) : (takeEvent rest s).vlen = s.vlen := rfl
@[simp] theorem takeEvent_blen (rest : List HostEvent) (s : State) : (takeEvent rest s).blen = s.blen := rfl
@[simp] theorem takeEvent_bitcnt (rest : List HostEvent) (s : State) : (takeEvent rest s).bitcnt = s.bitcnt := rfl
@[simp] theorem takeEvent_root (rest : List HostEvent) (s : State) : (takeEvent rest s).root = s.root := rfl
@[simp] theorem takeEvent_ftVal (rest : List HostEvent) (s : State) : (takeEvent rest s).ftVal = s.ftVal := rfl
@[simp] theorem takeEvent_ftCnt (rest : List HostEvent) (s : State) : (takeEvent rest s).ftCnt = s.ftCnt := rfl
@[simp] theorem takeEvent_ft (rest : List HostEvent) (s : State) : (takeEvent rest s).ft = s.ft := rfl
@[simp] theorem takeEvent_nodes (rest : List HostEvent) (s : State) : (takeEvent rest s).nodes = s.nodes := rfl
@[simp] theorem takeEvent_ct (rest : List HostEvent) (s : State) : (takeEvent rest s).ct = s.ct := rfl
@[simp] theorem takeEvent_vbuf (rest : List HostEvent) (s : State) : (takeEvent rest s).vbuf = s.vbuf := rfl
@[simp] theorem takeEvent_bbuf (rest : List HostEvent) (s : State) : (takeEvent rest s).bbuf = s.bbuf := rfl
@[simp] theorem takeEvent_pending (rest : List HostEvent) (s : State) : (takeEvent rest s).pending = rest := rfl
@[simp] theorem takeEvent_txnIndex (rest : List HostEvent) (s : State) : (takeEvent rest s).txnIndex = s.txnIndex + 1 := rfl
@[simp] theorem takeEvent_readLog (rest : List HostEvent) (s : State) : (takeEvent rest s).readLog = s.readLog := rfl

/-! ## logRead -/

@[simp] theorem logRead_err (w : Word) (s : State) : (logRead w s).err = s.err := rfl
@[simp] theorem logRead_treeValid (w : Word) (s : State) : (logRead w s).treeValid = s.treeValid := rfl
@[simp] theorem logRead_codesValid (w : Word) (s : State) : (logRead w s).codesValid = s.codesValid := rfl
@[simp] theorem logRead_errCode (w : Word) (s : State) : (logRead w s).errCode = s.errCode := rfl
@[simp] theorem logRead_errInfo (w : Word) (s : State) : (logRead w s).errInfo = s.errInfo := rfl
@[simp] theorem logRead_errCmd (w : Word) (s : State) : (logRead w s).errCmd = s.errCmd := rfl
@[simp] theorem logRead_vlen (w : Word) (s : State) : (logRead w s).vlen = s.vlen := rfl
@[simp] theorem logRead_blen (w : Word) (s : State) : (logRead w s).blen = s.blen := rfl
@[simp] theorem logRead_bitcnt (w : Word) (s : State) : (logRead w s).bitcnt = s.bitcnt := rfl
@[simp] theorem logRead_root (w : Word) (s : State) : (logRead w s).root = s.root := rfl
@[simp] theorem logRead_ftVal (w : Word) (s : State) : (logRead w s).ftVal = s.ftVal := rfl
@[simp] theorem logRead_ftCnt (w : Word) (s : State) : (logRead w s).ftCnt = s.ftCnt := rfl
@[simp] theorem logRead_ft (w : Word) (s : State) : (logRead w s).ft = s.ft := rfl
@[simp] theorem logRead_nodes (w : Word) (s : State) : (logRead w s).nodes = s.nodes := rfl
@[simp] theorem logRead_ct (w : Word) (s : State) : (logRead w s).ct = s.ct := rfl
@[simp] theorem logRead_vbuf (w : Word) (s : State) : (logRead w s).vbuf = s.vbuf := rfl
@[simp] theorem logRead_bbuf (w : Word) (s : State) : (logRead w s).bbuf = s.bbuf := rfl
@[simp] theorem logRead_pending (w : Word) (s : State) : (logRead w s).pending = s.pending := rfl
@[simp] theorem logRead_txnIndex (w : Word) (s : State) : (logRead w s).txnIndex = s.txnIndex := rfl
@[simp] theorem logRead_readLog (w : Word) (s : State) : (logRead w s).readLog = s.readLog ++ [w] := rfl

/-! ## placeCommand -/

@[simp] theorem placeCommand_err (s : State) (c : Word) : (placeCommand s c).err = s.err := rfl
@[simp] theorem placeCommand_treeValid (s : State) (c : Word) : (placeCommand s c).treeValid = s.treeValid := rfl
@[simp] theorem placeCommand_codesValid (s : State) (c : Word) : (placeCommand s c).codesValid = s.codesValid := rfl
@[simp] theorem placeCommand_errCode (s : State) (c : Word) : (placeCommand s c).errCode = s.errCode := rfl
@[simp] theorem placeCommand_errInfo (s : State) (c : Word) : (placeCommand s c).errInfo = s.errInfo := rfl
@[simp] theorem placeCommand_errCmd (s : State) (c : Word) : (placeCommand s c).errCmd = s.errCmd := rfl
@[simp] theorem placeCommand_vlen (s : State) (c : Word) : (placeCommand s c).vlen = s.vlen := rfl
@[simp] theorem placeCommand_blen (s : State) (c : Word) : (placeCommand s c).blen = s.blen := rfl
@[simp] theorem placeCommand_bitcnt (s : State) (c : Word) : (placeCommand s c).bitcnt = s.bitcnt := rfl
@[simp] theorem placeCommand_root (s : State) (c : Word) : (placeCommand s c).root = s.root := rfl
@[simp] theorem placeCommand_ftVal (s : State) (c : Word) : (placeCommand s c).ftVal = s.ftVal := rfl
@[simp] theorem placeCommand_ftCnt (s : State) (c : Word) : (placeCommand s c).ftCnt = s.ftCnt := rfl
@[simp] theorem placeCommand_ft (s : State) (c : Word) : (placeCommand s c).ft = s.ft := rfl
@[simp] theorem placeCommand_nodes (s : State) (c : Word) : (placeCommand s c).nodes = s.nodes := rfl
@[simp] theorem placeCommand_ct (s : State) (c : Word) : (placeCommand s c).ct = s.ct := rfl
@[simp] theorem placeCommand_vbuf (s : State) (c : Word) : (placeCommand s c).vbuf = s.vbuf := rfl
@[simp] theorem placeCommand_bbuf (s : State) (c : Word) : (placeCommand s c).bbuf = s.bbuf := rfl
@[simp] theorem placeCommand_pending (s : State) (c : Word) : (placeCommand s c).pending = .write 0x10 c :: s.pending := rfl
@[simp] theorem placeCommand_txnIndex (s : State) (c : Word) : (placeCommand s c).txnIndex = s.txnIndex := rfl
@[simp] theorem placeCommand_readLog (s : State) (c : Word) : (placeCommand s c).readLog = s.readLog := rfl

/-! ## resetBlock -/

@[simp] theorem resetBlock_err (s : State) : (resetBlock s).err = false := rfl
@[simp] theorem resetBlock_treeValid (s : State) : (resetBlock s).treeValid = false := rfl
@[simp] theorem resetBlock_codesValid (s : State) : (resetBlock s).codesValid = false := rfl
@[simp] theorem resetBlock_errCode (s : State) : (resetBlock s).errCode = .none := rfl
@[simp] theorem resetBlock_errInfo (s : State) : (resetBlock s).errInfo = 0#32 := rfl
@[simp] theorem resetBlock_errCmd (s : State) : (resetBlock s).errCmd = 0#32 := rfl
@[simp] theorem resetBlock_vlen (s : State) : (resetBlock s).vlen = 0#32 := rfl
@[simp] theorem resetBlock_blen (s : State) : (resetBlock s).blen = 0#32 := rfl
@[simp] theorem resetBlock_bitcnt (s : State) : (resetBlock s).bitcnt = 0#32 := rfl
@[simp] theorem resetBlock_root (s : State) : (resetBlock s).root = 0#32 := rfl
@[simp] theorem resetBlock_ftVal (s : State) : (resetBlock s).ftVal = 0#32 := rfl
@[simp] theorem resetBlock_ftCnt (s : State) : (resetBlock s).ftCnt = 0#32 := rfl
@[simp] theorem resetBlock_ft (s : State) : (resetBlock s).ft = [] := rfl
@[simp] theorem resetBlock_nodes (s : State) : (resetBlock s).nodes = [] := rfl
@[simp] theorem resetBlock_ct (s : State) : (resetBlock s).ct = [] := rfl
@[simp] theorem resetBlock_vbuf (s : State) : (resetBlock s).vbuf = [] := rfl
@[simp] theorem resetBlock_bbuf (s : State) : (resetBlock s).bbuf = [] := rfl
@[simp] theorem resetBlock_pending (s : State) : (resetBlock s).pending = s.pending := rfl
@[simp] theorem resetBlock_txnIndex (s : State) : (resetBlock s).txnIndex = s.txnIndex := rfl
@[simp] theorem resetBlock_readLog (s : State) : (resetBlock s).readLog = s.readLog := rfl

/-! ## The counts of the tables -/

@[simp] theorem nsym_eq (s : State) : s.nsym = s.ft.length := rfl
@[simp] theorem nnodes_eq (s : State) : s.nnodes = s.nodes.length := rfl

end Sys2Proof.Machine
end

