-- ==== Sys2Proof/Laws/Ops.lean ====
section
/-! SUPPORT. What each shared operation can do, said once: the gate, the end of a command, the narrowing of an exact result,
the status word, and the table operations. -/

namespace Sys2Proof.Machine

/-! ## The gate (R213) -/

theorem gated_of_err {s : State} (h : s.err = true) (run : Host.Outcome State Fault Refusal) :
    gated s run = .next s := by simp [gated, h]

theorem gated_of_ok {s : State} (h : s.err = false) (run : Host.Outcome State Fault Refusal) :
    gated s run = run := by simp [gated, h]

/-- A gated command that answers a next state was ignored, or ran. -/
theorem gated_next {s t : State} {run : Host.Outcome State Fault Refusal} (h : gated s run = .next t) :
    (s.err = true ∧ t = s) ∨ (s.err = false ∧ run = .next t) := by
  cases he : s.err with
  | true => rw [gated_of_err he] at h; exact .inl ⟨rfl, by injection h with h; exact h.symm⟩
  | false => exact .inr ⟨rfl, by rwa [gated_of_ok he] at h⟩

/-! ## The end of a command (R214, R216) -/

/-- A command that ends with its work and answers a next state stored a result, or raised a data error. -/
theorem settle_next {α : Type} {cmd : Word} {s t : State} {store : α → State → State} {spoil : State → State}
    {w : Work α} (h : settle cmd s store spoil w = .next t) :
    (∃ a, w = .done a ∧ t = store a s) ∨
    (∃ code info, w = .raise code info ∧ t = raiseError code info cmd (spoil s)) := by
  cases w with
  | done a => exact .inl ⟨a, rfl, by injection h with h; exact h.symm⟩
  | raise code info => exact .inr ⟨code, info, rfl, by injection h with h; exact h.symm⟩
  | stop f => cases h

/-- A command that ends with its work stops only where the work stops. -/
theorem settle_fault {α : Type} {cmd : Word} {s : State} {store : α → State → State} {spoil : State → State}
    {w : Work α} {f : Fault} (h : settle cmd s store spoil w = .fault f) : w = .stop f := by
  cases w <;> simp [settle] at h ⊢; exact h

theorem settle_not_refused {α : Type} {cmd : Word} {s : State} {store : α → State → State} {spoil : State → State}
    {w : Work α} {r : Refusal} : settle cmd s store spoil w ≠ .refused r := by
  cases w <;> simp [settle]

theorem work_map_done {α β : Type} {f : α → β} {w : Work α} {b : β} :
    w.map f = .done b ↔ ∃ a, w = .done a ∧ f a = b := by cases w <;> simp [Work.map]

theorem work_map_raise {α β : Type} {f : α → β} {w : Work α} {e : ErrCode} {i : Word} :
    w.map f = .raise e i ↔ w = .raise e i := by cases w <;> simp [Work.map]

theorem work_map_stop {α β : Type} {f : α → β} {w : Work α} {x : Fault} :
    w.map f = .stop x ↔ w = .stop x := by cases w <;> simp [Work.map]

/-! ## The range check (R7, R10) -/

theorem inRange_iff {z : Int} : inRange z = true ↔ valueMin ≤ z ∧ z ≤ valueMax := by simp [inRange]

/-- In range, the exact result is stored; read back as a signed integer it is that result. -/
theorem narrow_of_inRange {z : Int} (h : inRange z = true) : ∃ w, narrow z = some w ∧ w.toInt = z := by
  have h' := inRange_iff.mp h
  refine ⟨BitVec.ofInt 32 z, by simp [narrow, h'], ?_⟩
  simp only [valueMin, valueMax] at h'
  rw [BitVec.toInt_ofInt, Int.bmod_eq_of_le (by omega) (by omega)]

/-- Out of range, there is no result. -/
theorem narrow_of_not_inRange {z : Int} (h : inRange z = false) : narrow z = none := by
  have : ¬(valueMin ≤ z ∧ z ≤ valueMax) := fun h' => by rw [inRange_iff.mpr h'] at h; cases h
  simp [narrow, this]

/-- Every word is in range. -/
theorem toInt_inRange (w : Word) : inRange w.toInt = true := by
  rw [inRange_iff]; have := w.toInt_lt; have := w.le_toInt; simp only [valueMin, valueMax]; omega

/-! ## The status word (R25) -/

theorem statusWord_eq (s : State) :
    statusWord s = BitVec.ofNat 32 (s.err.toNat + 2 * s.treeValid.toNat + 4 * s.codesValid.toNat) := by
  cases he : s.err <;> cases ht : s.treeValid <;> cases hc : s.codesValid <;> simp [statusWord, he, ht, hc]

/-! ## The table operations (R120) -/

/-- `lookup` gives the index of the first entry of the value. -/
theorem lookup_eq_some {ft : List FtEntry} {v : Word} {i : Nat} :
    lookup ft v = some i ↔ ∃ h : i < ft.length, ft[i].value = v ∧ ∀ j (hj : j < i), (ft[j]'(by omega)).value ≠ v := by
  simp [lookup, List.findIdx?_eq_some_iff_getElem]

/-- `lookup` gives none exactly when no entry has the value. -/
theorem lookup_eq_none {ft : List FtEntry} {v : Word} : lookup ft v = none ↔ ∀ e ∈ ft, e.value ≠ v := by
  simp [lookup]

theorem insertEntry_mem {e x : FtEntry} {ft : List FtEntry} : x ∈ insertEntry e ft ↔ x = e ∨ x ∈ ft := by
  induction ft with
  | nil => simp [insertEntry]
  | cons y ft ih =>
    simp only [insertEntry]
    split
    · simp
    · simp only [List.mem_cons, ih]; tauto

@[simp] theorem insertEntry_length (e : FtEntry) (ft : List FtEntry) :
    (insertEntry e ft).length = ft.length + 1 := by
  induction ft with
  | nil => rfl
  | cons y ft ih => simp only [insertEntry]; split <;> simp [ih]

/-- `insert` of a value that is not in the table keeps the strictly ascending signed order (R34). -/
theorem insertEntry_ascending {e : FtEntry} {ft : List FtEntry}
    (h : ft.Pairwise (fun a b => a.value.toInt < b.value.toInt)) (hn : ∀ x ∈ ft, x.value ≠ e.value) :
    (insertEntry e ft).Pairwise (fun a b => a.value.toInt < b.value.toInt) := by
  induction ft with
  | nil => simp [insertEntry]
  | cons y ft ih =>
    obtain ⟨hy, hft⟩ := List.pairwise_cons.mp h
    simp only [insertEntry]
    split
    · rename_i hlt
      refine List.pairwise_cons.mpr ⟨fun x hx => ?_, h⟩
      rcases List.mem_cons.mp hx with rfl | hx
      · exact hlt
      · exact lt_trans hlt (hy x hx)
    · rename_i hlt
      refine List.pairwise_cons.mpr ⟨fun x hx => ?_, ih hft fun x hx => hn x (List.mem_cons_of_mem _ hx)⟩
      rcases insertEntry_mem.mp hx with rfl | hx
      · have hne : y.value.toInt ≠ x.value.toInt := fun heq =>
          hn y List.mem_cons_self (BitVec.toInt_inj.mp heq)
        omega
      · exact hy x hx

@[simp] theorem bumpCount_length (i : Nat) (ft : List FtEntry) : (bumpCount i ft).length = ft.length := by
  simp [bumpCount]

/-- Counting one more occurrence changes no value. -/
theorem bumpCount_values (i : Nat) (ft : List FtEntry) : (bumpCount i ft).map FtEntry.value = ft.map FtEntry.value := by
  apply List.ext_getElem?
  intro j
  simp only [bumpCount, List.getElem?_map, List.getElem?_modify]
  cases ft[j]? <;> simp; split <;> rfl

/-! ## The bit-stream (R152) -/

@[simp] theorem codeBits_length (c : Code) : (codeBits c).length = c.len := by simp [codeBits]

@[simp] theorem packBytes_length (n : Nat) (bs : List Bool) : (packBytes n bs).length = n := by
  induction n generalizing bs with
  | zero => rfl
  | succ n ih => simp [packBytes, ih]

/-- Bit `p` of a packed byte, counted from bit 7 down, is bit `p` of the sequence, or 0 past its end. -/
theorem packByte_bit (bs : List Bool) (p : Nat) (hp : p < 8) : bitOfByte (packByte bs) p = bs.getD p false := by
  have h : p = 0 ∨ p = 1 ∨ p = 2 ∨ p = 3 ∨ p = 4 ∨ p = 5 ∨ p = 6 ∨ p = 7 := by omega
  rcases h with rfl | rfl | rfl | rfl | rfl | rfl | rfl | rfl <;>
    (simp only [bitOfByte, packByte, BitVec.getLsbD_append, BitVec.getLsbD_ofBool]; simp)

/-- Byte `q` of a packed sequence. -/
theorem packBytes_getElem? (n : Nat) (bs : List Bool) (q : Nat) :
    (packBytes n bs)[q]? = if q < n then some (packByte ((bs.drop (8 * q)).take 8)) else none := by
  induction n generalizing bs q with
  | zero => simp [packBytes]
  | succ n ih =>
    cases q with
    | zero => simp [packBytes]
    | succ q => simp [packBytes, ih, show 8 + 8 * q = 8 * (q + 1) by omega]

/-- R152: stream bit `p` of a stored packing is bit `p` of the sequence, or 0 in the padding. -/
theorem streamBit_packed (m : Memory Byte) (n : Nat) (bs : List Bool) (p : Nat) (hp : p < 8 * n) :
    streamBit (Memory.writeFrom m 0 (packBytes n bs)) p = some (bs.getD p false) := by
  have hq : p / 8 < n := by omega
  have hb : bitOfByte (packByte ((bs.drop (8 * (p / 8))).take 8)) p =
      bitOfByte (packByte ((bs.drop (8 * (p / 8))).take 8)) (p % 8) := by simp [bitOfByte]
  rw [streamBit, read_writeFrom, if_pos (by simpa using hq), Nat.sub_zero, packBytes_getElem?, if_pos hq]
  simp only [Option.map_some, hb, packByte_bit _ _ (Nat.mod_lt _ (by omega : 0 < 8))]
  simp only [List.getD_eq_getElem?_getD, List.getElem?_take, List.getElem?_drop, Nat.mod_lt p (by omega : 0 < 8),
    if_true, Nat.div_add_mod]

/-! ## The priority structure (R131, R132) -/

theorem keyLt_iff {a b : Key} : keyLt a b = true ↔ a.freq < b.freq ∨ (a.freq = b.freq ∧ a.index < b.index) := by
  simp [keyLt]

theorem keyLt_trans {a b c : Key} (h : keyLt a b = true) (h' : keyLt b c = true) : keyLt a c = true := by
  rw [keyLt_iff] at *; omega

/-- Of two keys with different indices one is the less. -/
theorem keyLt_total {a b : Key} (h : a.index ≠ b.index) : keyLt a b = true ∨ keyLt b a = true := by
  rw [keyLt_iff, keyLt_iff]; omega

/-- `takeLeast` answers none only for no keys at all. -/
theorem takeLeast_eq_none {ks : List Key} : takeLeast ks = none ↔ ks = [] := by
  cases ks with
  | nil => simp [takeLeast]
  | cons k ks =>
    simp only [takeLeast]
    cases takeLeast ks with
    | none => simp
    | some p => simp only; split <;> simp

/-- `takeLeast` takes out one key, and keeps the others. -/
theorem takeLeast_perm {ks rest : List Key} {k : Key} (h : takeLeast ks = some (k, rest)) :
    List.Perm ks (k :: rest) := by
  induction ks generalizing k rest with
  | nil => simp [takeLeast] at h
  | cons x ks ih =>
    simp only [takeLeast] at h
    cases hm : takeLeast ks with
    | none =>
      rw [hm] at h
      obtain ⟨rfl, rfl⟩ : x = k ∧ [] = rest := by simpa using h
      rw [takeLeast_eq_none.mp hm]
    | some p =>
      obtain ⟨m, r⟩ := p
      rw [hm] at h
      simp only at h
      split at h
      · obtain ⟨rfl, rfl⟩ : x = k ∧ ks = rest := by simpa using h
        exact List.Perm.refl _
      · obtain ⟨rfl, rfl⟩ : m = k ∧ x :: r = rest := by simpa using h
        exact ((ih hm).cons x).trans (List.Perm.swap m x r)

/-- The key taken out is less than every other, when the indices are distinct. -/
theorem takeLeast_least {ks rest : List Key} {k : Key} (h : takeLeast ks = some (k, rest))
    (hd : (ks.map Key.index).Nodup) : ∀ x ∈ rest, keyLt k x = true := by
  induction ks generalizing k rest with
  | nil => simp [takeLeast] at h
  | cons y ks ih =>
    simp only [takeLeast] at h
    obtain ⟨hy, hks⟩ := List.nodup_cons.mp (by simpa using hd : (y.index :: ks.map Key.index).Nodup)
    cases hm : takeLeast ks with
    | none =>
      rw [hm] at h
      obtain ⟨rfl, rfl⟩ : y = k ∧ [] = rest := by simpa using h
      simp
    | some p =>
      obtain ⟨m, r⟩ := p
      have hp := takeLeast_perm hm
      rw [hm] at h
      simp only at h
      split at h
      · rename_i hlt
        obtain ⟨rfl, rfl⟩ : y = k ∧ ks = rest := by simpa using h
        intro x hx
        rcases List.mem_cons.mp (hp.mem_iff.mp hx) with rfl | hx
        · exact hlt
        · exact keyLt_trans hlt (ih hm hks x hx)
      · rename_i hlt
        obtain ⟨rfl, rfl⟩ : m = k ∧ y :: r = rest := by simpa using h
        intro x hx
        rcases List.mem_cons.mp hx with rfl | hx
        · have hmem : m ∈ ks := hp.mem_iff.mpr List.mem_cons_self
          have hne : m.index ≠ x.index := fun he => hy (by rw [← he]; exact List.mem_map_of_mem hmem)
          exact (keyLt_total hne).resolve_right hlt
        · exact ih hm hks x hx

end Sys2Proof.Machine
end

