-- ==== Sys2Proof/Laws/Tree.lean ====
section
/-! SUPPORT. What the merging loop of `BTREE` builds (42_tree_and_codes.md R131, R132; 10_state.md R36). -/

namespace Sys2Proof.Machine

/-! ## Arenas that grow by one node -/

theorem freqAt_append {nodes : List Node} {k : Nat} (h : k < nodes.length) (x : Node) :
    freqAt (nodes ++ [x]) k = freqAt nodes k := by simp [freqAt, List.getElem?_append_left h]

theorem freqAt_last (nodes : List Node) (x : Node) : freqAt (nodes ++ [x]) nodes.length = x.freq.toNat := by
  simp [freqAt]

theorem childrenOf_append (nodes : List Node) (f : Word) (l r : Nat) :
    childrenOf (nodes ++ [.internal f l r]) = childrenOf nodes ++ [l, r] := by simp [childrenOf]

theorem isLive_append {nodes : List Node} {k : Nat} (h : k ≤ nodes.length) (x : Node) (j : Nat) :
    isLive (nodes ++ [x]) k j = isLive nodes k j := by simp [isLive, List.take_append_of_le_length h]

theorem isLive_iff {nodes : List Node} {k j : Nat} : isLive nodes k j = true ↔ j < k ∧ j ∉ childrenOf (nodes.take k) := by
  simp [isLive]

theorem keyOf_append {nodes : List Node} {k : Nat} (h : k < nodes.length) (x : Node) :
    keyOf (nodes ++ [x]) k = keyOf nodes k := by simp [keyOf, freqAt_append h]

theorem innerOk_iff {nodes : List Node} {k : Nat} : innerOk nodes k = true ↔
    ∃ f l r, nodes[k]? = some (.internal f l r) ∧ l < k ∧ r < k ∧ l ≠ r ∧
      f.toNat = freqAt nodes l + freqAt nodes r := by
  unfold innerOk
  split
  · rename_i f l r h
    simp only [h, Bool.and_eq_true, decide_eq_true_eq, beq_iff_eq, Option.some.injEq, Node.internal.injEq]
    constructor
    · rintro ⟨⟨⟨h1, h2⟩, h3⟩, h4⟩; exact ⟨f, l, r, ⟨rfl, rfl, rfl⟩, h1, h2, h3, h4⟩
    · rintro ⟨_, _, _, ⟨rfl, rfl, rfl⟩, h1, h2, h3, h4⟩; exact ⟨⟨⟨h1, h2⟩, h3⟩, h4⟩
  · rename_i h
    constructor
    · intro h'; cases h'
    · rintro ⟨f, l, r, h', -⟩; exact absurd h' (h f l r)

theorem innerOk_append {nodes : List Node} {k : Nat} (h : k < nodes.length) (hok : innerOk nodes k = true) (x : Node) :
    innerOk (nodes ++ [x]) k = true := by
  obtain ⟨f, l, r, hk, hl, hr, hne, hf⟩ := innerOk_iff.mp hok
  exact innerOk_iff.mpr ⟨f, l, r, by rwa [List.getElem?_append_left h], hl, hr, hne,
    by rw [freqAt_append (by omega), freqAt_append (by omega), hf]⟩

theorem mergedLeast_append {nodes : List Node} {k : Nat} (h : k < nodes.length) (hok : MergedLeast nodes k) (x : Node) :
    MergedLeast (nodes ++ [x]) k := by
  obtain ⟨f, l, r, hk, hl, hr, hne, h1, h2⟩ := hok
  have hlk := (isLive_iff.mp hl).1
  have hrk := (isLive_iff.mp hr).1
  refine ⟨f, l, r, by rwa [List.getElem?_append_left h], by rwa [isLive_append h.le], by rwa [isLive_append h.le], hne,
    fun j hj hjl => ?_, fun j hj hjl hjr => ?_⟩
  · rw [isLive_append h.le] at hj
    rw [keyOf_append (by omega), keyOf_append (by have := (isLive_iff.mp hj).1; omega)]
    exact h1 j hj hjl
  · rw [isLive_append h.le] at hj
    rw [keyOf_append (by omega), keyOf_append (by have := (isLive_iff.mp hj).1; omega)]
    exact h2 j hj hjl hjr

/-! ## The loop invariant -/

/-- Between two merges: the first `n` nodes are the leaves, the internal nodes are right and least-first, the live keys are
the nodes without a parent, and their frequencies sum to the total. -/
structure MergeInv (ft : List FtEntry) (nodes : List Node) (live : List Key) : Prop where
  leaves : ∀ i < ft.length, nodes[i]? = (ft[i]?).map (fun e => Node.leaf e.count e.value)
  inner : ∀ k < nodes.length, ft.length ≤ k → innerOk nodes k = true
  merged : ∀ k < nodes.length, ft.length ≤ k → MergedLeast nodes k
  distinct : (live.map Key.index).Nodup
  liveIff : ∀ j, j ∈ live.map Key.index ↔ j < nodes.length ∧ j ∉ childrenOf nodes
  keys : ∀ k ∈ live, k.freq = freqAt nodes k.index
  childrenNodup : (childrenOf nodes).Nodup
  childrenLt : ∀ j ∈ childrenOf nodes, j + 1 < nodes.length
  sum : (live.map Key.freq).sum = countSum ft
  size : nodes.length + live.length = 2 * ft.length
  enough : ft.length ≤ nodes.length

/-- One merge keeps the invariant. -/
theorem MergeInv.merge {ft : List FtEntry} {nodes : List Node} {live live1 live2 : List Key} {a b : Key}
    (h : MergeInv ft nodes live) (hsum : countSum ft < 2 ^ 32) (ha : takeLeast live = some (a, live1))
    (hb : takeLeast live1 = some (b, live2)) :
    MergeInv ft (nodes ++ [.internal (BitVec.ofNat 32 (a.freq + b.freq)) a.index b.index])
      (live2 ++ [{ freq := a.freq + b.freq, index := nodes.length }]) := by
  have pa := takeLeast_perm ha
  have pb := takeLeast_perm hb
  have p : List.Perm live (a :: b :: live2) := pa.trans (pb.cons a)
  have pidx : List.Perm (live.map Key.index) (a.index :: b.index :: live2.map Key.index) := by simpa using p.map Key.index
  have hnd := pidx.nodup_iff.mp h.distinct
  simp only [List.nodup_cons, List.mem_cons, not_or] at hnd
  obtain ⟨⟨hab, ha2⟩, hb2, hnd2⟩ := hnd
  have hd1 : (live1.map Key.index).Nodup := by
    have := (pa.map Key.index).nodup_iff.mp h.distinct
    simp only [List.map_cons, List.nodup_cons] at this
    exact this.2
  have hal : a ∈ live := p.mem_iff.mpr (by simp)
  have hbl : b ∈ live := p.mem_iff.mpr (by simp)
  have hai := (h.liveIff a.index).mp (List.mem_map_of_mem hal)
  have hbi := (h.liveIff b.index).mp (List.mem_map_of_mem hbl)
  have hfreq : a.freq + b.freq < 2 ^ 32 := by
    have := (p.map Key.freq).sum_eq
    rw [h.sum] at this
    simp only [List.map_cons, List.sum_cons] at this
    omega
  have hkey : ∀ k ∈ live, k = keyOf nodes k.index := fun k hk => by
    have := h.keys k hk
    cases k; simp only at this; simp [keyOf, ← this]
  set x : Node := .internal (BitVec.ofNat 32 (a.freq + b.freq)) a.index b.index with hx
  have hlast : (nodes ++ [x])[nodes.length]? = some x := by simp
  have htake : (nodes ++ [x]).take nodes.length = nodes := by simp
  have hliveNow : ∀ j, isLive (nodes ++ [x]) nodes.length j = true ↔ j ∈ live.map Key.index := fun j => by
    rw [isLive_iff, htake, h.liveIff]
  have hxf : x.freq.toNat = a.freq + b.freq := by simp [hx, Node.freq]; omega
  refine
    { leaves := fun i hi => by
        rw [List.getElem?_append_left (by have := h.enough; omega)]; exact h.leaves i hi
      inner := fun k hk hnk => ?_
      merged := fun k hk hnk => ?_
      distinct := ?_
      liveIff := fun j => ?_
      keys := fun k hk => ?_
      childrenNodup := ?_
      childrenLt := fun j hj => ?_
      sum := ?_
      size := ?_
      enough := by have := h.enough; simp; omega }
  · by_cases hkn : k < nodes.length
    · exact innerOk_append hkn (h.inner k hkn hnk) x
    · obtain rfl : k = nodes.length := by simp at hk; omega
      refine innerOk_iff.mpr ⟨_, _, _, hlast, hai.1, hbi.1, hab, ?_⟩
      rw [freqAt_append hai.1, freqAt_append hbi.1, ← h.keys a hal, ← h.keys b hbl]
      exact hxf
  · by_cases hkn : k < nodes.length
    · exact mergedLeast_append hkn (h.merged k hkn hnk) x
    · obtain rfl : k = nodes.length := by simp at hk; omega
      refine ⟨_, _, _, hlast, (hliveNow _).mpr (List.mem_map_of_mem hal), (hliveNow _).mpr (List.mem_map_of_mem hbl), hab,
        fun j hj hja => ?_, fun j hj hja hjb => ?_⟩
      · obtain ⟨k, hk, rfl⟩ := List.mem_map.mp ((hliveNow j).mp hj)
        have hk1 : k ∈ live1 := by
          rcases List.mem_cons.mp (pa.mem_iff.mp hk) with rfl | hk'
          · exact absurd rfl hja
          · exact hk'
        have hki := ((h.liveIff k.index).mp (List.mem_map_of_mem hk)).1
        rw [keyOf_append hai.1, keyOf_append hki, ← hkey a hal, ← hkey k hk]
        exact takeLeast_least ha h.distinct k hk1
      · obtain ⟨k, hk, rfl⟩ := List.mem_map.mp ((hliveNow j).mp hj)
        have hk2 : k ∈ live2 := by
          rcases List.mem_cons.mp (p.mem_iff.mp hk) with rfl | hk'
          · exact absurd rfl hja
          · rcases List.mem_cons.mp hk' with rfl | hk''
            · exact absurd rfl hjb
            · exact hk''
        have hki := ((h.liveIff k.index).mp (List.mem_map_of_mem hk)).1
        rw [keyOf_append hbi.1, keyOf_append hki, ← hkey b hbl, ← hkey k hk]
        exact takeLeast_least hb hd1 k hk2
  · rw [List.map_append, List.nodup_append]
    refine ⟨hnd2, by simp, fun i hi j hj => ?_⟩
    obtain rfl : j = nodes.length := by simpa using hj
    have : i ∈ live.map Key.index := pidx.mem_iff.mpr (by simp [hi])
    have := ((h.liveIff i).mp this).1
    omega
  · rw [hx, childrenOf_append]
    simp only [List.map_append, List.map_cons, List.map_nil, List.mem_append, List.length_append,
      List.length_cons, List.length_nil, List.mem_cons, List.not_mem_nil, or_false, not_or]
    constructor
    · rintro (hj | rfl)
      · have hjl := (h.liveIff j).mp (pidx.mem_iff.mpr (by simp [hj]))
        refine ⟨by omega, hjl.2, ?_, ?_⟩
        · rintro rfl; exact ha2 hj
        · rintro rfl; exact hb2 hj
      · refine ⟨by omega, fun hc => ?_, by omega, by omega⟩
        have := h.childrenLt _ hc
        omega
    · rintro ⟨hj, hc, hja, hjb⟩
      by_cases hjn : j = nodes.length
      · exact .inr hjn
      · have := pidx.mem_iff.mp ((h.liveIff j).mpr ⟨by omega, hc⟩)
        simp only [List.mem_cons, hja, hjb, false_or] at this
        exact .inl this
  · rcases List.mem_append.mp hk with hk | hk
    · have hkl : k ∈ live := p.mem_iff.mpr (by simp [hk])
      rw [freqAt_append ((h.liveIff _).mp (List.mem_map_of_mem hkl)).1]
      exact h.keys k hkl
    · obtain rfl := List.mem_singleton.mp hk
      rw [freqAt_last, hxf]
  · rw [hx, childrenOf_append, List.nodup_append]
    refine ⟨h.childrenNodup, by simp [hab], fun i hi j hj => ?_⟩
    rintro rfl
    rcases List.mem_cons.mp hj with rfl | hj
    · exact hai.2 hi
    · obtain rfl := List.mem_singleton.mp hj
      exact hbi.2 hi
  · rw [hx, childrenOf_append] at hj
    rw [List.length_append, List.length_singleton]
    rcases List.mem_append.mp hj with hj | hj
    · have := h.childrenLt j hj; omega
    · rcases List.mem_cons.mp hj with rfl | hj
      · omega
      · obtain rfl := List.mem_singleton.mp hj
        omega
  · have := (p.map Key.freq).sum_eq
    rw [h.sum] at this
    simp only [List.map_cons, List.sum_cons] at this
    simp only [List.map_append, List.sum_append, List.map_cons, List.sum_cons, List.map_nil, List.sum_nil]
    omega
  · have := p.length_eq
    have := h.size
    simp at *
    omega

/-- The loop keeps the invariant and, with fuel enough, ends with one live node. -/
theorem mergeLoop_inv {ft : List FtEntry} (hsum : countSum ft < 2 ^ 32) (fuel : Nat) (nodes : List Node)
    (live : List Key) (h : MergeInv ft nodes live) (hf : live.length ≤ fuel + 1) (hl : 1 ≤ live.length) :
    ∃ k, (mergeLoop fuel nodes live).2 = [k] ∧ MergeInv ft (mergeLoop fuel nodes live).1 [k] := by
  induction fuel generalizing nodes live with
  | zero =>
    obtain ⟨k, rfl⟩ := List.length_eq_one_iff.mp (show live.length = 1 by omega)
    exact ⟨k, rfl, h⟩
  | succ fuel ih =>
    simp only [mergeLoop]
    cases ha : takeLeast live with
    | none => rw [takeLeast_eq_none.mp ha] at hl; simp at hl
    | some p =>
      obtain ⟨a, live1⟩ := p
      have pa := (takeLeast_perm ha).length_eq
      simp only
      cases hb : takeLeast live1 with
      | none =>
        have h1 := takeLeast_eq_none.mp hb
        subst h1
        obtain ⟨k, rfl⟩ := List.length_eq_one_iff.mp pa
        exact ⟨k, rfl, h⟩
      | some q =>
        obtain ⟨b, live2⟩ := q
        have pb := (takeLeast_perm hb).length_eq
        simp only [List.length_cons] at pa pb
        exact ih _ _ (h.merge hsum ha hb) (by simp; omega) (by simp)

theorem leafKeys_index (ft : List FtEntry) (i : Nat) : (leafKeys i ft).map Key.index = List.range' i ft.length := by
  induction ft generalizing i with
  | nil => rfl
  | cons e ft ih => simp [leafKeys, ih, List.range'_succ]

theorem leafKeys_mem {ft : List FtEntry} {i : Nat} {k : Key} (h : k ∈ leafKeys i ft) :
    ∃ e, ft[k.index - i]? = some e ∧ i ≤ k.index ∧ k.freq = e.count.toNat := by
  induction ft generalizing i with
  | nil => simp [leafKeys] at h
  | cons e ft ih =>
    rcases List.mem_cons.mp h with rfl | h
    · exact ⟨e, by simp, le_rfl, rfl⟩
    · obtain ⟨e', he, hi, hf⟩ := ih h
      exact ⟨e', by rw [show k.index - i = (k.index - (i + 1)) + 1 by omega]; simpa using he, by omega, hf⟩

theorem leafKeys_sum (ft : List FtEntry) (i : Nat) : ((leafKeys i ft).map Key.freq).sum = countSum ft := by
  induction ft generalizing i with
  | nil => rfl
  | cons e ft ih => simp [leafKeys, ih, countSum]

theorem childrenOf_leaves (ft : List FtEntry) : childrenOf (leavesOf ft) = [] := by
  simp [childrenOf, leavesOf, List.flatMap_map]

/-- Before the first merge the invariant holds. -/
theorem mergeInv_start (ft : List FtEntry) : MergeInv ft (leavesOf ft) (leafKeys 0 ft) := by
  have hlen : (leavesOf ft).length = ft.length := by simp [leavesOf]
  have hklen : (leafKeys 0 ft).length = ft.length := by
    have := congrArg List.length (leafKeys_index ft 0)
    simpa using this
  refine
    { leaves := fun i _ => by simp [leavesOf]
      inner := fun k hk hnk => by omega
      merged := fun k hk hnk => by omega
      distinct := by rw [leafKeys_index]; exact List.nodup_range'
      liveIff := fun j => by rw [leafKeys_index, childrenOf_leaves, hlen]; simp [List.mem_range'_1]
      keys := fun k hk => ?_
      childrenNodup := by rw [childrenOf_leaves]; exact List.nodup_nil
      childrenLt := fun j hj => by rw [childrenOf_leaves] at hj; simp at hj
      sum := leafKeys_sum ft 0
      size := by omega
      enough := by omega }
  obtain ⟨e, he, -, hf⟩ := leafKeys_mem hk
  rw [Nat.sub_zero] at he
  simp [freqAt, leavesOf, he, hf, Node.freq]

/-- `buildTree` gives the tree of R36 for a table that is not empty and whose counts sum below `2^32`, and every internal
node merges the two least live nodes (R132). -/
theorem buildTree_ok {ft : List FtEntry} (hne : ft ≠ []) (hsum : countSum ft < 2 ^ 32) (hlen : ft.length ≤ 2 ^ 31) :
    TreeOk ft (buildTree ft).1 (buildTree ft).2.toNat ∧
    ∀ k < (buildTree ft).1.length, ft.length ≤ k → MergedLeast (buildTree ft).1 k := by
  have hpos : 1 ≤ ft.length := by have := List.length_pos_iff.mpr hne; omega
  have hklen : (leafKeys 0 ft).length = ft.length := by
    have := congrArg List.length (leafKeys_index ft 0)
    simpa using this
  obtain ⟨k, hk, h⟩ := mergeLoop_inv hsum ft.length _ _ (mergeInv_start ft) (by omega) (by omega)
  set nodes := (mergeLoop ft.length (leavesOf ft) (leafKeys 0 ft)).1 with hn
  have h1 : (buildTree ft).1 = nodes := rfl
  have hroot : (buildTree ft).2 = BitVec.ofNat 32 k.index := by simp [buildTree, hk]
  have hsize : nodes.length = 2 * ft.length - 1 := by have := h.size; simp at this; omega
  have hlast : k.index = nodes.length - 1 := by
    have : nodes.length - 1 ∈ [k].map Key.index := (h.liveIff _).mpr
      ⟨by omega, fun hc => by have := h.childrenLt _ hc; omega⟩
    simpa using (List.mem_singleton.mp (by simpa using this)).symm
  have hrootNat : (buildTree ft).2.toNat = k.index := by
    rw [hroot, BitVec.toNat_ofNat, Nat.mod_eq_of_lt]; omega
  have hkey := h.keys k (by simp)
  have hs := h.sum
  simp only [List.map_cons, List.map_nil, List.sum_cons, List.sum_nil, Nat.add_zero] at hs
  refine ⟨⟨hpos, by rw [h1, hsize], by omega, ?_, ?_, fun j hj => ?_, ?_⟩, h.merged⟩
  · exact h.leaves
  · exact h.inner
  · rw [h1]
    rw [hrootNat] at hj
    refine (List.nodup_iff_count_eq_one.mp h.childrenNodup) j ?_
    by_contra hc
    have := (h.liveIff j).mpr ⟨by omega, hc⟩
    simp at this
    omega
  · rw [h1, hrootNat, ← hkey, hs]
    exact ⟨rfl, hsum⟩

end Sys2Proof.Machine
end

