-- ==== Sys2Proof/Laws/Codes.lean ====
section
/-! SUPPORT. Paths in a Huffman tree (10_state.md R36), and what the path assignment of `GCODE` gives
(42_tree_and_codes.md R135). -/

namespace Sys2Proof.Machine

/-! ## Descending -/

theorem descend_append (nodes : List Node) (k : Nat) (bs cs : List Bool) :
    descend nodes k (bs ++ cs) = (descend nodes k bs).bind (fun j => descend nodes j cs) := by
  induction bs generalizing k with
  | nil => rfl
  | cons b bs ih =>
    simp only [List.cons_append, descend]
    split
    · exact ih _
    · rfl

theorem descend_cons_internal {nodes : List Node} {k l r : Nat} {f : Word} (h : nodes[k]? = some (.internal f l r))
    (b : Bool) (bs : List Bool) : descend nodes k (b :: bs) = descend nodes (if b then r else l) bs := by
  simp [descend, h]

/-- Out of a leaf no bit leads. -/
theorem descend_leaf {nodes : List Node} {k : Nat} {f v : Word} (h : nodes[k]? = some (.leaf f v)) {bs : List Bool}
    {j : Nat} (hd : descend nodes k bs = some j) : bs = [] ∧ j = k := by
  cases bs with
  | nil => exact ⟨rfl, by simpa [descend, eq_comm] using hd⟩
  | cons b bs => simp [descend, h] at hd

/-! ## The nodes of a tree -/

section TreeFacts

variable {ft : List FtEntry} {nodes : List Node} {root : Nat}

theorem TreeOk.rootLt (h : TreeOk ft nodes root) : root < nodes.length := by
  have := h.nonempty; have := h.count; have := h.rootLast; omega

theorem TreeOk.nLe (h : TreeOk ft nodes root) : ft.length ≤ nodes.length := by
  have := h.nonempty; have := h.count; omega

/-- A node below `n` is a leaf, and it is the leaf of the table entry with its index. -/
theorem TreeOk.leafAt (h : TreeOk ft nodes root) {i : Nat} (hi : i < ft.length) :
    nodes[i]? = some (.leaf ft[i].count ft[i].value) := by
  rw [h.leaves i hi, List.getElem?_eq_getElem hi]; rfl

/-- A node from `n` up is internal, with two different earlier children. -/
theorem TreeOk.innerAt (h : TreeOk ft nodes root) {k : Nat} (hn : ft.length ≤ k) (hk : k < nodes.length) :
    ∃ f l r, nodes[k]? = some (.internal f l r) ∧ l < k ∧ r < k ∧ l ≠ r ∧ f.toNat = freqAt nodes l + freqAt nodes r :=
  innerOk_iff.mp (h.inner k hk hn)

/-- Only a node from `n` up is internal. -/
theorem TreeOk.internal_ge (h : TreeOk ft nodes root) {k l r : Nat} {f : Word}
    (hk : nodes[k]? = some (.internal f l r)) : ft.length ≤ k ∧ k < nodes.length := by
  have hlt := (List.getElem?_eq_some_iff.mp hk).1
  refine ⟨?_, hlt⟩
  by_contra hc
  rw [h.leafAt (by omega)] at hk
  cases hk

/-- The children of an internal node come before it. -/
theorem TreeOk.child_lt (h : TreeOk ft nodes root) {k l r : Nat} {f : Word}
    (hk : nodes[k]? = some (.internal f l r)) : l < k ∧ r < k ∧ l ≠ r := by
  obtain ⟨hn, hlt⟩ := h.internal_ge hk
  obtain ⟨f', l', r', hk', hl, hr, hne, -⟩ := h.innerAt hn hlt
  rw [hk] at hk'
  obtain ⟨rfl, rfl, rfl⟩ : f = f' ∧ l = l' ∧ r = r' := by simpa using hk'
  exact ⟨hl, hr, hne⟩

theorem mem_childrenOf {nodes : List Node} {j : Nat} :
    j ∈ childrenOf nodes ↔ ∃ (q : Nat) (f : Word) (l r : Nat), nodes[q]? = some (Node.internal f l r) ∧ (j = l ∨ j = r) := by
  simp only [childrenOf, List.mem_flatMap]
  constructor
  · rintro ⟨x, hx, hj⟩
    obtain ⟨q, hq, rfl⟩ := List.mem_iff_getElem.mp hx
    cases hnode : nodes[q] with
    | leaf f v => rw [hnode] at hj; simp at hj
    | internal f l r =>
      rw [hnode] at hj
      exact ⟨q, f, l, r, by rw [List.getElem?_eq_getElem hq, hnode], by simpa using hj⟩
  · rintro ⟨q, f, l, r, hq, hj⟩
    exact ⟨_, List.mem_of_getElem? hq, by simpa using hj⟩

/-- A node that is a child has one parent. -/
theorem parent_unique {nodes : List Node} {j q q' l r l' r' : Nat} {f f' : Word}
    (hc : (childrenOf nodes).count j ≤ 1) (hq : nodes[q]? = some (.internal f l r)) (hj : j = l ∨ j = r)
    (hq' : nodes[q']? = some (.internal f' l' r')) (hj' : j = l' ∨ j = r') : q = q' := by
  have key : ∀ {a b : Nat} {fa fb : Word} {la ra lb rb : Nat}, nodes[a]? = some (Node.internal fa la ra) →
      (j = la ∨ j = ra) → nodes[b]? = some (Node.internal fb lb rb) → (j = lb ∨ j = rb) → ¬ a < b := by
    intro a b fa fb la ra lb rb ha hja hb hjb hab
    have hsplit : childrenOf nodes = childrenOf (nodes.take b) ++ childrenOf (nodes.drop b) := by
      conv_lhs => rw [← List.take_append_drop b nodes]
      exact List.flatMap_append
    have h1 : j ∈ childrenOf (nodes.take b) :=
      mem_childrenOf.mpr ⟨a, fa, la, ra, by rwa [List.getElem?_take_of_lt hab], hja⟩
    have h2 : j ∈ childrenOf (nodes.drop b) := mem_childrenOf.mpr ⟨0, fb, lb, rb, by simpa using hb, hjb⟩
    rw [hsplit, List.count_append] at hc
    have := List.count_pos_iff.mpr h1
    have := List.count_pos_iff.mpr h2
    omega
  have h1 := key hq hj hq' hj'
  have h2 := key hq' hj' hq hj
  omega

/-- A descent stays at or below where it starts, and moves down with every bit. -/
theorem TreeOk.descend_le (h : TreeOk ft nodes root) {bs : List Bool} {k j : Nat}
    (hd : descend nodes k bs = some j) : j + bs.length ≤ k := by
  induction bs generalizing k with
  | nil =>
    obtain rfl : k = j := by simpa [descend] using hd
    simp
  | cons b bs ih =>
    cases hk : nodes[k]? with
    | none => simp [descend, hk] at hd
    | some x =>
      cases x with
      | leaf f v => simp [descend, hk] at hd
      | internal f l r =>
        rw [descend_cons_internal hk] at hd
        have := ih hd
        have := h.child_lt hk
        cases b <;> simp at * <;> omega

/-- Every node up to the root is reached from the root. -/
theorem TreeOk.reach (h : TreeOk ft nodes root) (k : Nat) (hk : k ≤ root) :
    ∃ bs, descend nodes root bs = some k := by
  induction hm : root - k using Nat.strong_induction_on generalizing k with
  | _ m ih =>
    by_cases hr : k = root
    · exact ⟨[], by simp [descend, hr]⟩
    · have hc := h.oneParent k (by omega)
      have hmem : k ∈ childrenOf nodes := List.count_pos_iff.mp (by omega)
      obtain ⟨q, f, l, r, hq, hj⟩ := mem_childrenOf.mp hmem
      have hlt := h.child_lt hq
      have hql := (h.internal_ge hq).2
      have := h.rootLast
      have := h.count
      have := h.nonempty
      obtain ⟨bs, hbs⟩ := ih (root - q) (by omega) q (by omega) rfl
      rcases hj with rfl | rfl
      · exact ⟨bs ++ [false], by rw [descend_append, hbs]; simp [descend, hq]⟩
      · exact ⟨bs ++ [true], by rw [descend_append, hbs]; simp [descend, hq]⟩

/-- A node is reached from the root along one path only. -/
theorem TreeOk.path_unique (h : TreeOk ft nodes root) {bs cs : List Bool} {k : Nat}
    (hb : descend nodes root bs = some k) (hc : descend nodes root cs = some k) : bs = cs := by
  induction bs using List.reverseRecOn generalizing cs k with
  | nil =>
    obtain rfl : root = k := by simpa [descend] using hb
    have := h.descend_le hc
    exact (List.eq_nil_of_length_eq_zero (by omega)).symm
  | append_singleton bs b ih =>
    have hlt := h.descend_le hb
    simp only [List.length_append, List.length_singleton] at hlt
    rcases List.eq_nil_or_concat cs with rfl | ⟨cs, c, rfl⟩
    · obtain rfl : root = k := by simpa [descend] using hc
      omega
    · have last : ∀ {ds : List Bool} {d : Bool}, descend nodes root (ds ++ [d]) = some k →
          ∃ q f l r, descend nodes root ds = some q ∧ nodes[q]? = some (Node.internal f l r) ∧
            k = (if d then r else l) := by
        intro ds d hd
        rw [descend_append] at hd
        cases hq : descend nodes root ds with
        | none => rw [hq] at hd; simp at hd
        | some q =>
          rw [hq, Option.bind_some] at hd
          cases hn : nodes[q]? with
          | none => simp [descend, hn] at hd
          | some x =>
            cases x with
            | leaf f v => simp [descend, hn] at hd
            | internal f l r =>
              exact ⟨q, f, l, r, rfl, hn, by simpa [descend, hn, eq_comm] using hd⟩
      rw [List.concat_eq_append] at hc ⊢
      obtain ⟨q, f, l, r, hq, hqn, hk⟩ := last hb
      obtain ⟨q', f', l', r', hq', hqn', hk'⟩ := last hc
      have hcount : (childrenOf nodes).count k ≤ 1 := (h.oneParent k (by omega)).le
      have hqq : q = q' := parent_unique hcount hqn
        (by cases b <;> simp at hk <;> simp [hk]) hqn' (by cases c <;> simp at hk' <;> simp [hk'])
      subst hqq
      rw [hqn] at hqn'
      obtain ⟨rfl, rfl, rfl⟩ : f = f' ∧ l = l' ∧ r = r' := by simpa using hqn'
      have hne := (h.child_lt hqn).2.2
      have hbc : b = c := by
        cases b <;> cases c <;> simp at hk hk' <;> first | rfl | (exfalso; omega)
      rw [ih hq hq', hbc]

/-- A path from the root takes fewer bits than there are leaves. -/
theorem TreeOk.path_length (h : TreeOk ft nodes root) {bs : List Bool} {k : Nat}
    (hd : descend nodes root bs = some k) : bs.length + 1 ≤ ft.length := by
  have hroot := h.rootLast
  have hpos := h.nonempty
  rcases List.eq_nil_or_concat bs with rfl | ⟨cs, c, rfl⟩
  · simpa using hpos
  · rw [List.concat_eq_append, descend_append] at hd
    obtain ⟨q, hq, hd⟩ := Option.bind_eq_some_iff.mp hd
    have hle := h.descend_le hq
    cases hn : nodes[q]? with
    | none => simp [descend, hn] at hd
    | some x =>
      cases x with
      | leaf f v => simp [descend, hn] at hd
      | internal f l r =>
        have := (h.internal_ge hn).1
        simp only [List.concat_eq_append, List.length_append, List.length_singleton]
        omega

end TreeFacts

/-! ## Bits and integers (R135, R96) -/

/-- The integer that `bits` accumulates along a path (R135). -/
def natOfBits : Nat → List Bool → Nat
  | acc, [] => acc
  | acc, b :: bs => natOfBits (2 * acc + b.toNat) bs

theorem natOfBits_testBit (bs : List Bool) (acc j : Nat) :
    (natOfBits acc bs).testBit j = if j < bs.length then bs.getD (bs.length - 1 - j) false
      else acc.testBit (j - bs.length) := by
  induction bs generalizing acc with
  | nil => simp [natOfBits]
  | cons b bs ih =>
    rw [natOfBits, ih]
    simp only [List.length_cons]
    by_cases h1 : j < bs.length
    · rw [if_pos h1, if_pos (by omega), show bs.length + 1 - 1 - j = (bs.length - 1 - j) + 1 by omega,
        List.getD_cons_succ]
    · rw [if_neg h1]
      by_cases h2 : j = bs.length
      · subst h2
        rw [if_pos (by omega), Nat.sub_self, show bs.length + 1 - 1 - bs.length = 0 by omega, List.getD_cons_zero]
        cases b <;> simp [Nat.testBit_zero]
      · rw [if_neg (by omega), show j - bs.length = (j - (bs.length + 1)) + 1 by omega, Nat.testBit_succ]
        congr 1
        cases b
        · simp
        · simp; omega

theorem natOfBits_lt (bs : List Bool) : natOfBits 0 bs < 2 ^ bs.length := by
  apply Nat.lt_pow_two_of_testBit
  intro j hj
  rw [natOfBits_testBit, if_neg (by omega)]; simp

/-- The code that stores a path of at most 32 bits has the path as its bits. -/
theorem codeBits_of_path {bs : List Bool} (h : bs.length ≤ 32) :
    codeBits { len := bs.length, bits := BitVec.ofNat 32 (natOfBits 0 bs) } = bs := by
  apply List.ext_getElem
  · simp
  · intro j h1 h2
    simp only [codeBits, List.getElem_map, List.getElem_range, BitVec.getLsbD_ofNat]
    rw [natOfBits_testBit, if_pos (by omega), show bs.length - 1 - (bs.length - 1 - j) = j by omega]
    simp [List.getD_eq_getElem?_getD, List.getElem?_eq_getElem h2]
    omega

/-! ## The assignment of paths -/

/-- Below node `k` of a tree the assignment succeeds, and gives exactly the paths to the leaves below `k`. -/
theorem assignPaths_ok {ft : List FtEntry} {nodes : List Node} {root : Nat} (h : TreeOk ft nodes root) (fuel k : Nat)
    (hf : k < fuel) (hk : k < nodes.length) (len acc : Nat) :
    ∃ ps, assignPaths fuel nodes k len acc = some ps ∧
      (∀ p ∈ ps, p.index < ft.length ∧ ∃ bs, descend nodes k bs = some p.index ∧
        p.len = len + bs.length ∧ p.bits = natOfBits acc bs) ∧
      (∀ i < ft.length, ∀ bs, descend nodes k bs = some i → ∃ p ∈ ps, p.index = i) := by
  induction fuel generalizing k len acc with
  | zero => omega
  | succ fuel ih =>
    by_cases hn : k < ft.length
    · have hl := h.leafAt hn
      refine ⟨[⟨k, len, acc⟩], by simp [assignPaths, hl], fun p hp => ?_, fun i hi bs hd => ?_⟩
      · obtain rfl := List.mem_singleton.mp hp
        exact ⟨hn, [], rfl, rfl, rfl⟩
      · exact ⟨_, List.mem_singleton_self _, (descend_leaf hl hd).2.symm⟩
    · obtain ⟨f, l, r, hkn, hl, hr, -, -⟩ := h.innerAt (by omega) hk
      obtain ⟨pl, hpl, hpl1, hpl2⟩ := ih l (by omega) (by omega) (len + 1) (2 * acc)
      obtain ⟨pr, hpr, hpr1, hpr2⟩ := ih r (by omega) (by omega) (len + 1) (2 * acc + 1)
      refine ⟨pl ++ pr, by simp [assignPaths, hkn, hpl, hpr], fun p hp => ?_, fun i hi bs hd => ?_⟩
      · rcases List.mem_append.mp hp with hp | hp
        · obtain ⟨hi, bs, hd, hlen, hbits⟩ := hpl1 p hp
          exact ⟨hi, false :: bs, by rw [descend_cons_internal hkn]; simpa using hd, by simp [hlen]; omega,
            by simp [hbits, natOfBits]⟩
        · obtain ⟨hi, bs, hd, hlen, hbits⟩ := hpr1 p hp
          exact ⟨hi, true :: bs, by rw [descend_cons_internal hkn]; simpa using hd, by simp [hlen]; omega,
            by simp [hbits, natOfBits]⟩
      · cases bs with
        | nil =>
          obtain rfl : k = i := by simpa [descend] using hd
          omega
        | cons b bs =>
          rw [descend_cons_internal hkn] at hd
          cases b with
          | false =>
            obtain ⟨p, hp, hpi⟩ := hpl2 i hi bs (by simpa using hd)
            exact ⟨p, List.mem_append_left _ hp, hpi⟩
          | true =>
            obtain ⟨p, hp, hpi⟩ := hpr2 i hi bs (by simpa using hd)
            exact ⟨p, List.mem_append_right _ hp, hpi⟩

/-- The path that `GCODE` gives leaf `i` of a tree: `(1, 0)` in a one-leaf tree, else the path from the root. -/
def PathOf (nodes : List Node) (root n i : Nat) (p : LeafPath) : Prop :=
  p.index = i ∧ (if n = 1 then p.len = 1 ∧ p.bits = 0
    else ∃ bs, descend nodes root bs = some i ∧ p.len = bs.length ∧ p.bits = natOfBits 0 bs)

/-- In a tree every leaf has its path among the tree's paths, and nothing else is there. -/
theorem treePaths_ok {ft : List FtEntry} {nodes : List Node} {root : Nat} (h : TreeOk ft nodes root) :
    ∃ ps, treePaths nodes root = some ps ∧ (∀ p ∈ ps, p.index < ft.length ∧ PathOf nodes root ft.length p.index p) ∧
      ∀ i < ft.length, ∃ p ∈ ps, p.index = i := by
  have hroot := h.rootLast
  have hpos := h.nonempty
  by_cases h1 : ft.length = 1
  · have hl := h.leafAt (show root < ft.length by omega)
    refine ⟨[{ index := 0, len := 1, bits := 0 }], by simp only [treePaths, hl], fun p hp => ?_, fun i hi => ?_⟩
    · obtain rfl := List.mem_singleton.mp hp
      exact ⟨by simp; omega, rfl, by simp [h1]⟩
    · exact ⟨_, List.mem_singleton_self _, by simp; omega⟩
  · obtain ⟨f, l, r, hn, -⟩ := h.innerAt (show ft.length ≤ root by omega) h.rootLt
    obtain ⟨ps, hps, hall, hsome⟩ := assignPaths_ok h nodes.length root h.rootLt h.rootLt 0 0
    refine ⟨ps, by simp only [treePaths, hn, hps], fun p hp => ?_, fun i hi => ?_⟩
    · obtain ⟨hi, bs, hd, hlen, hbits⟩ := hall p hp
      exact ⟨hi, rfl, by simp only [h1, if_false]; exact ⟨bs, hd, by omega, hbits⟩⟩
    · obtain ⟨bs, hbs⟩ := h.reach i (by omega)
      exact hsome i hi bs hbs

theorem pathsInOrder_ok {ps : List LeafPath} (n i : Nat) (h : ∀ j, i ≤ j → j < i + n → ∃ p ∈ ps, p.index = j) :
    ∃ qs, pathsInOrder ps i n = some qs ∧ qs.length = n ∧ ∀ j (hj : j < qs.length), qs[j] ∈ ps ∧ qs[j].index = i + j := by
  induction n generalizing i with
  | zero => exact ⟨[], rfl, rfl, by simp⟩
  | succ n ih =>
    obtain ⟨qs, hq, hl, hv⟩ := ih (i + 1) (fun j h1 h2 => h j (by omega) (by omega))
    cases hf : ps.find? (fun p => p.index == i) with
    | none =>
      obtain ⟨p, hp, hpi⟩ := h i le_rfl (by omega)
      have := List.find?_eq_none.mp hf p hp
      simp [hpi] at this
    | some p =>
      have hp := List.mem_of_find?_eq_some hf
      have hpi := List.find?_some hf
      refine ⟨p :: qs, by simp [pathsInOrder, hf, hq], by simp [hl], fun j hj => ?_⟩
      cases j with
      | zero => exact ⟨hp, by simpa using hpi⟩
      | succ j =>
        have := hv j (by simpa using hj)
        exact ⟨by simpa using this.1, by simp [this.2]; omega⟩

/-- What `GCODE` makes of a tree: the paths of the leaves in order, and from them the codes or the least leaf whose path is
too long (R135). -/
theorem generateCodes_ok {ft : List FtEntry} {nodes : List Node} {root : Nat} (h : TreeOk ft nodes root)
    (codeMax : Nat) :
    ∃ paths : List LeafPath, paths.length = ft.length ∧
      (∀ i (hi : i < paths.length), PathOf nodes root ft.length i paths[i]) ∧
      generateCodes codeMax nodes root ft.length =
        match paths.findIdx? (fun p => decide (codeMax < p.len)) with
        | some i => .raise .capacity (BitVec.ofNat 32 i)
        | none => .done (paths.map LeafPath.code) := by
  obtain ⟨ps, hps, hall, hsome⟩ := treePaths_ok h
  obtain ⟨qs, hq, hl, hv⟩ := pathsInOrder_ok (ps := ps) ft.length 0 (fun j _ hj => hsome j (by omega))
  refine ⟨qs, hl, fun i hi => ?_, by (simp only [generateCodes, hps, hq]); all_goals rfl⟩
  obtain ⟨hm, hidx⟩ := hv i hi
  have := (hall _ hm).2
  rwa [hidx, Nat.zero_add] at this

end Sys2Proof.Machine
end

