-- ==== Sys2Proof/Laws/Bitstream.lean ====
section
/-! SUPPORT. What the loops of `ENC` and `DEC` can do (43_bitstream.md R150, R151, R155). -/

namespace Sys2Proof.Machine

/-! ## The loop of ENC -/

/-- The codeword of a value, by the lookup that `ENC` makes. -/
theorem codewordFor_eq (ft : List FtEntry) (ct : List Code) (v : Word) :
    codewordFor ft ct v = (lookup ft v).bind fun i => (ct[i]?).map codeBits := by
  induction ft generalizing ct with
  | nil => simp [codewordFor, lookup]
  | cons e ft ih =>
    cases ct with
    | nil => cases h : lookup (e :: ft) v <;> simp [codewordFor]
    | cons c ct =>
      by_cases hv : e.value = v
      · simp [codewordFor, lookup, List.findIdx?_cons, hv]
      · have := ih ct
        simp only [codewordFor, lookup] at this ⊢
        simp only [List.zip_cons_cons, List.find?_cons, List.findIdx?_cons,
          Bool.false_eq_true, if_false, this, beq_eq_false_iff_ne.mpr hv]
        cases List.findIdx? (fun e => e.value == v) ft <;> simp

/-- Values whose codewords fit are encoded, and the loop goes on after them. -/
theorem encodeValues_append {maxBytes : Nat} {ft : List FtEntry} {ct : List Code} (vs : List Word)
    (words : List (List Bool)) (h : CodewordsOf ft ct vs words) (k p : Nat) (rest : List (Option Word))
    (hfit : p + words.flatten.length ≤ 8 * maxBytes) :
    encodeValues maxBytes ft ct k p (vs.map some ++ rest) =
      (encodeValues maxBytes ft ct (k + vs.length) (p + words.flatten.length) rest).map
        (fun bs => words.flatten ++ bs) := by
  induction vs generalizing words k p with
  | nil =>
    obtain rfl : words = [] := by simpa [CodewordsOf] using h
    simp only [List.map_nil, List.nil_append, List.length_nil, List.flatten_nil, Nat.add_zero]
    cases encodeValues maxBytes ft ct k p rest <;> rfl
  | cons v vs ih =>
    cases words with
    | nil => simp [CodewordsOf] at h
    | cons w words =>
      simp only [CodewordsOf, List.map_cons, List.cons.injEq] at h
      obtain ⟨hw, hrest⟩ := h
      rw [codewordFor_eq] at hw
      obtain ⟨i, hi, hw⟩ := Option.bind_eq_some_iff.mp hw.symm
      obtain ⟨c, hc, rfl⟩ := Option.map_eq_some_iff.mp hw
      simp only [List.flatten_cons, List.length_append, codeBits_length] at hfit
      simp only [List.map_cons, List.cons_append, encodeValues, hi, hc]
      rw [if_neg (by omega), ih words hrest (k + 1) (p + c.len) (by omega)]
      simp only [List.length_cons, List.flatten_cons, List.length_append, codeBits_length]
      rw [show k + 1 + vs.length = k + (vs.length + 1) by omega,
        show p + c.len + words.flatten.length = p + (c.len + words.flatten.length) by omega]
      cases encodeValues maxBytes ft ct (k + (vs.length + 1)) (p + (c.len + words.flatten.length)) rest <;>
        simp [Work.map]

/-- Every outcome of the loop of `ENC`, when there is a code for every entry of the table. -/
theorem encodeValues_cases (maxBytes : Nat) {ft : List FtEntry} {ct : List Code} (hl : ct.length = ft.length)
    (cells : List (Option Word)) (k p : Nat) (hp : p ≤ 8 * maxBytes) :
    (∃ vs words, cells = vs.map some ∧ CodewordsOf ft ct vs words ∧ p + words.flatten.length ≤ 8 * maxBytes ∧
      encodeValues maxBytes ft ct k p cells = .done words.flatten) ∨
    (∃ j < cells.length, ∃ code, (code = .noCode ∨ code = .capacity) ∧
      encodeValues maxBytes ft ct k p cells = .raise code (BitVec.ofNat 32 (k + j))) ∨
    (∃ j, cells[j]? = some none ∧ encodeValues maxBytes ft ct k p cells = .stop (.vbufUnspec (k + j))) := by
  induction cells generalizing k p with
  | nil => exact .inl ⟨[], [], rfl, rfl, by simpa using hp, rfl⟩
  | cons c cells ih =>
    cases c with
    | none => exact .inr (.inr ⟨0, rfl, rfl⟩)
    | some v =>
      cases hlk : lookup ft v with
      | none => exact .inr (.inl ⟨0, by simp, .noCode, .inl rfl, by simp [encodeValues, hlk]⟩)
      | some i =>
        have hi : i < ct.length := by rw [hl]; exact (lookup_eq_some.mp hlk).1
        by_cases hfit : 8 * maxBytes < p + (ct[i]).len
        · exact .inr (.inl ⟨0, by simp, .capacity, .inr rfl, by
            simp [encodeValues, hlk, List.getElem?_eq_getElem hi, hfit]⟩)
        · have heq : encodeValues maxBytes ft ct k p (some v :: cells) =
              (encodeValues maxBytes ft ct (k + 1) (p + (ct[i]).len) cells).map (fun bs => codeBits ct[i] ++ bs) := by
            simp [encodeValues, hlk, List.getElem?_eq_getElem hi, hfit]
          have hv : codewordFor ft ct v = some (codeBits ct[i]) := by
            simp [codewordFor_eq, hlk, List.getElem?_eq_getElem hi]
          rcases ih (k + 1) (p + (ct[i]).len) (by omega) with
            ⟨vs, words, rfl, hw, hlen, hd⟩ | ⟨j, hj, code, hc, hr⟩ | ⟨j, hj, hs⟩
          · refine .inl ⟨v :: vs, codeBits ct[i] :: words, rfl, ?_, by
              rw [List.flatten_cons, List.length_append, codeBits_length]; omega, by rw [heq, hd]; rfl⟩
            simp only [CodewordsOf, List.map_cons, hv, List.cons.injEq, true_and]
            exact hw
          · exact .inr (.inl ⟨j + 1, by simpa using hj, code, hc, by
              rw [heq, hr, show k + 1 + j = k + (j + 1) by omega]; rfl⟩)
          · exact .inr (.inr ⟨j + 1, by simpa using hj, by
              rw [heq, hs, show k + 1 + j = k + (j + 1) by omega]; rfl⟩)

/-! ## The loop of DEC -/

/-- One bit of the walk in a tree whose root is internal: it leads to a leaf or to an internal node. -/
theorem walkBit_eq {nodes : List Node} {root k l r l' r' : Nat} {f f' : Word}
    (hroot : nodes[root]? = some (.internal f' l' r')) (hk : nodes[k]? = some (.internal f l r)) (b : Bool) {x : Node}
    (hx : nodes[if b then r else l]? = some x) :
    walkBit nodes root k b = match x with
      | .leaf _ v => .leaf v
      | .internal _ _ _ => .inner (if b then r else l) := by
  cases x <;> simp [walkBit, hroot, hk, hx]

/-- Along a path that leads to an internal node the walk reads the path's bits and emits nothing. -/
theorem decodeBits_inner {maxValues : Nat} {bbuf : Memory Byte} {nodes : List Node} {root l' r' : Nat} {f' : Word}
    {total : Word} (hroot : nodes[root]? = some (.internal f' l' r')) (bs : List Bool) (k j : Nat)
    (hd : descend nodes k bs = some j) {f : Word} {l r : Nat} (hj : nodes[j]? = some (.internal f l r)) (p n m : Nat)
    (hbits : ∀ q < bs.length, streamBit bbuf (p + q) = bs[q]?) :
    decodeBits maxValues bbuf nodes root total (bs.length + n) p k m =
      decodeBits maxValues bbuf nodes root total n (p + bs.length) j m := by
  induction bs generalizing k p with
  | nil =>
    obtain rfl : k = j := by simpa [descend] using hd
    simp
  | cons b bs ih =>
    cases hk : nodes[k]? with
    | none => simp [descend, hk] at hd
    | some x =>
      cases x with
      | leaf g v => simp [descend, hk] at hd
      | internal g kl kr =>
        rw [descend_cons_internal hk] at hd
        have hb : streamBit bbuf p = some b := by simpa using hbits 0 (by simp)
        have hrest : ∀ q < bs.length, streamBit bbuf (p + 1 + q) = bs[q]? := fun q hq => by
          have := hbits (q + 1) (by simpa using hq)
          rwa [show p + (q + 1) = p + 1 + q by omega, List.getElem?_cons_succ] at this
        have hchild : ∃ g' cl cr, nodes[if b then kr else kl]? = some (.internal g' cl cr) := by
          cases bs with
          | nil =>
            simp only [descend, Option.some.injEq] at hd
            exact ⟨f, l, r, by rw [hd]; exact hj⟩
          | cons b' bs =>
            simp only [descend] at hd
            cases hc : nodes[if b then kr else kl]? with
            | none => simp [hc] at hd
            | some y =>
              cases y with
              | leaf g' v => simp [hc] at hd
              | internal g' cl cr => exact ⟨g', cl, cr, rfl⟩
        obtain ⟨g', cl, cr, hc⟩ := hchild
        rw [List.length_cons, show bs.length + 1 + n = bs.length + n + 1 by omega]
        simp only [decodeBits, hb, walkBit_eq hroot hk b hc]
        rw [ih _ hd (p + 1) hrest, show p + 1 + bs.length = p + (bs.length + 1) by omega]

/-- Along a path that leads to a leaf the walk reads the path's bits and emits the leaf's value, unless the buffer is
full. -/
theorem decodeBits_leaf {maxValues : Nat} {bbuf : Memory Byte} {nodes : List Node} {root l' r' : Nat} {f' : Word}
    {total : Word} (hroot : nodes[root]? = some (.internal f' l' r')) (bs : List Bool) (k j : Nat)
    (hd : descend nodes k bs = some j) {f v : Word} (hj : nodes[j]? = some (.leaf f v)) (hne : bs ≠ []) (p n m : Nat)
    (hbits : ∀ q < bs.length, streamBit bbuf (p + q) = bs[q]?) :
    decodeBits maxValues bbuf nodes root total (bs.length + n) p k m =
      if m = maxValues then .raise .capacity (BitVec.ofNat 32 (p + bs.length - 1))
      else (decodeBits maxValues bbuf nodes root total n (p + bs.length) root (m + 1)).map (fun out => v :: out) := by
  obtain ⟨bs, b, rfl⟩ : ∃ cs b, bs = cs ++ [b] := by
    rcases List.eq_nil_or_concat bs with h | ⟨cs, b, h⟩
    · exact absurd h hne
    · exact ⟨cs, b, by rw [h, List.concat_eq_append]⟩
  rw [descend_append] at hd
  obtain ⟨q, hq, hd⟩ := Option.bind_eq_some_iff.mp hd
  cases hqn : nodes[q]? with
  | none => simp [descend, hqn] at hd
  | some x =>
    cases x with
    | leaf g w => simp [descend, hqn] at hd
    | internal g ql qr =>
      rw [descend_cons_internal hqn] at hd
      simp only [descend, Option.some.injEq] at hd
      have hfirst : ∀ i < bs.length, streamBit bbuf (p + i) = bs[i]? := fun i hi => by
        have := hbits i (by simp; omega)
        rwa [List.getElem?_append_left hi] at this
      have hlast : streamBit bbuf (p + bs.length) = some b := by
        simpa using hbits bs.length (by simp)
      rw [List.length_append, List.length_singleton, show bs.length + 1 + n = bs.length + (n + 1) by omega,
        decodeBits_inner hroot bs k q hq hqn p (n + 1) m hfirst]
      simp only [decodeBits, hlast, walkBit_eq hroot hqn b (by rw [hd]; exact hj)]
      rw [show p + (bs.length + 1) - 1 = p + bs.length by omega, show p + (bs.length + 1) = p + bs.length + 1 by omega]

/-- One bit of the walk from a node that is internal or the root of the tree of a table: it never leaves the tree. -/
theorem walkBit_cases {ft : List FtEntry} {nodes : List Node} {root : Nat} (h : TreeOk ft nodes root) {k : Nat}
    (hk : k = root ∨ (ft.length ≤ k ∧ k ≤ root)) (b : Bool) :
    (∃ v, walkBit nodes root k b = .leaf v) ∨
    (∃ j, walkBit nodes root k b = .inner j ∧ ft.length ≤ j ∧ j ≤ root) ∨
    (walkBit nodes root k b = .missing ∧ ft.length = 1) := by
  have hroot := h.rootLast
  have hpos := h.nonempty
  by_cases h1 : ft.length = 1
  · have hl := h.leafAt (show root < ft.length by omega)
    cases b with
    | false => exact .inl ⟨(ft[root]'(by omega)).value, by simp [walkBit, hl]⟩
    | true => exact .inr (.inr ⟨by simp [walkBit, hl], h1⟩)
  · obtain ⟨f', l', r', hr, -⟩ := h.innerAt (show ft.length ≤ root by omega) h.rootLt
    have hkr : ft.length ≤ k ∧ k ≤ root := by rcases hk with rfl | hk <;> omega
    have hcount := h.count
    obtain ⟨f, l, r, hkn, hl, hrlt, -⟩ := h.innerAt hkr.1 (by omega)
    have hc : (if b then r else l) < k := by cases b <;> simp <;> omega
    by_cases hleaf : (if b then r else l) < ft.length
    · exact .inl ⟨_, by rw [walkBit_eq hr hkn b (h.leafAt hleaf)]⟩
    · obtain ⟨f2, l2, r2, hcn, -⟩ := h.innerAt (k := if b then r else l) (by omega) (by omega)
      exact .inr (.inl ⟨_, by rw [walkBit_eq hr hkn b hcn], by omega, by omega⟩)

/-- Every outcome of the loop of `DEC` over the tree of a table: values that fit, a data error, or a stop at an `UNSPEC`
byte of the stream. -/
theorem decodeBits_cases {maxValues : Nat} {bbuf : Memory Byte} {ft : List FtEntry} {nodes : List Node} {root : Nat}
    {total : Word} (h : TreeOk ft nodes root) (n p k m : Nat) (hk : k = root ∨ (ft.length ≤ k ∧ k ≤ root))
    (hm : m ≤ maxValues) :
    (∃ out, decodeBits maxValues bbuf nodes root total n p k m = .done out ∧ m + out.length ≤ maxValues) ∨
    (∃ code info, (code = .walk ∨ code = .capacity) ∧
      decodeBits maxValues bbuf nodes root total n p k m = .raise code info) ∨
    (∃ q, p ≤ q ∧ q < p + n ∧ streamBit bbuf q = none ∧
      decodeBits maxValues bbuf nodes root total n p k m = .stop (.bbufUnspec (q / 8))) := by
  induction n generalizing p k m with
  | zero =>
    by_cases hr : k = root
    · exact .inl ⟨[], by simp [decodeBits, hr], by simpa using hm⟩
    · exact .inr (.inl ⟨.walk, total, .inl rfl, by simp [decodeBits, hr]⟩)
  | succ n ih =>
    cases hb : streamBit bbuf p with
    | none => exact .inr (.inr ⟨p, le_rfl, by omega, hb, by simp [decodeBits, hb]⟩)
    | some b =>
      rcases walkBit_cases h hk b with ⟨v, hw⟩ | ⟨j, hw, hj1, hj2⟩ | ⟨hw, -⟩
      · by_cases hfull : m = maxValues
        · exact .inr (.inl ⟨.capacity, BitVec.ofNat 32 p, .inr rfl, by simp [decodeBits, hb, hw, hfull]⟩)
        · simp only [decodeBits, hb, hw, hfull, if_false]
          rcases ih (p + 1) root (m + 1) (.inl rfl) (by omega) with ⟨out, hd, hl⟩ | ⟨code, info, hc, hr⟩ | ⟨q, h1, h2, h3, hs⟩
          · exact .inl ⟨v :: out, by rw [hd]; rfl, by simp; omega⟩
          · exact .inr (.inl ⟨code, info, hc, by rw [hr]; rfl⟩)
          · exact .inr (.inr ⟨q, by omega, by omega, h3, by rw [hs]; rfl⟩)
      · simp only [decodeBits, hb, hw]
        rcases ih (p + 1) j m (.inr ⟨hj1, hj2⟩) hm with ⟨out, hd, hl⟩ | ⟨code, info, hc, hr⟩ | ⟨q, h1, h2, h3, hs⟩
        · exact .inl ⟨out, hd, hl⟩
        · exact .inr (.inl ⟨code, info, hc, hr⟩)
        · exact .inr (.inr ⟨q, by omega, by omega, h3, hs⟩)
      · exact .inr (.inl ⟨.walk, BitVec.ofNat 32 p, .inl rfl, by simp only [decodeBits, hb, hw]⟩)

/-- The walk looks at no bit past the end of the stream (R153). -/
theorem decodeBits_congr {maxValues : Nat} {bbuf bbuf' : Memory Byte} {nodes : List Node} {root : Nat} {total : Word}
    (n p k m : Nat) (h : ∀ q, p ≤ q → q < p + n → streamBit bbuf' q = streamBit bbuf q) :
    decodeBits maxValues bbuf' nodes root total n p k m = decodeBits maxValues bbuf nodes root total n p k m := by
  induction n generalizing p k m with
  | zero => rfl
  | succ n ih =>
    have hrec : ∀ k m, decodeBits maxValues bbuf' nodes root total n (p + 1) k m =
        decodeBits maxValues bbuf nodes root total n (p + 1) k m := fun k m =>
      ih (p + 1) k m fun q h1 h2 => h q (by omega) (by omega)
    simp only [decodeBits, h p le_rfl (by omega), hrec]

end Sys2Proof.Machine
end

