-- ==== Sys2Proof/Laws/Decode.lean ====
section
/-! SUPPORT. The fields of a command word and of an encoding (30_encoding.md R90). -/

namespace Sys2Proof

/-- A command word is its three fields. -/
theorem word_fields (c : Word) : rsvField c ++ (argField c ++ opField c) = c := by
  have h : ∀ i, (rsvField c ++ (argField c ++ opField c)).getLsbD i = c.getLsbD i := fun i => by
    simp only [rsvField, argField, opField, BitVec.getLsbD_append, BitVec.getLsbD_extractLsb']
    by_cases h8 : i < 8
    · simp [h8, show i < 16 by omega]
    · by_cases h16 : i < 16
      · simp [h8, h16, show 8 + (i - 8) = i by omega, show i - 8 < 8 by omega]
      · by_cases h32 : i < 32
        · simp [h16, show 16 + (i - 16) = i by omega, show i - 16 < 16 by omega]
        · simp [h16, show ¬ i - 16 < 16 by omega, BitVec.getLsbD_of_ge c i (by omega)]
  exact BitVec.eq_of_getLsbD_eq fun i _ => h i

/-- The bits of a command's word: the opcode, then `arg`, then 0. -/
theorem encode_getLsbD (i : Instr) (j : Nat) : (encode i).getLsbD j =
    if j < 8 then i.opcode.code.getLsbD j else i.argByte.getLsbD (j - 8) := by
  have h : (0#16 ++ (i.argByte ++ i.opcode.code)).getLsbD j =
      if j < 8 then i.opcode.code.getLsbD j else i.argByte.getLsbD (j - 8) := by
    simp only [BitVec.getLsbD_append]
    by_cases h8 : j < 8
    · simp [h8, show j < 16 by omega]
    · by_cases h16 : j < 16
      · simp [h8, h16]
      · simp [h8, h16, BitVec.getLsbD_of_ge i.argByte (j - 8) (by omega)]
  exact h

@[simp] theorem rsvField_encode (i : Instr) : rsvField (encode i) = 0#16 := by
  apply BitVec.eq_of_getLsbD_eq
  intro j hj
  simp [rsvField, encode_getLsbD, show ¬ 16 + j < 8 by omega, BitVec.getLsbD_of_ge i.argByte (16 + j - 8) (by omega)]

@[simp] theorem argField_encode (i : Instr) : argField (encode i) = i.argByte := by
  apply BitVec.eq_of_getLsbD_eq
  intro j hj
  simp [argField, encode_getLsbD, hj]

@[simp] theorem opField_encode (i : Instr) : opField (encode i) = i.opcode.code := by
  apply BitVec.eq_of_getLsbD_eq
  intro j hj
  simp [opField, encode_getLsbD, hj]

/-- The opcode values of R93 are distinct, so looking one up gives it back. -/
@[simp] theorem ofByte?_code (o : Opcode) : Opcode.ofByte? o.code = some o := by cases o <;> rfl

/-- A byte that names an opcode is that opcode's value. -/
theorem ofByte?_eq_some {b : Byte} {o : Opcode} (h : Opcode.ofByte? b = some o) : o.code = b := by
  simpa using List.find?_some h

end Sys2Proof
end

