-- ==== Sys2Proof/Laws/Delta.lean ====
section
/-! SUPPORT. What the loops of the delta commands can do (40_delta.md R110, R111). -/

namespace Sys2Proof.Machine

theorem valueAt_eq {vs : List Word} {k : Nat} (h : k < vs.length) : valueAt vs k = (vs[k]).toInt := by
  simp [valueAt, List.getD_eq_getElem?_getD, List.getElem?_eq_getElem h]

/-! ## Every outcome: lengths, codes and stops -/

/-- The three ways the `DENC` loop ends: one result per cell; `E_RANGE`; a stop at an `UNSPEC` cell. -/
theorem encodeDeltas_cases (cells : List (Option Word)) (k : Nat) (a b : Word) :
    (∃ out, encodeDeltas k a b cells = .done out ∧ out.length = cells.length) ∨
    (∃ j < cells.length, encodeDeltas k a b cells = .raise .range (BitVec.ofNat 32 (k + j))) ∨
    (∃ j, cells[j]? = some none ∧ encodeDeltas k a b cells = .stop (.vbufUnspec (k + j))) := by
  induction cells generalizing k a b with
  | nil => exact .inl ⟨[], rfl, rfl⟩
  | cons c cells ih =>
    cases c with
    | none => exact .inr (.inr ⟨0, rfl, rfl⟩)
    | some x =>
      simp only [encodeDeltas]
      split
      · exact .inr (.inl ⟨0, by simp, by simp⟩)
      · rename_i d _
        rcases ih (k + 1) b x with ⟨out, h, hl⟩ | ⟨j, hj, h⟩ | ⟨j, hj, h⟩
        · exact .inl ⟨d :: out, by simp [h, Work.map], by simp [hl]⟩
        · exact .inr (.inl ⟨j + 1, by simpa using hj, by simp [h, Work.map, Nat.add_assoc, Nat.add_comm 1]⟩)
        · exact .inr (.inr ⟨j + 1, by simpa using hj, by simp [h, Work.map, Nat.add_assoc, Nat.add_comm 1]⟩)

/-- The three ways the `DDEC` loop ends. -/
theorem decodeDeltas_cases (cells : List (Option Word)) (k : Nat) (a b : Word) :
    (∃ out, decodeDeltas k a b cells = .done out ∧ out.length = cells.length) ∨
    (∃ j < cells.length, decodeDeltas k a b cells = .raise .range (BitVec.ofNat 32 (k + j))) ∨
    (∃ j, cells[j]? = some none ∧ decodeDeltas k a b cells = .stop (.vbufUnspec (k + j))) := by
  induction cells generalizing k a b with
  | nil => exact .inl ⟨[], rfl, rfl⟩
  | cons c cells ih =>
    cases c with
    | none => exact .inr (.inr ⟨0, rfl, rfl⟩)
    | some d =>
      simp only [decodeDeltas]
      split
      · exact .inr (.inl ⟨0, by simp, by simp⟩)
      · rename_i x _
        rcases ih (k + 1) b x with ⟨out, h, hl⟩ | ⟨j, hj, h⟩ | ⟨j, hj, h⟩
        · exact .inl ⟨x :: out, by simp [h, Work.map], by simp [hl]⟩
        · exact .inr (.inl ⟨j + 1, by simpa using hj, by simp [h, Work.map, Nat.add_assoc, Nat.add_comm 1]⟩)
        · exact .inr (.inr ⟨j + 1, by simpa using hj, by simp [h, Work.map, Nat.add_assoc, Nat.add_comm 1]⟩)

/-! ## The values (R110, R111) -/

/-- One round of `DENC`: what is stored at index `k` when the holding registers hold `in[k-2]` and `in[k-1]`. -/
theorem encode_round {vs : List Word} {k : Nat} (hk : k < vs.length) {a : Word}
    (ha : 2 ≤ k → a.toInt = valueAt vs (k - 2)) :
    (inRange (deltaAt vs k) = true →
      ∃ d, (if k < 2 then some vs[k] else narrow ((vs[k]).toInt - a.toInt)) = some d ∧ d.toInt = deltaAt vs k) ∧
    (inRange (deltaAt vs k) = false →
      (if k < 2 then some vs[k] else narrow ((vs[k]).toInt - a.toInt)) = none) := by
  by_cases h2 : k < 2
  · simp only [deltaAt, h2, if_true, valueAt_eq hk]
    exact ⟨fun _ => ⟨_, rfl, rfl⟩, fun h => by rw [toInt_inRange] at h; cases h⟩
  · simp only [deltaAt, h2, if_false, ha (by omega), valueAt_eq hk]
    exact ⟨narrow_of_inRange, narrow_of_not_inRange⟩

/-- The `DENC` loop from index `k`, when every difference from there fits. -/
theorem encodeDeltas_done (vs : List Word) (n k : Nat) (hn : k + n = vs.length) (a b : Word)
    (ha : 2 ≤ k → a.toInt = valueAt vs (k - 2)) (hb : 1 ≤ k → b.toInt = valueAt vs (k - 1))
    (h : ∀ j, k ≤ j → j < vs.length → inRange (deltaAt vs j) = true) :
    ∃ out, encodeDeltas k a b ((vs.drop k).map some) = .done out ∧ out.length = n ∧
      ∀ j (hj : j < out.length), (out[j]).toInt = deltaAt vs (k + j) := by
  induction n generalizing k a b with
  | zero => rw [List.drop_eq_nil_of_le (by omega)]; exact ⟨[], rfl, rfl, by simp⟩
  | succ n ih =>
    have hk : k < vs.length := by omega
    obtain ⟨d, hd, hdv⟩ := (encode_round hk ha).1 (h k le_rfl hk)
    obtain ⟨out, ho, hl, hv⟩ := ih (k + 1) (by omega) b vs[k]
      (fun _ => by rw [hb (by omega)]; congr 1) (fun _ => by rw [Nat.add_sub_cancel, valueAt_eq hk])
      (fun j hj => h j (by omega))
    refine ⟨d :: out, ?_, by simp [hl], fun j hj => ?_⟩
    · rw [List.drop_eq_getElem_cons hk, List.map_cons, encodeDeltas, hd]; simp only [ho, Work.map]
    · cases j with
      | zero => exact hdv
      | succ j =>
        simp only [List.getElem_cons_succ]
        rw [hv j (by simpa using hj)]; congr 1; omega

/-- The `DENC` loop from index `k`, when index `k + n` is the least that overflows. -/
theorem encodeDeltas_raise (vs : List Word) (n k : Nat) (hn : k + n < vs.length) (a b : Word)
    (ha : 2 ≤ k → a.toInt = valueAt vs (k - 2)) (hb : 1 ≤ k → b.toInt = valueAt vs (k - 1))
    (h : ∀ j, k ≤ j → j < k + n → inRange (deltaAt vs j) = true) (hbad : inRange (deltaAt vs (k + n)) = false) :
    encodeDeltas k a b ((vs.drop k).map some) = .raise .range (BitVec.ofNat 32 (k + n)) := by
  induction n generalizing k a b with
  | zero =>
    have hk : k < vs.length := by omega
    rw [List.drop_eq_getElem_cons hk, List.map_cons, encodeDeltas, (encode_round hk ha).2 hbad]; rfl
  | succ n ih =>
    have hk : k < vs.length := by omega
    obtain ⟨d, hd, -⟩ := (encode_round hk ha).1 (h k le_rfl (by omega))
    rw [List.drop_eq_getElem_cons hk, List.map_cons, encodeDeltas, hd]
    simp only
    rw [ih (k + 1) (by omega) b vs[k] (fun _ => by rw [hb (by omega)]; congr 1)
      (fun _ => by rw [Nat.add_sub_cancel, valueAt_eq hk]) (fun j hj hj' => h j (by omega) (by omega))
      (by rwa [show k + 1 + n = k + (n + 1) by omega])]
    simp [Work.map, show k + 1 + n = k + (n + 1) by omega]

/-- The running sum at index `k` from the one two places before (R111). -/
theorem sumAt_of_two_le {vs : List Word} {k : Nat} (h : 2 ≤ k) : sumAt vs k = valueAt vs k + sumAt vs (k - 2) := by
  obtain ⟨k, rfl⟩ := Nat.exists_eq_add_of_le' h
  rfl

theorem sumAt_of_lt_two {vs : List Word} {k : Nat} (h : k < 2) : sumAt vs k = valueAt vs k := by
  have : k = 0 ∨ k = 1 := by omega
  rcases this with rfl | rfl <;> rfl

/-- One round of `DDEC`: what is stored at index `k` when the holding register holds `out[k-2]`. -/
theorem decode_round {vs : List Word} {k : Nat} (hk : k < vs.length) {a : Word}
    (ha : 2 ≤ k → a.toInt = sumAt vs (k - 2)) :
    (inRange (sumAt vs k) = true →
      ∃ x, (if k < 2 then some vs[k] else narrow ((vs[k]).toInt + a.toInt)) = some x ∧ x.toInt = sumAt vs k) ∧
    (inRange (sumAt vs k) = false →
      (if k < 2 then some vs[k] else narrow ((vs[k]).toInt + a.toInt)) = none) := by
  by_cases h2 : k < 2
  · simp only [sumAt_of_lt_two h2, h2, if_true, valueAt_eq hk]
    exact ⟨fun _ => ⟨_, rfl, rfl⟩, fun h => by rw [toInt_inRange] at h; cases h⟩
  · simp only [sumAt_of_two_le (show 2 ≤ k by omega), h2, if_false, ha (by omega), valueAt_eq hk]
    exact ⟨narrow_of_inRange, narrow_of_not_inRange⟩

/-- The `DDEC` loop from index `k`, when every running sum from there fits. -/
theorem decodeDeltas_done (vs : List Word) (n k : Nat) (hn : k + n = vs.length) (a b : Word)
    (ha : 2 ≤ k → a.toInt = sumAt vs (k - 2)) (hb : 1 ≤ k → b.toInt = sumAt vs (k - 1))
    (h : ∀ j, k ≤ j → j < vs.length → inRange (sumAt vs j) = true) :
    ∃ out, decodeDeltas k a b ((vs.drop k).map some) = .done out ∧ out.length = n ∧
      ∀ j (hj : j < out.length), (out[j]).toInt = sumAt vs (k + j) := by
  induction n generalizing k a b with
  | zero => rw [List.drop_eq_nil_of_le (by omega)]; exact ⟨[], rfl, rfl, by simp⟩
  | succ n ih =>
    have hk : k < vs.length := by omega
    obtain ⟨x, hx, hxv⟩ := (decode_round hk ha).1 (h k le_rfl hk)
    obtain ⟨out, ho, hl, hv⟩ := ih (k + 1) (by omega) b x
      (fun _ => by rw [hb (by omega)]; congr 1) (fun _ => by rw [Nat.add_sub_cancel, hxv])
      (fun j hj => h j (by omega))
    refine ⟨x :: out, ?_, by simp [hl], fun j hj => ?_⟩
    · rw [List.drop_eq_getElem_cons hk, List.map_cons, decodeDeltas, hx]; simp only [ho, Work.map]
    · cases j with
      | zero => exact hxv
      | succ j =>
        simp only [List.getElem_cons_succ]
        rw [hv j (by simpa using hj)]; congr 1; omega

/-- The `DDEC` loop from index `k`, when index `k + n` is the least that overflows. -/
theorem decodeDeltas_raise (vs : List Word) (n k : Nat) (hn : k + n < vs.length) (a b : Word)
    (ha : 2 ≤ k → a.toInt = sumAt vs (k - 2)) (hb : 1 ≤ k → b.toInt = sumAt vs (k - 1))
    (h : ∀ j, k ≤ j → j < k + n → inRange (sumAt vs j) = true) (hbad : inRange (sumAt vs (k + n)) = false) :
    decodeDeltas k a b ((vs.drop k).map some) = .raise .range (BitVec.ofNat 32 (k + n)) := by
  induction n generalizing k a b with
  | zero =>
    have hk : k < vs.length := by omega
    rw [List.drop_eq_getElem_cons hk, List.map_cons, decodeDeltas, (decode_round hk ha).2 hbad]; rfl
  | succ n ih =>
    have hk : k < vs.length := by omega
    obtain ⟨x, hx, hxv⟩ := (decode_round hk ha).1 (h k le_rfl (by omega))
    rw [List.drop_eq_getElem_cons hk, List.map_cons, decodeDeltas, hx]
    simp only
    rw [ih (k + 1) (by omega) b x (fun _ => by rw [hb (by omega)]; congr 1)
      (fun _ => by rw [Nat.add_sub_cancel, hxv]) (fun j hj hj' => h j (by omega) (by omega))
      (by rwa [show k + 1 + n = k + (n + 1) by omega])]
    simp [Work.map, show k + 1 + n = k + (n + 1) by omega]

end Sys2Proof.Machine
end

