-- ==== Sys2Proof/Laws/Frequency.lean ====
section
/-! SUPPORT. What the counting loop of `FCNT` can do (41_frequency_table.md R121). -/

namespace Sys2Proof.Machine

/-- `ft` is the frequency table of the values `us` (R121): ascending, with one entry per distinct value and its number of
occurrences. -/
structure TableOf (us : List Word) (ft : List FtEntry) : Prop where
  ascending : ft.Pairwise (fun a b => a.value.toInt < b.value.toInt)
  entries : ∀ e, e ∈ ft ↔ e.value ∈ us ∧ e.count = BitVec.ofNat 32 (us.count e.value)

theorem tableOf_nil : TableOf [] [] := ⟨List.Pairwise.nil, by simp⟩

/-- In an ascending table two entries of one value are at one index. -/
theorem ascending_index {ft : List FtEntry} (h : ft.Pairwise (fun a b => a.value.toInt < b.value.toInt)) {i j : Nat}
    (hi : i < ft.length) (hj : j < ft.length) (hv : ft[i].value = ft[j].value) : i = j := by
  rw [List.pairwise_iff_getElem] at h
  rcases Nat.lt_trichotomy i j with hlt | heq | hgt
  · have := h i j hi hj hlt; rw [hv] at this; omega
  · exact heq
  · have := h j i hj hi hgt; rw [hv] at this; omega

/-- The values of an ascending table are distinct. -/
theorem ascending_nodup {ft : List FtEntry} (h : ft.Pairwise (fun a b => a.value.toInt < b.value.toInt)) :
    (ft.map FtEntry.value).Nodup := by
  rw [List.Nodup, List.pairwise_map]
  exact h.imp fun hab heq => by rw [heq] at hab; omega

/-- Counting one more occurrence of a value that is in the table. -/
theorem TableOf.bump {us : List Word} {ft : List FtEntry} (h : TableOf us ft) {v : Word} {i : Nat}
    (hi : lookup ft v = some i) : TableOf (us ++ [v]) (bumpCount i ft) := by
  obtain ⟨hlt, hv, -⟩ := lookup_eq_some.mp hi
  have hasc : (bumpCount i ft).Pairwise (fun a b => a.value.toInt < b.value.toInt) := by
    have := h.ascending
    rw [← List.pairwise_map (f := FtEntry.value) (R := fun a b : Word => a.toInt < b.toInt)] at this ⊢
    rwa [bumpCount_values]
  refine ⟨hasc, fun e => ?_⟩
  have hmem : v ∈ us := by rw [← hv]; exact ((h.entries _).mp (List.getElem_mem hlt)).1
  rw [List.mem_iff_getElem]
  constructor
  · rintro ⟨j, hj, rfl⟩
    have hj' : j < ft.length := by simpa using hj
    have he := (h.entries _).mp (List.getElem_mem hj')
    simp only [bumpCount, List.getElem_modify]
    by_cases hij : i = j
    · subst hij
      rw [if_pos rfl]
      refine ⟨by simp [hv], ?_⟩
      rw [he.2, hv, List.count_append]
      simp [BitVec.ofNat_add]
    · rw [if_neg hij]
      have hne : ft[j].value ≠ v := fun heq => hij (ascending_index h.ascending hlt hj' (by rw [hv, heq]))
      refine ⟨by simp [he.1], ?_⟩
      rw [he.2, List.count_append, List.count_singleton]
      simp [Ne.symm hne]
  · rintro ⟨hm, hc⟩
    by_cases hev : e.value = v
    · refine ⟨i, by simpa using hlt, ?_⟩
      simp only [bumpCount, List.getElem_modify, if_true]
      have he := (h.entries _).mp (List.getElem_mem hlt)
      cases e with
      | mk ev ec =>
        simp only at hev hc
        rw [FtEntry.mk.injEq]
        refine ⟨by rw [hv, hev], ?_⟩
        rw [hc, he.2, hv, hev, List.count_append]
        simp [BitVec.ofNat_add]
    · have hm' : e.value ∈ us := by simpa [hev] using hm
      have hin : e ∈ ft := (h.entries e).mpr ⟨hm', by rw [hc, List.count_append, List.count_singleton]; simp [Ne.symm hev]⟩
      obtain ⟨j, hj, rfl⟩ := List.mem_iff_getElem.mp hin
      refine ⟨j, by simpa using hj, ?_⟩
      simp only [bumpCount, List.getElem_modify]
      rw [if_neg]
      rintro rfl
      exact hev hv

/-- Counting the first occurrence of a value. -/
theorem TableOf.insert {us : List Word} {ft : List FtEntry} (h : TableOf us ft) {v : Word}
    (hi : lookup ft v = none) : TableOf (us ++ [v]) (insertEntry { value := v, count := 1#32 } ft) := by
  have hn := lookup_eq_none.mp hi
  have hv : v ∉ us := fun hm => hn { value := v, count := BitVec.ofNat 32 (us.count v) } ((h.entries _).mpr ⟨hm, rfl⟩) rfl
  refine ⟨insertEntry_ascending h.ascending hn, fun e => ?_⟩
  rw [insertEntry_mem, h.entries]
  by_cases hev : e.value = v
  · simp only [hev, hv, false_and, or_false, List.mem_append, List.mem_singleton, or_true, true_and]
    rw [List.count_append, List.count_eq_zero_of_not_mem hv]
    cases e with
    | mk ev ec => simp only at hev; simp [hev]
  · have hne : e ≠ { value := v, count := 1#32 } := fun he => hev (by rw [he])
    simp only [hne, false_or, List.mem_append, List.mem_singleton, hev, or_false]
    rw [List.count_append, List.count_singleton]
    simp [Ne.symm hev]

/-- A table of `us` has as many entries as `us` has distinct values. -/
theorem TableOf.length_eq {us : List Word} {ft : List FtEntry} (h : TableOf us ft) : ft.length = us.dedup.length := by
  have hperm : List.Perm (ft.map FtEntry.value) us.dedup := by
    rw [List.perm_ext_iff_of_nodup (ascending_nodup h.ascending) (List.nodup_dedup us)]
    intro v
    rw [List.mem_dedup, List.mem_map]
    constructor
    · rintro ⟨e, he, rfl⟩; exact ((h.entries e).mp he).1
    · intro hv; exact ⟨⟨v, BitVec.ofNat 32 (us.count v)⟩, (h.entries _).mpr ⟨hv, rfl⟩, rfl⟩
  simpa using hperm.length_eq

/-- The value is in the table exactly when it was counted. -/
theorem TableOf.lookup_eq_none {us : List Word} {ft : List FtEntry} (h : TableOf us ft) {v : Word} :
    lookup ft v = none ↔ v ∉ us := by
  rw [Machine.lookup_eq_none]
  constructor
  · intro hn hv; exact hn ⟨v, BitVec.ofNat 32 (us.count v)⟩ ((h.entries _).mpr ⟨hv, rfl⟩) rfl
  · intro hv e he heq; exact hv (heq ▸ ((h.entries e).mp he).1)

/-- How the counting loop ends: with a table of all the values, with `E_CAPACITY` at a value that does not fit, or with a
stop at an `UNSPEC` cell. -/
def CountOutcome (maxSyms k : Nat) (us : List Word) (ft : List FtEntry) (cells : List (Option Word)) : Prop :=
  (∃ vs ft', cells = vs.map some ∧ countValues maxSyms k ft cells = .done ft' ∧ TableOf (us ++ vs) ft' ∧
    ft'.length ≤ maxSyms) ∨
  (∃ j < cells.length, countValues maxSyms k ft cells = .raise .capacity (BitVec.ofNat 32 (k + j))) ∨
  (∃ j, cells[j]? = some none ∧ countValues maxSyms k ft cells = .stop (.vbufUnspec (k + j)))

/-- One more value counted: the outcome is that of the rest. -/
theorem CountOutcome.next {maxSyms k : Nat} {us : List Word} {v : Word} {ft ft1 : List FtEntry}
    {cells : List (Option Word)}
    (heq : countValues maxSyms k ft (some v :: cells) = countValues maxSyms (k + 1) ft1 cells)
    (h : CountOutcome maxSyms (k + 1) (us ++ [v]) ft1 cells) : CountOutcome maxSyms k us ft (some v :: cells) := by
  rcases h with ⟨vs, ft', hc, hd, ht, hl⟩ | ⟨j, hj, hr⟩ | ⟨j, hj, hr⟩
  · exact .inl ⟨v :: vs, ft', by simp [hc], by rw [heq, hd], by simpa using ht, hl⟩
  · exact .inr (.inl ⟨j + 1, by simpa using hj, by rw [heq, hr, Nat.add_right_comm, Nat.add_assoc]⟩)
  · exact .inr (.inr ⟨j + 1, by simpa using hj, by rw [heq, hr, Nat.add_right_comm, Nat.add_assoc]⟩)

/-- Every outcome of the counting loop. -/
theorem countValues_cases (maxSyms : Nat) (cells : List (Option Word)) (k : Nat) (us : List Word) (ft : List FtEntry)
    (h : TableOf us ft) (hfit : ft.length ≤ maxSyms) : CountOutcome maxSyms k us ft cells := by
  induction cells generalizing k us ft with
  | nil => exact .inl ⟨[], ft, rfl, rfl, by simpa using h, hfit⟩
  | cons c cells ih =>
    cases c with
    | none => exact .inr (.inr ⟨0, rfl, rfl⟩)
    | some v =>
      cases hl : lookup ft v with
      | some i =>
        exact CountOutcome.next (by simp [countValues, hl]) (ih (k + 1) _ _ (h.bump hl) (by simpa using hfit))
      | none =>
        by_cases hfull : ft.length = maxSyms
        · exact .inr (.inl ⟨0, by simp, by simp [countValues, hl, hfull]⟩)
        · exact CountOutcome.next (by simp [countValues, hl, hfull])
            (ih (k + 1) _ _ (h.insert hl) (by simp; omega))

end Sys2Proof.Machine
end

