-- ==== Sys2Proof/Laws/Port.lean ====
section
/-! SUPPORT. What a step can be (10_state.md R39, 20_memory.md R61 to R64, 30_encoding.md R101). -/

namespace Sys2Proof.Machine

/-- The register at an offset is the one whose offset it is (R22). -/
theorem regAt_eq_some {o : Nat} {r : Reg} : regAt o = some r ↔ r.offset = o := by
  constructor
  · intro h; simpa [regAt] using List.find?_some h
  · rintro rfl; cases r <;> rfl

/-- `CMD` is at byte address 0x10 and nowhere else. -/
theorem locate_eq_cmd {P : Config.Params} {a : Nat} : locate P a = .reg .cmd ↔ a = 0x10 := by
  constructor
  · intro h
    unfold locate at h
    split at h
    · cases hr : regAt a with
      | none => rw [hr] at h; cases h
      | some r =>
        rw [hr] at h
        obtain rfl : r = .cmd := by simpa using h
        exact (regAt_eq_some.mp hr).symm
    all_goals ((try unfold windowLoc at h); (try split at h) <;> cases h)
  · rintro rfl; rfl

/-- A write to any location but `CMD` answers a next state at once (R64). -/
theorem memWrite_of_ne_cmd {P : Config.Params} {a : Nat} (h : a ≠ 0x10) (v : Word) (s : State) :
    memWrite P v s a = .next (writeLoc v s (locate P a)) := by
  have hne : locate P a ≠ .reg .cmd := fun hc => h (locate_eq_cmd.mp hc)
  unfold memWrite
  split
  · rename_i hc; exact absurd hc hne
  · rfl

/-- A write to `CMD` is a command (R23). -/
theorem memWrite_cmd (P : Config.Params) (c : Word) (s : State) : memWrite P c s 0x10 = command P c s := rfl

/-- A command word that answers a next state: a legal command ran, or an illegal word was ignored or recorded. -/
theorem command_next {P : Config.Params} {c : Word} {s t : State} (h : command P c s = .next t) :
    (∃ i, decode c = .instr i ∧ execWith P i s = .next t) ∨
    (∃ why, decode c = .illegal why ∧
      ((s.err = true ∧ t = s) ∨ (s.err = false ∧ t = raiseError .illCmd 0#32 c s))) := by
  unfold command at h
  split at h
  · rename_i i hi; exact .inl ⟨i, hi, h⟩
  · rename_i why hw
    refine .inr ⟨why, hw, ?_⟩
    rcases gated_next h with ⟨he, ht⟩ | ⟨he, ht⟩
    · exact .inl ⟨he, ht⟩
    · exact .inr ⟨he, by injection ht with ht; exact ht.symm⟩

/-- `exec` is `execWith` for HDC-1's parameter values. -/
theorem execWith_hdc1 (i : Instr) (s : State) : execWith Config.hdc1 i s = exec i s := by cases i <;> rfl

/-- `step` is `stepWith` for HDC-1's parameter values. -/
theorem stepWith_hdc1 (s : State) : stepWith Config.hdc1 s = step s := rfl

/-- Everything a step that answers a next state can be, for any parameters. -/
theorem stepWith_next {P : Config.Params} {s t : State} (h : stepWith P s = .next t) :
    (s.pending = [] ∧ t = s) ∨
    (∃ rest, s.pending = .hardReset :: rest ∧ t = resetBlock (takeEvent rest s)) ∨
    (∃ a rest, s.pending = .read a :: rest ∧ addrOk a = true ∧
      t = logRead (memRead P (Config.freeWord (s.txnIndex + 1)) (takeEvent rest s) a) (takeEvent rest s)) ∨
    (∃ a v rest, s.pending = .write a v :: rest ∧ addrOk a = true ∧ a ≠ 0x10 ∧
      t = writeLoc v (takeEvent rest s) (locate P a)) ∨
    (∃ c rest, s.pending = .write 0x10 c :: rest ∧ command P c (takeEvent rest s) = .next t) := by
  unfold stepWith at h
  split at h
  · rename_i hp; exact .inl ⟨hp, by injection h with h; exact h.symm⟩
  · rename_i e rest hp
    cases e with
    | hardReset => exact .inr (.inl ⟨rest, hp, by injection h with h; exact h.symm⟩)
    | read a =>
      simp only [perform] at h
      split at h
      · rename_i ha
        exact .inr (.inr (.inl ⟨a, rest, hp, ha, by injection h with h; exact h.symm⟩))
      · cases h
    | write a v =>
      simp only [perform] at h
      split at h
      · rename_i ha
        by_cases hc : a = 0x10
        · subst hc; exact .inr (.inr (.inr (.inr ⟨v, rest, hp, h⟩)))
        · rw [memWrite_of_ne_cmd hc] at h
          exact .inr (.inr (.inr (.inl ⟨a, v, rest, hp, ha, hc, by injection h with h; exact h.symm⟩)))
      · cases h

end Sys2Proof.Machine
end

