-- ==== Sys2Proof/Laws/Host.lean ====
section
/-! SUPPORT. What the end of an invocation leaves (46_host_pipeline.md R190 (7), R191 (7), R195). -/

namespace Sys2Proof.Machine

/-- A cleared block (R195, last row): no error, no length, no table, no tree, no codes. -/
structure Cleared (s : State) : Prop where
  err : s.err = false
  treeValid : s.treeValid = false
  codesValid : s.codesValid = false
  errCode : s.errCode = .none
  errInfo : s.errInfo = 0#32
  errCmd : s.errCmd = 0#32
  vlen : s.vlen = 0#32
  blen : s.blen = 0#32
  bitcnt : s.bitcnt = 0#32
  root : s.root = 0#32
  ft : s.ft = []
  nodes : s.nodes = []
  ct : s.ct = []

theorem andThen_next {α β : Type} {work : Host.Outcome α Fault Refusal} {rest : α → Host.Outcome β Fault Refusal} {b : β}
    (h : andThen work rest = .next b) : ∃ a, work = .next a ∧ rest a = .next b := by
  cases work with
  | next a => exact ⟨a, rfl, h⟩
  | fault f => cases h
  | refused r => cases h

/-- Either clearing runs from any state, with an error recorded too, and leaves a cleared block. -/
theorem clearing_cleared (P : Config.Params) (c : Clearing) (s : State) : ∃ t, runProgram P c.program s = .next t ∧ Cleared t := by
  cases c with
  | srst => exact ⟨_, rfl, ⟨rfl, rfl, rfl, rfl, rfl, rfl, rfl, rfl, rfl, rfl, rfl, rfl, rfl⟩⟩
  | clrall =>
    have h : runProgram P Clearing.clrall.program s =
        .next (clearParts 0x8F#8 { s with pending := [], txnIndex := s.txnIndex + 1 }) := by
      cases he : s.err <;> (simp [runProgram, Clearing.program, clrall, stepTimes, cmd, wr, stepWith, perform, Place.addr,
        Reg.offset, addrOk, takeEvent, memWrite_cmd, command, execWith, execClr, he, maskE,
        show decode (encode (.clr 0x8F#8)) = .instr (.clr 0x8F#8) by decide])
    exact ⟨_, h, ⟨rfl, rfl, rfl, rfl, rfl, rfl, rfl, rfl, rfl, rfl, rfl, rfl, rfl⟩⟩

/-- Step (7) returns what it was given, over a cleared block. -/
theorem finish_cleared {α : Type} (P : Config.Params) (pol : HostPolicy) (result : Except HostError α) (s : State) :
    ∃ t, finish P pol result s = .next { result := result, block := t } ∧ Cleared t := by
  obtain ⟨t, ht, hc⟩ := clearing_cleared P pol.closing s
  exact ⟨t, by simp [finish, ht, andThen], hc⟩

/-- Whatever `finish` answers, the block it leaves is cleared. -/
theorem finish_next {α : Type} {P : Config.Params} {pol : HostPolicy} {result : Except HostError α} {s : State} {f : Finished α}
    (h : finish P pol result s = .next f) : f.result = result ∧ Cleared f.block := by
  obtain ⟨t, ht, hc⟩ := finish_cleared P pol result s
  rw [ht] at h
  cases h
  exact ⟨rfl, hc⟩

/-- An invocation that used the block leaves it cleared, with an error or without. -/
theorem useBlock_next {α β : Type} {P : Config.Params} {pol : HostPolicy} {afterDec : Bool} {prog : List HostEvent}
    {readOut : State → Host.Outcome (α × State) Fault Refusal} {use : α → β} {s : State} {f : Finished β}
    (h : useBlock P pol afterDec prog readOut use s = .next f) : Cleared f.block := by
  obtain ⟨t, -, h⟩ := andThen_next h
  obtain ⟨⟨record, u⟩, -, h⟩ := andThen_next h
  cases record with
  | some record => exact (finish_next h).2
  | none =>
    obtain ⟨r, -, h⟩ := andThen_next h
    exact (finish_next h).2

/-- `compress` leaves a cleared block, or gave up before it used the block. -/
theorem compress_next {P : Config.Params} {pol : HostPolicy} {s : State} {input : List Byte} {f : Finished (List Byte × SideInfo)}
    (h : compress P pol s input = .next f) : Cleared f.block ∨ (f.block = s ∧ ∃ e, f.result = .error e) := by
  unfold compress at h
  split at h
  · cases h; exact .inr ⟨rfl, _, rfl⟩
  · split at h
    · cases h; exact .inr ⟨rfl, _, rfl⟩
    · dsimp only at h
      split at h
      · exact .inl (finish_next h).2
      · split at h
        · cases h; exact .inr ⟨rfl, _, rfl⟩
        · exact .inl (useBlock_next h)

/-- `decompress` leaves a cleared block, or gave up before it used the block. -/
theorem decompress_next {P : Config.Params} {pol : HostPolicy} {s : State} {input : List Byte} {side : SideInfo} {f : Finished (List Byte)}
    (h : decompress P pol s input side = .next f) : Cleared f.block ∨ (f.block = s ∧ ∃ e, f.result = .error e) := by
  unfold decompress at h
  split at h
  · cases h; exact .inr ⟨rfl, _, rfl⟩
  · dsimp only at h
    split at h
    · exact .inl (finish_next h).2
    · exact .inl (useBlock_next h)

end Sys2Proof.Machine
end

