-- ==== Sys2Proof/Laws/PerInstr.lean ====
section
/-! SUPPORT. The statements made command by command: that decoding a well-formed command's word gives it back
(30_encoding.md R90 to R93). -/

namespace Sys2Proof.Laws.RoundTrip

/-- Decoding the word of a well-formed command gives the command. -/
def Statement (i : Instr) : Prop := i.wellFormed = true → decode (encode i) = .instr i

theorem nop : Statement .nop := fun _ => by decide
theorem clr (arg : Byte) : Statement (.clr arg) := fun h => by
  simp only [Instr.wellFormed] at h
  simp [decode, Instr.opcode, Instr.argByte, h]
theorem srst : Statement .srst := fun _ => by decide
theorem denc : Statement .denc := fun _ => by decide
theorem ddec : Statement .ddec := fun _ => by decide
theorem fcnt : Statement .fcnt := fun _ => by decide
theorem fput : Statement .fput := fun _ => by decide
theorem btree : Statement .btree := fun _ => by decide
theorem gcode : Statement .gcode := fun _ => by decide
theorem enc : Statement .enc := fun _ => by decide
theorem dec : Statement .dec := fun _ => by decide

end Sys2Proof.Laws.RoundTrip
end

