-- ==== Sys2Proof/Tests/Slice0.lean ====
section
/-! SUPPORT. Tests of single steps on small states, the expected results from 95_test_vectors.md and 30_encoding.md, and one
witness for each clause of each statement that has hypotheses. -/

namespace Sys2Proof.Tests

open Sys2Proof.Machine

/-! ## Helpers -/

/-- A signed value as a word. -/
def word (z : Int) : Word := BitVec.ofInt 32 z

/-- The state an outcome carries; a stop gives the reset state. -/
def after : Host.Outcome State Fault Refusal → State
  | .next t => t
  | .fault _ => State.reset
  | .refused _ => State.reset

/-- The outcome is a next state. -/
def goesOn : Host.Outcome State Fault Refusal → Bool
  | .next _ => true
  | .fault _ => false
  | .refused _ => false

theorem eq_next_of_goesOn {o : Host.Outcome State Fault Refusal} (h : goesOn o = true) : o = .next (after o) := by
  cases o <;> simp [goesOn, after] at h ⊢

/-- A block that holds the values `vs` and is otherwise as after reset. -/
def valuesState (vs : List Word) : State :=
  { State.reset with vbuf := Memory.writeFrom [] 0 vs, vlen := BitVec.ofNat 32 vs.length }

theorem valuesState_are {vs : List Word} (h : vs.length < 2 ^ 32) : ValuesAre (valuesState vs) vs := by
  refine ⟨by simp [valuesState]; omega, fun k hk => ?_⟩
  simp [valuesState, read_writeFrom, hk]

/-- `s` with the code bits `bits` as its stream, in a fresh buffer. -/
def streamOn (s : State) (bits : List Bool) : State := storeStream bits { s with bbuf := [] }

theorem streamOn_is (s : State) {bits : List Bool} (h : bits.length < 2 ^ 32) : StreamIs (streamOn s bits) bits := by
  refine ⟨by simp [streamOn, storeStream]; omega, fun p hp => ?_⟩
  simp only [streamOn, storeStream]
  rw [streamBit_packed _ _ _ _ (by simp only [bytesFor]; omega), List.getD_eq_getElem?_getD,
    List.getElem?_eq_getElem hp]
  rfl

/-- A block whose tree was built from the table `ft`, and is otherwise as after reset. -/
def treeState (ft : List FtEntry) : State := storeTree (buildTree ft) { State.reset with ft := ft }

theorem treeState_ok {ft : List FtEntry} (hne : ft ≠ []) (hsum : countSum ft < 2 ^ 32) (hlen : ft.length ≤ 2 ^ 31) :
    TreeOk (treeState ft).ft (treeState ft).nodes (treeState ft).root.toNat := (buildTree_ok hne hsum hlen).1

/-- The table of 2.3 row 3: `[(1,1),(2,1),(3,2)]`. -/
def table3 : List FtEntry := [⟨1#32, 1#32⟩, ⟨2#32, 1#32⟩, ⟨3#32, 2#32⟩]

/-- The codes of 2.3 row 3: 1 is `10`, 2 is `11`, 3 is `0`. -/
def codes3 : List Code := [⟨2, 2#32⟩, ⟨2, 3#32⟩, ⟨1, 0#32⟩]

/-- The tree and codes of 2.3 row 3, over the values of 2.4 row 3. -/
def coded3 : State :=
  { valuesState [1#32, 2#32, 3#32, 3#32] with
    ft := table3, nodes := (buildTree table3).1, root := 4#32, ct := codes3, treeValid := true, codesValid := true }

/-- The same with the stream of 2.4 row 3. -/
def packed3 : State := streamOn coded3 [true, false, true, true, false, false]

/-- The tree of the table `[(42,1)]` (2.4, one-leaf rows). -/
def oneLeaf : State := treeState [⟨42#32, 1#32⟩]

/-- The Fibonacci table of 2.3 rows 18 and 19. -/
def fibTable : Nat → Nat → Nat → Nat → List FtEntry
  | 0, _, _, _ => []
  | n + 1, i, a, b => ⟨BitVec.ofNat 32 i, BitVec.ofNat 32 a⟩ :: fibTable n (i + 1) b (a + b)

/-- The host's next transaction is this one. -/
def pend (e : HostEvent) (s : State) : State := { s with pending := [e] }

/-! ## Well-formedness (20_memory.md R61, 30_encoding.md R91, R92) -/

theorem test_clr_reserved_mask_is_ill_formed :
    [(.clr 0x10#8 : Instr), .clr 0x20#8, .clr 0x40#8, .clr 0xFF#8].map Instr.wellFormed = [false, false, false, false] := by
  decide

theorem test_clr_all_bits_allowed_is_well_formed : Instr.wellFormed (.clr 0x8F#8) = true := by decide

theorem test_misaligned_or_far_address_is_ill_formed :
    [HostEvent.write 0x11 0#32, .read 0x12, .write 0x13 0#32, .read 0x1000000].map HostEvent.wellFormed =
      [false, false, false, false] := by decide

theorem test_last_address_is_well_formed : HostEvent.wellFormed (.read 0xFFFFFC) = true := by decide

/-! ## Decoding: words written out from 30_encoding.md R93, and the illegal words of 2.6 -/

theorem test_decode_nop : decode 0x00000000#32 = .instr .nop := by decide
theorem test_decode_clr : decode 0x00000F01#32 = .instr (.clr 0x0F#8) := by decide
theorem test_decode_clr_e : decode 0x00008001#32 = .instr (.clr 0x80#8) := by decide
theorem test_decode_srst : decode 0x00000002#32 = .instr .srst := by decide
theorem test_decode_denc : decode 0x00000010#32 = .instr .denc := by decide
theorem test_decode_ddec : decode 0x00000011#32 = .instr .ddec := by decide
theorem test_decode_fcnt : decode 0x00000020#32 = .instr .fcnt := by decide
theorem test_decode_fput : decode 0x00000021#32 = .instr .fput := by decide
theorem test_decode_btree : decode 0x00000022#32 = .instr .btree := by decide
theorem test_decode_gcode : decode 0x00000023#32 = .instr .gcode := by decide
theorem test_decode_enc : decode 0x00000030#32 = .instr .enc := by decide
theorem test_decode_dec : decode 0x00000031#32 = .instr .dec := by decide

theorem test_decode_illegal_words :
    [0x00001001#32, 0x00007001#32, 0x0000FF01#32].map decode = List.replicate 3 (.illegal .clrReservedMask) ∧
    [0x00000110#32, 0x00000100#32].map decode = List.replicate 2 (.illegal .strayArg) ∧
    [0x00010000#32, 0x80000000#32].map decode = List.replicate 2 (.illegal .reservedBits) ∧
    [0x03#32, 0x0F#32, 0x12#32, 0x24#32, 0x32#32, 0xFF#32].map decode = List.replicate 6 (.illegal .unknownOpcode) := by
  decide

/-! ## One step of each command -/

/-- 2.5 row 1: `NOP` changes nothing, with an error recorded too. -/
theorem test_nop : after (exec .nop { coded3 with err := true }) = { coded3 with err := true } := by decide

/-- 2.5 row 6: `CLR F` empties the table and invalidates the tree and the codes; the values stay. -/
theorem test_clr_f : after (exec (.clr 0x04#8) packed3) =
    { packed3 with ft := [], nodes := [], ct := [], root := 0#32, treeValid := false, codesValid := false } := by decide

/-- P4: with an error recorded `CLR T` is ignored. -/
theorem test_clr_ignored : after (exec (.clr 0x08#8) { coded3 with err := true }) = { coded3 with err := true } := by
  decide

/-- 2.5 row 10: `SRST` leaves nothing. -/
theorem test_srst : after (exec .srst { packed3 with ftVal := 7#32, err := true }) = State.reset := by decide

/-- 2.1 row 3. -/
theorem test_denc : (after (exec .denc (valuesState [word (-5), word 3, word (-7), word 10]))).vbuf =
    [(0, word (-5)), (1, word 3), (2, word (-2)), (3, word 7)] := by decide

/-- 2.1 row 8: the difference `2147483648` does not fit. -/
theorem test_denc_range : after (exec .denc (valuesState [0#32, word (-2147483648), 0#32, 0#32])) =
    { State.reset with err := true, errCode := .range, errInfo := 3#32, errCmd := 0x10#32 } := by decide

/-- 2.1 row 16. -/
theorem test_ddec :
    (after (exec .ddec (valuesState [100#32, 200#32, word (-50), 200#32, 25#32, word (-300)]))).vbuf.map Prod.snd =
      [100#32, 200#32, 50#32, 400#32, 75#32, 100#32] := by decide

/-- 2.1 row 14: every partial sum is a stored value. -/
theorem test_ddec_range : after (exec .ddec (valuesState [word 2147483647, 0#32, 1#32, 0#32, word (-1), 0#32])) =
    { State.reset with err := true, errCode := .range, errInfo := 2#32, errCmd := 0x11#32 } := by decide

/-- 2.2 row 2: ascending signed order. -/
theorem test_fcnt : (after (exec .fcnt (valuesState [word (-1), 3#32, word (-1), 0#32]))).ft =
    [⟨word (-1), 2#32⟩, ⟨0#32, 1#32⟩, ⟨3#32, 1#32⟩] := by decide

/-- 2.2 row 15: a put invalidates the tree. -/
theorem test_fput : after (exec .fput { coded3 with ftVal := word (-7), ftCnt := 1#32 }) =
    { coded3 with
      ftVal := word (-7), ftCnt := 1#32, ft := ⟨word (-7), 1#32⟩ :: table3, nodes := [], ct := [], root := 0#32,
      treeValid := false, codesValid := false } := by decide

/-- 2.2 row 11. -/
theorem test_fput_duplicate : after (exec .fput { coded3 with ftVal := 3#32, ftCnt := 1#32 }) =
    { coded3 with
      ftVal := 3#32, ftCnt := 1#32, err := true, errCode := .dupSym, errInfo := 2#32, errCmd := 0x21#32 } := by decide

/-- 2.3 row 3: the tie at frequency 2 goes to leaf 2, before internal node 3. -/
theorem test_btree : (after (exec .btree { State.reset with ft := table3 })).nodes =
    [.leaf 1#32 1#32, .leaf 1#32 2#32, .leaf 2#32 3#32, .internal 2#32 0 1, .internal 4#32 2 3] := by decide

/-- 2.3 row 16: the sum is `2^32`. -/
theorem test_btree_range :
    (after (exec .btree { State.reset with ft := [⟨1#32, 0x80000000#32⟩, ⟨2#32, 0x80000000#32⟩] })).errCode = .range := by
  decide

/-- 2.3 row 6: node 3, frequency 4, goes before leaf 0, frequency 5. -/
theorem test_gcode : (after (exec .gcode (treeState [⟨1#32, 5#32⟩, ⟨2#32, 2#32⟩, ⟨3#32, 2#32⟩]))).ct =
    [⟨1, 1#32⟩, ⟨2, 0#32⟩, ⟨2, 1#32⟩] := by decide

/-- 2.3 row 12: one leaf. -/
theorem test_gcode_one_leaf : (after (exec .gcode oneLeaf)).ct = [⟨1, 0#32⟩] := by decide

/-- 2.4 row 3. -/
theorem test_enc : after (exec .enc coded3) =
    { coded3 with bbuf := [(0, 0xB0#8)], blen := 1#32, bitcnt := 6#32 } := by decide

/-- P4: `E_NOCODE(1)`. -/
theorem test_enc_no_code : after (exec .enc { coded3 with vbuf := Memory.write coded3.vbuf 1 9#32 }) =
    { coded3 with
      vbuf := Memory.write coded3.vbuf 1 9#32, err := true, errCode := .noCode, errInfo := 1#32, errCmd := 0x30#32 } := by
  decide

/-- 2.4 row 3 decoded, with the padding bits set (row 16). -/
theorem test_dec : after (exec .dec { packed3 with bbuf := [(0, 0xB3#8)], vbuf := [], vlen := 0#32 }) =
    { packed3 with bbuf := [(0, 0xB3#8)] } := by decide

/-- 2.4 row 27: a 1 bit under a one-leaf tree. -/
theorem test_dec_walk : (after (exec .dec { oneLeaf with bbuf := [(0, 0x20#8)], blen := 1#32, bitcnt := 3#32 })).errInfo =
    2#32 := by decide

/-! ## The port (2.6, 2.8) -/

/-- 2.8 row 8: the lowest byte index is in bits 7:0. -/
theorem test_bbuf_word_write : (after (step (pend (.write 0x200004 0x11223344#32) State.reset))).bbuf =
    [(4, 0x44#8), (5, 0x33#8), (6, 0x22#8), (7, 0x11#8)] := by decide

/-- 2.8 row 2: a write to a read-only register is ignored. -/
theorem test_read_only_write : (after (step (pend (.write 0x14 0xFFFFFFFF#32) coded3))) =
    { coded3 with txnIndex := 1 } := by decide

/-- 2.8 row 13 and the reserved words after the windows. -/
theorem test_window_ends :
    [0x41FFEC, 0x41FFF0, 0x307FFC, 0x308000, 0x507FFC, 0x508000].map (locate Config.hdc1) =
      [.node 8190 3, .reserved, .ft 4095 1, .reserved, .ct 4095 1, .reserved] := by decide

/-- 2.6: an unassigned opcode. -/
theorem test_illegal_command : after (step (pend (.write 0x10 0x12#32) State.reset)) =
    { State.reset with txnIndex := 1, err := true, errCode := .illCmd, errCmd := 0x12#32 } := by decide

/-- The very next step runs the command placed by `withFetchWord`. -/
theorem test_with_fetch_word : (after (step (State.reset.withFetchWord 32 0x22))).errCode = .empty := by decide

/-! ## The host's formats (1.1) -/

/-- The choices of a host that rejects whatever the document leaves open. -/
def strict : HostPolicy where
  padOddChunks := false
  rejectNonPcm := true
  cutShortData := false
  dropPartialFrame := false
  rejectTrailing := false
  extraSample := 0
  rejectLongFmt := true
  rejectRiffSize := true
  opening := .srst
  closing := .clrall

/-- 1.1, the container of the scenario. -/
theorem test_container : (containerWrite ⟨2, 16, 8000, [0xB3#8, 0xFC#8, 0x00#8]⟩).map BitVec.toNat =
    [0x02, 0x00, 0x10, 0x00, 0x40, 0x1F, 0x00, 0x00, 0x03, 0x00, 0x00, 0x00, 0xB3, 0xFC, 0x00] := by decide

/-- 1.2: a declared payload longer than what remains. -/
theorem test_container_truncated :
    (match containerRead strict (containerWrite ⟨2, 16, 8000, [0xB3#8, 0xFC#8, 0x00#8]⟩ |>.set 8 4#8) with
      | .error (.document .truncatedInput) => true
      | _ => false) = true := by decide

/-- 1.2: 8-bit samples are unsigned. -/
theorem test_pcm8 : (match toTuples strict 2 8 [0x00#8, 0x80#8, 0xFF#8, 0x7F#8] with
      | .ok ps => ps == [⟨0, 128⟩, ⟨255, 127⟩]
      | .error _ => false) = true := by decide

/-- 1.2: no `data` subchunk. -/
theorem test_wav_without_data :
    (match wavParse strict (tagRIFF ++ leBytes 4 4 ++ tagWAVE) with
      | .error (.document .formatError) => true
      | _ => false) = true := by decide


/-- R211: `E_LEN` of `DEC` is a host defect, of `DDEC` after a `DEC` foreign data; `E_TRUNC` and `E_WALK` have their kinds. -/
theorem test_document_kind :
    documentKind true ⟨2#32, 262145#32, 0x31#32⟩ = none ∧
    documentKind true ⟨2#32, 9#32, 0x11#32⟩ = some .codecConsistency ∧
    documentKind false ⟨2#32, 9#32, 0x10#32⟩ = none ∧
    documentKind true ⟨11#32, 25#32, 0x31#32⟩ = some .truncatedInput ∧
    documentKind true ⟨10#32, 2#32, 0x31#32⟩ = some .codecConsistency := by decide

/-- R190 (2), (6), (7): a file of no samples gives an empty payload, and the block's old table is cleared. -/
theorem test_compress_empty :
    (match compress Config.hdc1 strict coded3 (wavSerialize ⟨2, 16, 8000, []⟩) with
      | .next f => (match f.result with
        | .ok r => r.1 == [0x02#8, 0#8, 0x10#8, 0#8, 0x40#8, 0x1F#8, 0#8, 0#8, 0#8, 0#8, 0#8, 0#8] && r.2.table.isEmpty
        | .error _ => false) && f.block.ft.isEmpty && !f.block.treeValid && f.block.vlen == 0#32
      | _ => false) = true := by decide

/-- A host that writes `VLEN`, reads it and, by what it read, clears the block. -/
def loadsThenClears : BranchingHost
  | 0, _ => some (wr (.reg .vlen) 2#32)
  | 1, _ => some (rd (.reg .vlen))
  | 2, words => if words = [2#32] then some (cmd .srst) else none
  | _, _ => none

/-- R101: a branching host gets past a write, and sees the words of its own run only. -/
theorem test_branching_host :
    after (runAdaptive Config.hdc1 loadsThenClears 9 { coded3 with readLog := [5#32] }) =
      { State.reset with txnIndex := 3, readLog := [5#32, 2#32] } := by decide

/-- R5, R121: in a smaller block three values are too many for `VBUF`, or their symbols for `FT`. -/
theorem test_small_block : (after (execWith ⟨2, 4, 2, 2⟩ .fcnt (valuesState [1#32, 2#32, 3#32]))).errCode = .len ∧
    (after (execWith ⟨4, 4, 2, 2⟩ .fcnt (valuesState [1#32, 2#32, 3#32]))).errCode = .capacity := by decide

/-! ## Witnesses: encoding, steps and the port -/

theorem test_witness_IllegalWordsRaise_step :
    (pend (.write 0x10 0x12#32) State.reset).pending = .write 0x10 0x12#32 :: [] ∧
    decode 0x12#32 = .illegal .unknownOpcode ∧ (pend (.write 0x10 0x12#32) State.reset).err = false ∧
    (pend (.write 0x10 0x12#32) { coded3 with err := true }).pending = .write 0x10 0x12#32 :: [] ∧
    (pend (.write 0x10 0x12#32) { coded3 with err := true }).err = true := by decide

theorem test_witness_IllegalWordsRaise_words :
    (∀ o : Opcode, o.code ≠ (0x000000FF#32).extractLsb' 0 8) ∧ (0x00010000#32).extractLsb' 16 16 ≠ 0#16 ∧
    ((0x00004001#32).extractLsb' 0 8 = 0x01#8 ∧ (0x00004001#32).extractLsb' 12 3 ≠ 0#3) ∧
    ((0x00008002#32).extractLsb' 0 8 ≠ 0x01#8 ∧ (0x00008002#32).extractLsb' 8 8 ≠ 0#8) :=
  ⟨fun o => by cases o <;> decide, by decide, by decide, by decide⟩

theorem test_witness_IllegalWordsRaise_noEffect :
    (decode 0x00000000#32 = .instr .nop ∧ ∀ s, exec .nop s = .next s) ∧
    (decode 0x00000001#32 = .instr (.clr 0#8) ∧ ∀ s, exec (.clr 0#8) s = .next s) :=
  ⟨⟨by decide, fun s => by cases h : s.err <;> simp [exec, execNop, gated, h]⟩,
    by decide, fun s => by cases h : s.err <;> simp [exec, execClr, h, clearParts, onlyIf, maskE, maskV, maskB, maskF, maskT]⟩

theorem test_witness_StepRunsTheDecodedCommand :
    (pend (.write 0x10 0x20#32) coded3).pending = .write 0x10 0x20#32 :: [] ∧ decode 0x20#32 = .instr .fcnt := by decide

theorem test_witness_IdleAndHardReset :
    coded3.pending = [] ∧ (pend .hardReset coded3).pending = .hardReset :: [] := by decide

theorem test_witness_InexpressibleAddressRefused :
    (pend (.write 0x11 5#32) coded3).pending = .write 0x11 5#32 :: [] ∧ (0x11 % 4 ≠ 0 ∨ 2 ^ 24 ≤ 0x11) ∧
    (pend (.read (2 ^ 24)) coded3).pending = .read (2 ^ 24) :: [] ∧ (2 ^ 24 % 4 ≠ 0 ∨ 2 ^ 24 ≤ 2 ^ 24) := by decide

theorem test_witness_HostReadChangesNothing :
    (pend (.read 0xFFFFFC) coded3).pending = .read 0xFFFFFC :: [] ∧ 0xFFFFFC % 4 = 0 ∧ 0xFFFFFC < 2 ^ 24 ∧
    (pend (.read 0) coded3).pending = .read 0 :: [] ∧ 0 % 4 = 0 ∧ 0 < 2 ^ 24 := by decide

/-- The first and the last reserved offset of the register block. -/
theorem test_witness_RegisterReads_reserved :
    (0x48 ≤ 0x48 ∧ 0x48 < 0x100 ∧ 0x48 % 4 = 0) ∧ (0x48 ≤ 0xFC ∧ 0xFC < 0x100 ∧ 0xFC % 4 = 0) := by decide

/-- Leaves 0 to 2, nodes 3 and 4 internal, nothing from 5 up; codes 0 to 2. -/
theorem test_witness_WindowReads_tables :
    coded3.nodes[2]? = some (.leaf 2#32 3#32) ∧ coded3.nodes[4]? = some (.internal 4#32 2 3) ∧
    coded3.nodes.length ≤ 5 ∧ 8190 < 8191 ∧ coded3.nodes.length ≤ 8190 ∧ 3 < 4 ∧
    coded3.codesValid = true ∧ 2 < coded3.ft.length ∧ coded3.ct[2]? = some ⟨1, 0#32⟩ ∧
    (coded3.codesValid = false ∨ coded3.ft.length ≤ 4095) ∧
    (State.reset.codesValid = false ∨ State.reset.ft.length ≤ 0) := by decide

/-- The two ends of each reserved range. -/
theorem test_witness_WindowReads_reserved :
    ∀ a ∈ [0x100, 0x0FFFFC, 0x140000, 0x1FFFFC, 0x240000, 0x2FFFFC, 0x308000, 0x3FFFFC, 0x41FFF0, 0x4FFFFC,
        0x508000, 0x5FFFFC, 0x600000, 0xFFFFFC],
      a < 2 ^ 24 ∧ a % 4 = 0 ∧
      ((0x100 ≤ a ∧ a < 0x100000) ∨ (0x140000 ≤ a ∧ a < 0x200000) ∨ (0x240000 ≤ a ∧ a < 0x300000) ∨
        (0x308000 ≤ a ∧ a < 0x400000) ∨ (0x41FFF0 ≤ a ∧ a < 0x500000) ∨ (0x508000 ≤ a ∧ a < 0x600000) ∨
        0x600000 ≤ a) := by decide

theorem test_witness_HostWrites_pending :
    ∀ a ∈ [0x24, 0x28, 0x2C, 0x3C, 0x40, 0x100000 + 4 * 65535, 0x200000 + 4 * 65535, 0x0C],
      (pend (.write a 7#32) coded3).pending = .write a 7#32 :: [] := by decide

/-- The two ends of each range in which a write is ignored. -/
theorem test_witness_HostWrites_ignored :
    ∀ a ∈ [0x00, 0x0C, 0x14, 0x20, 0x30, 0x38, 0x44, 0x0FFFFC, 0x140000, 0x1FFFFC, 0x240000, 0xFFFFFC],
      (pend (.write a 7#32) coded3).pending = .write a 7#32 :: [] ∧ a < 2 ^ 24 ∧ a % 4 = 0 ∧
      (a < 0x10 ∨ (0x14 ≤ a ∧ a < 0x24) ∨ (0x30 ≤ a ∧ a < 0x3C) ∨ (0x44 ≤ a ∧ a < 0x100000) ∨
        (0x140000 ≤ a ∧ a < 0x200000) ∨ 0x240000 ≤ a) := by decide

/-- The first and the last bit of the buffer. -/
theorem test_witness_StreamBitInWindowWord :
    (0 < 8 * 262144 ∧ streamBit packed3.bbuf 0 = some true) ∧
    (8 * 262144 - 1 < 8 * 262144 ∧ streamBit [(262143, 0x01#8)] (8 * 262144 - 1) = some true) := by decide

/-! ## Witnesses: reset, control and errors -/

theorem test_witness_ResetStateIsR41 :
    (0x10 < 0x100 ∧ 0x10 % 4 = 0 ∧ 0x10 ∉ [0x00, 0x04, 0x08, 0x0C, 0x44]) ∧
    (0xFC < 0x100 ∧ 0xFC % 4 = 0 ∧ 0xFC ∉ [0x00, 0x04, 0x08, 0x0C, 0x44]) := by decide

theorem test_witness_ClrClearsTheSelected :
    (0x8F#8).extractLsb' 4 3 = 0#3 ∧ (0x10#8).extractLsb' 4 3 ≠ 0#3 ∧
    (coded3.err = false ∨ (0x00#8).getLsbD 7 = true) ∧
    ({ coded3 with err := true }.err = false ∨ (0x80#8).getLsbD 7 = true) ∧
    ({ coded3 with err := true }.err = true ∧ (0x0F#8).getLsbD 7 = false) := by decide

theorem test_witness_ErrorGate_recorded :
    { coded3 with err := true }.err = true ∧
    (pend (.write 0x10 0x02#32) { coded3 with err := true }).pending = .write 0x10 0x02#32 :: [] ∧
    decode 0x02#32 = .instr .srst ∧ decode 0x8F01#32 = .instr (.clr 0x8F#8) ∧ (0x8F#8).getLsbD 7 = true :=
  by decide

/-- A legal word, a `CLR` without E and an illegal word that are ignored. -/
theorem test_witness_ErrorGate_ignored :
    ∀ c ∈ [0x22#32, 0x0F01#32, 0x12#32],
      (∀ arg, decode c = .instr (.clr arg) → arg.getLsbD 7 = false) ∧ decode c ≠ .instr .srst := by
  intro c hc
  simp only [List.mem_cons, List.not_mem_nil, or_false] at hc
  rcases hc with rfl | rfl | rfl
  · refine ⟨fun arg h => ?_, by decide⟩
    rw [show decode 0x22#32 = .instr .btree by decide] at h; cases h
  · refine ⟨fun arg h => ?_, by decide⟩
    rw [show decode 0x0F01#32 = .instr (.clr 0x0F#8) by decide] at h
    injection h with h; injection h with h; subst h; decide
  · refine ⟨fun arg h => ?_, by decide⟩
    rw [show decode 0x12#32 = .illegal .unknownOpcode by decide] at h; cases h

theorem test_witness_ErrorGate_none :
    coded3.err = false ∧ (pend (.write 0x10 0x22#32) coded3).pending = .write 0x10 0x22#32 :: [] ∧
    decode 0x22#32 = .instr .btree ∧ decode 0x12#32 = .illegal .unknownOpcode := by decide

theorem test_witness_ErrorsAreTheCommandsOwn :
    State.reset.err = false ∧ exec .enc State.reset = .next (after (exec .enc State.reset)) ∧
    (after (exec .enc State.reset)).err = true ∧
    (after (exec .enc State.reset)).errCode ∈ preCheckErrors .enc :=
  ⟨rfl, rfl, by decide, by decide⟩

/-- A step that keeps the record and one that clears it. -/
theorem test_witness_ErrorRecordIsSticky :
    (pend (.write 0x24 9#32) { coded3 with err := true }).err = true ∧
    goesOn (step (pend (.write 0x24 9#32) { coded3 with err := true })) = true ∧
    (pend (.write 0x10 0x8001#32) { coded3 with err := true }).err = true ∧
    goesOn (step (pend (.write 0x10 0x8001#32) { coded3 with err := true })) = true := by decide

/-! ## Witnesses: the delta coder -/

/-- Over capacity by one, and odd. -/
theorem test_witness_Delta_lengths :
    { State.reset with vlen := 65537#32 }.err = false ∧
    Config.hdc1.maxValues < ({ State.reset with vlen := 65537#32 } : State).vlen.toNat ∧
    { State.reset with vlen := 1#32 }.err = false ∧ ({ State.reset with vlen := 1#32 } : State).vlen.toNat % 2 = 1 := by
  decide

/-- 2.1 row 5: the difference is exactly `VMIN`; and the empty sequence. -/
theorem test_witness_DencEffect_done :
    let vs := [word 2147483647, 0#32, word (-1), 0#32]
    ((valuesState vs).err = false ∧ ValuesAre (valuesState vs) vs ∧ vs.length ≤ Config.hdc1.maxValues ∧
      vs.length % 2 = 0 ∧ ∀ k < vs.length, inRange (deltaAt vs k) = true) ∧
    (State.reset.err = false ∧ ValuesAre State.reset [] ∧ ([] : List Word).length % 2 = 0) :=
  ⟨⟨rfl, valuesState_are (by decide), by decide, by decide, by decide⟩, rfl, ⟨rfl, by simp⟩, rfl⟩

/-- 2.1 row 7: the least index that overflows is 3. -/
theorem test_witness_DencEffect_range :
    let vs := [0#32, word (-2147483648), 0#32, 1#32]
    (valuesState vs).err = false ∧ ValuesAre (valuesState vs) vs ∧ vs.length ≤ Config.hdc1.maxValues ∧
      vs.length % 2 = 0 ∧ 3 < vs.length ∧ inRange (deltaAt vs 3) = false ∧ ∀ j < 3, inRange (deltaAt vs j) = true :=
  ⟨rfl, valuesState_are (by decide), by decide, by decide, by decide, by decide, by decide⟩

/-- 2.1 row 11: the sum is exactly `VMAX`. -/
theorem test_witness_DdecEffect_done :
    let vs := [word 2147483647, 0#32, 0#32, 0#32]
    (valuesState vs).err = false ∧ ValuesAre (valuesState vs) vs ∧ vs.length ≤ Config.hdc1.maxValues ∧
      vs.length % 2 = 0 ∧ ∀ k < vs.length, inRange (sumAt vs k) = true :=
  ⟨rfl, valuesState_are (by decide), by decide, by decide, by decide⟩

/-- 2.1 row 13. -/
theorem test_witness_DdecEffect_range :
    let vs := [word 2147483646, 0#32, 1#32, 0#32, 1#32, 0#32]
    (valuesState vs).err = false ∧ ValuesAre (valuesState vs) vs ∧ vs.length ≤ Config.hdc1.maxValues ∧
      vs.length % 2 = 0 ∧ 4 < vs.length ∧ inRange (sumAt vs 4) = false ∧ ∀ j < 4, inRange (sumAt vs j) = true :=
  ⟨rfl, valuesState_are (by decide), by decide, by decide, by decide, by decide, by decide⟩

/-- 2.1 row 17, the extreme 16-bit samples, in both orders; and 8-bit samples. -/
theorem test_witness_DeltaRoundTrip :
    let vs := [word 32767, word (-32768), word (-32768), word 32767]
    let ws := [word 0, word 255]
    (valuesState vs).err = false ∧ ValuesAre (valuesState vs) vs ∧ vs.length ≤ Config.hdc1.maxValues ∧
      vs.length % 2 = 0 ∧ goesOn (exec .denc (valuesState vs)) = true ∧
      (after (exec .denc (valuesState vs))).err = false ∧ goesOn (exec .ddec (valuesState vs)) = true ∧
      (after (exec .ddec (valuesState vs))).err = false ∧ (∀ v ∈ vs, -32768 ≤ v.toInt ∧ v.toInt ≤ 32767) ∧
      ValuesAre (valuesState ws) ws ∧ (∀ v ∈ ws, 0 ≤ v.toInt ∧ v.toInt ≤ 255) :=
  ⟨rfl, valuesState_are (by decide), by decide, by decide, by decide, by decide, by decide, by decide,
    by simp [word], valuesState_are (by decide), by simp [word]⟩

theorem test_witness_DeltaFrame :
    goesOn (exec .denc (valuesState [word 7, word (-7)])) = true ∧
    goesOn (exec .ddec (valuesState [word 7, word (-7)])) = true := by decide

/-! ## Witnesses: the frequency table -/

/-- Consecutive values. -/
def counting (n : Nat) : List Word := (List.range n).map (BitVec.ofNat 32)

theorem counting_nodup {n : Nat} (h : n ≤ 2 ^ 32) : (counting n).Nodup := by
  refine List.Nodup.map_on (fun a ha b hb hab => ?_) List.nodup_range
  have := congrArg BitVec.toNat hab
  simp only [BitVec.toNat_ofNat, List.mem_range] at *
  omega

theorem counting_take {m n : Nat} (h : m ≤ n) : (counting n).take m = counting m := by
  rw [counting, ← List.map_take, List.take_range, Nat.min_eq_left h]; rfl

theorem counting_length (n : Nat) : (counting n).length = n := by simp [counting]

theorem test_witness_FcntEffect_length :
    { State.reset with vlen := 65537#32 }.err = false ∧
    Config.hdc1.maxValues < ({ State.reset with vlen := 65537#32 } : State).vlen.toNat := by decide

/-- 2.2 rows 4 and 8: no values, and a table that is exactly full. -/
theorem test_witness_FcntEffect_done :
    (State.reset.err = false ∧ ValuesAre State.reset [] ∧ ([] : List Word).dedup.length ≤ Config.hdc1.maxSyms) ∧
    ((valuesState (counting 4096)).err = false ∧ ValuesAre (valuesState (counting 4096)) (counting 4096) ∧
      (counting 4096).length ≤ Config.hdc1.maxValues ∧ (counting 4096).dedup.length ≤ Config.hdc1.maxSyms) := by
  refine ⟨⟨rfl, ⟨rfl, by simp⟩, by decide⟩, rfl, valuesState_are (by simp [counting_length]), ?_, ?_⟩
  · simp [counting_length, Config.hdc1]
  · rw [(counting_nodup (by decide)).dedup]; simp [counting_length, Config.hdc1]

/-- 2.2 row 7: the 4097th distinct value. -/
theorem test_witness_FcntEffect_capacity :
    let vs := counting 4097
    (valuesState vs).err = false ∧ ValuesAre (valuesState vs) vs ∧ vs.length ≤ Config.hdc1.maxValues ∧
      4096 < vs.length ∧ (vs.take 4096).dedup.length = Config.hdc1.maxSyms ∧ vs.getD 4096 0#32 ∉ vs.take 4096 := by
  refine ⟨rfl, valuesState_are (by simp [counting_length]), by simp [counting_length, Config.hdc1],
    by simp [counting_length], ?_, ?_⟩
  · rw [counting_take (by decide), (counting_nodup (by decide)).dedup, counting_length]; rfl
  · rw [counting_take (by decide), List.getD_eq_getElem?_getD]
    simp only [counting, List.getElem?_map, List.getElem?_range (show 4096 < 4097 by decide), Option.map_some,
      Option.getD_some, List.mem_map, List.mem_range, not_exists, not_and]
    intro x hx he
    have := congrArg BitVec.toNat he
    simp only [BitVec.toNat_ofNat] at this
    omega

/-- A table of the values `0 .. n-1`, each counted once (2.2 row 8). -/
def countingTable (n : Nat) : List FtEntry := (counting n).map (fun v => ⟨v, 1#32⟩)

theorem countingTable_ok {n : Nat} (h : n ≤ 4096) : TableOk (countingTable n) := by
  refine ⟨?_, fun e he => ?_, ?_⟩
  · rw [countingTable, counting, List.map_map, List.pairwise_map]
    refine List.Pairwise.imp_of_mem (fun {a b} ha hb hab => ?_) List.pairwise_lt_range
    simp only [List.mem_range] at ha hb
    simp only [Function.comp]
    rw [BitVec.toInt_eq_toNat_of_lt (by simp; omega), BitVec.toInt_eq_toNat_of_lt (by simp; omega)]
    simp; omega
  · obtain ⟨v, -, rfl⟩ := List.mem_map.mp he
    exact (by decide : 1#32 ≠ 0#32)
  · simp [countingTable, counting_length, Config.hdc1, h]

/-- Zero count, a duplicate, and an insertion (2.2 rows 10, 11 and 15). -/
theorem test_witness_FputEffect :
    (coded3.err = false ∧ TableOk coded3.ft ∧ coded3.ftCnt = 0#32) ∧
    ({ coded3 with ftVal := 3#32, ftCnt := 1#32 }.ftCnt ≠ 0#32 ∧ coded3.ft[2]? = some ⟨3#32, 2#32⟩) ∧
    ((∀ e ∈ coded3.ft, e.value ≠ word (-7)) ∧ coded3.ft.length ≠ Config.hdc1.maxSyms) :=
  ⟨⟨rfl, ⟨by decide, by decide, by decide⟩, rfl⟩, by decide, by decide⟩

/-- 2.2 row 12: a full table. -/
theorem test_witness_FputEffect_capacity :
    let s : State := { State.reset with ft := countingTable 4096, ftVal := 5000#32, ftCnt := 1#32 }
    s.err = false ∧ TableOk s.ft ∧ s.ftCnt ≠ 0#32 ∧ (∀ e ∈ s.ft, e.value ≠ s.ftVal) ∧
      s.ft.length = Config.hdc1.maxSyms := by
  simp only
  refine ⟨rfl, countingTable_ok (n := 4096) (by norm_num), (by decide : 1#32 ≠ 0#32), fun e he => ?_,
    by simp [countingTable, counting_length, Config.hdc1]⟩
  simp only [countingTable, counting, List.map_map, List.mem_map, List.mem_range] at he
  obtain ⟨x, hx, rfl⟩ := he
  intro hv
  have := congrArg BitVec.toNat hv
  simp only [Function.comp, BitVec.toNat_ofNat] at this
  omega

theorem test_witness_FputOrderDoesNotMatter :
    coded3.err = false ∧ TableOk coded3.ft ∧ word (-7) ≠ word 9 ∧ 1#32 ≠ 0#32 ∧ 4#32 ≠ 0#32 ∧
    (∀ e ∈ coded3.ft, e.value ≠ word (-7) ∧ e.value ≠ word 9) ∧ coded3.ft.length + 2 ≤ Config.hdc1.maxSyms :=
  ⟨rfl, ⟨by decide, by decide, by decide⟩, by decide, by decide, by decide, by decide, by decide⟩

theorem test_witness_TableCommandFrame :
    goesOn (exec .fcnt coded3) = true ∧ goesOn (exec .fput coded3) = true := by decide

/-- `FCNT` changes the table, and `BTREE` changes the codes. -/
theorem test_witness_WhoWritesTheTables :
    let s := pend (.write 0x10 0x20#32) { coded3 with ft := [] }
    let u := pend (.write 0x10 0x22#32) coded3
    (goesOn (step s) = true ∧ nextIsHardReset s = false ∧ (after (step s)).ft ≠ s.ft ∧ (after (step s)).nodes ≠ s.nodes) ∧
    (goesOn (step u) = true ∧ nextIsHardReset u = false ∧ (after (step u)).ct ≠ u.ct) := by decide


/-! ## Witnesses: the code generator -/

theorem coded3_tree : TreeOk coded3.ft coded3.nodes coded3.root.toNat := by
  have h := treeState_ok (ft := table3) (by decide) (by decide) (by decide)
  rwa [show (treeState table3).root = 4#32 by decide] at h

theorem coded3_codes : CodesOk coded3.ft coded3.nodes coded3.root.toNat coded3.ct := ⟨rfl, by decide⟩

theorem oneLeaf_tree : TreeOk oneLeaf.ft oneLeaf.nodes oneLeaf.root.toNat :=
  treeState_ok (by decide) (by decide) (by decide)

/-- 2.3 rows 14 and 16, and row 13, whose sum `2^32 - 1` just fits. -/
theorem test_witness_BtreeEffect :
    (State.reset.err = false ∧ State.reset.ft = []) ∧
    (countSum [⟨1#32, 0x80000000#32⟩, ⟨2#32, 0x80000000#32⟩] = 2 ^ 32) ∧
    (countSum [⟨1#32, 0x7FFFFFFF#32⟩, ⟨2#32, 0x80000000#32⟩] = 2 ^ 32 - 1) ∧
    coded3.err = false ∧ coded3.ft ≠ [] ∧ countSum coded3.ft < 2 ^ 32 ∧ coded3.ft.length ≤ Config.hdc1.maxSyms := by
  decide

/-- Two states that differ in everything but the table, and in everything but the table and the tree. -/
theorem test_witness_EqualTablesGiveEqualTrees :
    let s := coded3
    let u := { State.reset with ft := table3, vlen := 9#32, ftVal := 4#32 }
    let v := after (exec .btree u)
    (s.err = false ∧ u.err = false ∧ s.ft = u.ft ∧ goesOn (exec .btree s) = true ∧ (after (exec .btree s)).err = false) ∧
    (v.err = false ∧ s.treeValid = true ∧ v.treeValid = true ∧ s.ft = v.ft ∧ s.nodes = v.nodes ∧ s.root = v.root ∧
      goesOn (exec .gcode s) = true ∧ (after (exec .gcode s)).err = false) := by decide

theorem test_witness_GcodeEffect_notReady : State.reset.err = false ∧ State.reset.treeValid = false := by decide

/-- 2.3 row 18: the longest path has 32 bits. -/
theorem test_witness_GcodeEffect_done :
    let s := treeState (fibTable 33 0 1 1)
    s.err = false ∧ s.treeValid = true ∧ TreeOk s.ft s.nodes s.root.toNat ∧ s.ft.length ≤ Config.hdc1.maxSyms ∧
      ∀ i < s.ft.length, ∀ bs, descend s.nodes s.root.toNat bs = some i → bs.length ≤ Config.hdc1.codeMax := by
  have h : TreeOk (treeState (fibTable 33 0 1 1)).ft _ _ := treeState_ok (by decide) (by decide) (by decide)
  refine ⟨rfl, rfl, h, by decide, fun i _ bs hd => ?_⟩
  have := h.path_length hd
  rw [show (treeState (fibTable 33 0 1 1)).ft.length = 33 by decide] at this
  have : Config.hdc1.codeMax = 32 := rfl
  omega

/-- 2.3 row 19: leaf 0 is at depth 33. -/
theorem test_witness_GcodeEffect_capacity :
    let s := treeState (fibTable 34 0 1 1)
    s.err = false ∧ s.treeValid = true ∧ TreeOk s.ft s.nodes s.root.toNat ∧ s.ft.length ≤ Config.hdc1.maxSyms ∧
      0 < s.ft.length ∧
      (∃ bs, descend s.nodes s.root.toNat bs = some 0 ∧ Config.hdc1.codeMax < bs.length) ∧
      ∀ j < 0, ∀ bs, descend s.nodes s.root.toNat bs = some j → bs.length ≤ Config.hdc1.codeMax :=
  ⟨rfl, rfl, treeState_ok (by decide) (by decide) (by decide), by decide, by decide,
    ⟨List.replicate 32 true ++ [false], by decide, by decide⟩, fun j hj => absurd hj (Nat.not_lt_zero j)⟩

/-- Two and more symbols, and one symbol. -/
theorem test_witness_CodeStatements :
    (TreeOk coded3.ft coded3.nodes coded3.root.toNat ∧ CodesOk coded3.ft coded3.nodes coded3.root.toNat coded3.ct ∧
      2 ≤ coded3.ft.length ∧ coded3.ct[0]? = some ⟨2, 2#32⟩ ∧ coded3.ct[1]? = some ⟨2, 3#32⟩ ∧ 0 ≠ 1 ∧
      coded3.ft.length ≤ 3 ∧ 3 < coded3.nodes.length) ∧
    (TreeOk oneLeaf.ft oneLeaf.nodes oneLeaf.root.toNat ∧
      CodesOk oneLeaf.ft oneLeaf.nodes oneLeaf.root.toNat [⟨1, 0#32⟩] ∧ oneLeaf.ft = [⟨42#32, 1#32⟩]) :=
  ⟨⟨coded3_tree, coded3_codes, by decide, by decide, by decide, by decide, by decide, by decide⟩,
    oneLeaf_tree, ⟨rfl, by decide⟩, rfl⟩

/-- Another prefix code for three symbols. -/
theorem test_witness_CodesAreOptimal :
    TreeOk coded3.ft coded3.nodes coded3.root.toNat ∧
    (∀ k, coded3.ft.length ≤ k → k < coded3.nodes.length → MergedLeast coded3.nodes k) ∧
    CodesOk coded3.ft coded3.nodes coded3.root.toNat coded3.ct ∧ 2 ≤ coded3.ft.length ∧
    ([[false], [true, false], [true, true]] : List (List Bool)).length = coded3.ft.length ∧
    ([[false], [true, false], [true, true]] : List (List Bool)).Pairwise (fun a b => ¬ a <+: b ∧ ¬ b <+: a) :=
  ⟨coded3_tree, fun k h1 h2 => (buildTree_ok (ft := table3) (by decide) (by decide) (by decide)).2 k h2 h1,
    coded3_codes, by decide, by decide, by decide⟩

theorem test_witness_CodeGeneratorFrame :
    goesOn (exec .btree coded3) = true ∧ goesOn (exec .gcode coded3) = true := by decide

/-! ## Witnesses: the encoder and the decoder -/

/-- One symbol, 5, whose code has `len` bits, all 0, and one value 5 (a code table that `GCODE` never makes). -/
def longCode (len : Nat) : State :=
  { valuesState [5#32] with ft := [⟨5#32, 1#32⟩], ct := [⟨len, 0#32⟩], treeValid := true, codesValid := true }

theorem coded3_values : ValuesAre coded3 [1#32, 2#32, 3#32, 3#32] :=
  valuesState_are (vs := [1#32, 2#32, 3#32, 3#32]) (by decide)

theorem longCode_values (len : Nat) : ValuesAre (longCode len) [5#32] := valuesState_are (vs := [5#32]) (by decide)

theorem longCode_codeword (len : Nat) :
    codewordFor (longCode len).ft (longCode len).ct 5#32 = some (codeBits ⟨len, 0#32⟩) := by
  simp [codewordFor, longCode]

theorem longCode_codewords (len : Nat) :
    CodewordsOf (longCode len).ft (longCode len).ct [5#32] [codeBits ⟨len, 0#32⟩] := by
  simp [CodewordsOf, longCode_codeword]

theorem test_witness_EncEffect_errors :
    (State.reset.err = false ∧ State.reset.codesValid = false) ∧
    ({ coded3 with vlen := 65537#32 }.err = false ∧ { coded3 with vlen := 65537#32 }.codesValid = true ∧
      Config.hdc1.maxValues < ({ coded3 with vlen := 65537#32 } : State).vlen.toNat) := by decide

/-- 2.4 row 3. -/
theorem test_witness_EncEffect_done :
    coded3.err = false ∧ coded3.codesValid = true ∧ ValuesAre coded3 [1#32, 2#32, 3#32, 3#32] ∧
    [1#32, 2#32, 3#32, 3#32].length ≤ Config.hdc1.maxValues ∧
    CodewordsOf coded3.ft coded3.ct [1#32, 2#32, 3#32, 3#32] [[true, false], [true, true], [false], [false]] ∧
    ([[true, false], [true, true], [false], [false]] : List (List Bool)).flatten.length ≤ 8 * Config.hdc1.maxBytes :=
  ⟨rfl, rfl, coded3_values, by decide, by unfold CodewordsOf; decide, by decide⟩

/-- A codeword that fills `BBUF` exactly, and one that is a bit too long. -/
theorem test_witness_EncEffect_full :
    (longCode 2097152).err = false ∧ (longCode 2097152).codesValid = true ∧ ValuesAre (longCode 2097152) [5#32] ∧
    CodewordsOf (longCode 2097152).ft (longCode 2097152).ct [5#32] [codeBits ⟨2097152, 0#32⟩] ∧
    [codeBits ⟨2097152, 0#32⟩].flatten.length = 8 * Config.hdc1.maxBytes :=
  ⟨rfl, rfl, longCode_values _, longCode_codewords _,
    by rw [List.flatten_singleton, codeBits_length]; rfl⟩

theorem test_witness_EncDataErrors_capacity :
    (longCode 2097153).err = false ∧ (longCode 2097153).codesValid = true ∧ ValuesAre (longCode 2097153) [5#32] ∧
    [5#32].length ≤ Config.hdc1.maxValues ∧ [5#32][0]? = some 5#32 ∧
    CodewordsOf (longCode 2097153).ft (longCode 2097153).ct ([5#32].take 0) [] ∧
    ([] : List (List Bool)).flatten.length ≤ 8 * Config.hdc1.maxBytes ∧
    codewordFor (longCode 2097153).ft (longCode 2097153).ct 5#32 = some (codeBits ⟨2097153, 0#32⟩) ∧
    8 * Config.hdc1.maxBytes < ([] : List (List Bool)).flatten.length + (codeBits ⟨2097153, 0#32⟩).length :=
  ⟨rfl, rfl, longCode_values _, by decide, rfl, rfl, by decide, longCode_codeword _,
    by rw [codeBits_length]; decide⟩

/-- P4: the value 9 at index 1 has no entry. -/
theorem test_witness_EncDataErrors_noCode :
    let vs := [1#32, 9#32, 3#32, 3#32]
    let s : State := { valuesState vs with ft := table3, ct := codes3, treeValid := true, codesValid := true }
    s.err = false ∧ s.codesValid = true ∧ ValuesAre s vs ∧ vs.length ≤ Config.hdc1.maxValues ∧ vs[1]? = some 9#32 ∧
      CodewordsOf s.ft s.ct (vs.take 1) [[true, false]] ∧
      ([[true, false]] : List (List Bool)).flatten.length ≤ 8 * Config.hdc1.maxBytes ∧ ∀ e ∈ s.ft, e.value ≠ 9#32 :=
  ⟨rfl, rfl, valuesState_are (vs := [1#32, 9#32, 3#32, 3#32]) (by decide), by decide, rfl,
    by unfold CodewordsOf; decide, by decide, by decide⟩

/-- The tree of 2.3 row 11: the leaves are 7 and 8, one bit each. -/
def twoLeaves : State := treeState [⟨7#32, 4#32⟩, ⟨8#32, 4#32⟩]

theorem twoLeaves_tree : TreeOk twoLeaves.ft twoLeaves.nodes twoLeaves.root.toNat :=
  treeState_ok (by decide) (by decide) (by decide)

theorem two_le_twoLeaves : 2 ≤ twoLeaves.ft.length := by decide

/-- `n` code bits 0 take `n` 0-bit paths to leaf 0. -/
theorem twoLeaves_paths (n : Nat) :
    LeafPaths twoLeaves.nodes twoLeaves.root.toNat twoLeaves.ft.length (List.replicate n [false]) (List.replicate n 0) := by
  refine ⟨?_, fun i hi => ?_⟩
  · rw [List.map_replicate, List.map_replicate]
    congr 1
  · rw [List.eq_of_mem_replicate hi]; decide

theorem flatten_zeros (n : Nat) : (List.replicate n [false]).flatten = List.replicate n false := by
  induction n with
  | zero => rfl
  | succ n ih => simp [List.replicate_succ, ih]

theorem short {bits : List Bool} (h : bits.length ≤ 2097152) : bits.length < 2 ^ 32 := by omega

theorem streamOn_lengths {s : State} {bits : List Bool} (h : bits.length ≤ 2097152) :
    (streamOn s bits).blen.toNat ≤ Config.hdc1.maxBytes ∧
    (streamOn s bits).bitcnt.toNat ≤ 8 * (streamOn s bits).blen.toNat := by
  simp only [streamOn, storeStream, bytesFor, BitVec.toNat_ofNat, Config.hdc1]
  omega

theorem test_witness_DecEffect_errors :
    (State.reset.err = false ∧ State.reset.treeValid = false) ∧
    (oneLeaf.err = false ∧ oneLeaf.treeValid = true ∧
      Config.hdc1.maxBytes < ({ oneLeaf with blen := 262145#32 } : State).blen.toNat) ∧
    (({ oneLeaf with bitcnt := 1#32 } : State).blen.toNat ≤ Config.hdc1.maxBytes ∧
      8 * ({ oneLeaf with bitcnt := 1#32 } : State).blen.toNat < ({ oneLeaf with bitcnt := 1#32 } : State).bitcnt.toNat) :=
  by decide

/-- 2.4 row 3, decoded. -/
theorem test_witness_DecEffect_done :
    packed3.err = false ∧ packed3.treeValid = true ∧ TreeOk packed3.ft packed3.nodes packed3.root.toNat ∧
    packed3.blen.toNat ≤ Config.hdc1.maxBytes ∧ packed3.bitcnt.toNat ≤ 8 * packed3.blen.toNat ∧ 2 ≤ packed3.ft.length ∧
    LeafPaths packed3.nodes packed3.root.toNat packed3.ft.length [[true, false], [true, true], [false], [false]]
      [0, 1, 2, 2] ∧
    StreamIs packed3 ([[true, false], [true, true], [false], [false]] : List (List Bool)).flatten ∧
    [0, 1, 2, 2].length ≤ Config.hdc1.maxValues :=
  ⟨rfl, rfl, coded3_tree, by decide, by decide, by decide, ⟨by decide, by decide⟩,
    streamOn_is coded3 (bits := [true, false, true, true, false, false]) (by decide), by decide⟩

/-- A full `VBUF`, from a tree of two leaves and from one of one leaf (2.4 row 29). -/
theorem test_witness_DecEffect_full :
    let s := streamOn twoLeaves (List.replicate 65536 [false]).flatten
    let u := streamOn oneLeaf (List.replicate 65536 false)
    (s.err = false ∧ s.treeValid = true ∧ TreeOk s.ft s.nodes s.root.toNat ∧ s.blen.toNat ≤ Config.hdc1.maxBytes ∧
      s.bitcnt.toNat ≤ 8 * s.blen.toNat ∧ 2 ≤ s.ft.length ∧
      LeafPaths s.nodes s.root.toNat s.ft.length (List.replicate 65536 [false]) (List.replicate 65536 0) ∧
      StreamIs s (List.replicate 65536 [false]).flatten ∧ (List.replicate 65536 0).length ≤ Config.hdc1.maxValues) ∧
    (u.err = false ∧ u.treeValid = true ∧ TreeOk u.ft u.nodes u.root.toNat ∧ u.blen.toNat ≤ Config.hdc1.maxBytes ∧
      u.bitcnt.toNat ≤ 8 * u.blen.toNat ∧ u.ft = [⟨42#32, 1#32⟩] ∧ StreamIs u (List.replicate 65536 false) ∧
      65536 ≤ Config.hdc1.maxValues) := by
  have h1 : (List.replicate 65536 [false]).flatten.length ≤ 2097152 := by rw [flatten_zeros, List.length_replicate]; norm_num
  have h2 : (List.replicate 65536 false).length ≤ 2097152 := by rw [List.length_replicate]; norm_num
  exact ⟨⟨rfl, rfl, twoLeaves_tree, (streamOn_lengths h1).1, (streamOn_lengths h1).2, two_le_twoLeaves,
      twoLeaves_paths _, streamOn_is _ (short h1), by rw [List.length_replicate]; exact Nat.le_refl _⟩,
    ⟨rfl, rfl, oneLeaf_tree, (streamOn_lengths h2).1, (streamOn_lengths h2).2, rfl, streamOn_is _ (short h2),
      Nat.le_refl _⟩⟩

/-- The hypotheses that all clauses of `DecDataErrors` share. -/
def DecStarts (s : State) : Prop :=
  s.err = false ∧ s.treeValid = true ∧ TreeOk s.ft s.nodes s.root.toNat ∧ s.blen.toNat ≤ Config.hdc1.maxBytes ∧
  s.bitcnt.toNat ≤ 8 * s.blen.toNat

theorem decStarts_streamOn {s : State} {bits : List Bool} (he : s.err = false) (ht : s.treeValid = true)
    (htree : TreeOk s.ft s.nodes s.root.toNat) (h : bits.length ≤ 2097152) : DecStarts (streamOn s bits) :=
  ⟨he, ht, htree, (streamOn_lengths h).1, (streamOn_lengths h).2⟩

/-- The stream `0 1` ends at node 3, inside a codeword. -/
theorem test_witness_DecDataErrors_end :
    let s := streamOn coded3 [false, true]
    DecStarts s ∧ 2 ≤ s.ft.length ∧ LeafPaths s.nodes s.root.toNat s.ft.length [[false]] [2] ∧
      [2].length ≤ Config.hdc1.maxValues ∧ [true] ≠ [] ∧ descend s.nodes s.root.toNat [true] = some 3 ∧ s.ft.length ≤ 3 ∧
      StreamIs s (([[false]] : List (List Bool)).flatten ++ [true]) :=
  ⟨decStarts_streamOn rfl rfl coded3_tree (by decide), by decide, ⟨by decide, by decide⟩, by decide, by decide, by decide,
    by decide, streamOn_is coded3 (bits := [false, true]) (by decide)⟩

/-- One value too many, with a surplus bit after it. -/
theorem test_witness_DecDataErrors_capacity :
    let s := streamOn twoLeaves ((List.replicate 65537 [false]).flatten ++ [true])
    let u := streamOn oneLeaf (List.replicate 65537 false ++ [true])
    (DecStarts s ∧ 2 ≤ s.ft.length ∧
      LeafPaths s.nodes s.root.toNat s.ft.length (List.replicate 65537 [false]) (List.replicate 65537 0) ∧
      (List.replicate 65537 0).length = Config.hdc1.maxValues + 1 ∧
      StreamIs s ((List.replicate 65537 [false]).flatten ++ [true])) ∧
    (DecStarts u ∧ u.ft = [⟨42#32, 1#32⟩] ∧
      StreamIs u (List.replicate (Config.hdc1.maxValues + 1) false ++ [true])) := by
  have e : Config.hdc1.maxValues + 1 = 65537 := by simp [Config.hdc1]
  rw [e]
  have h1 : ((List.replicate 65537 [false]).flatten ++ [true]).length ≤ 2097152 := by
    rw [flatten_zeros, List.length_append, List.length_replicate]; norm_num
  have h2 : (List.replicate 65537 false ++ [true]).length ≤ 2097152 := by
    rw [List.length_append, List.length_replicate]; norm_num
  exact ⟨⟨decStarts_streamOn rfl rfl twoLeaves_tree h1, two_le_twoLeaves, twoLeaves_paths _,
      by rw [List.length_replicate],
      streamOn_is _ (short h1)⟩,
    ⟨decStarts_streamOn rfl rfl oneLeaf_tree h2, rfl, streamOn_is _ (short h2)⟩⟩

/-- 2.4 row 27 and a 1 bit right after a full `VBUF`. -/
theorem test_witness_DecDataErrors_missing :
    let s := streamOn oneLeaf (List.replicate 2 false ++ true :: [])
    let u := streamOn oneLeaf (List.replicate 65536 false ++ true :: [])
    (DecStarts s ∧ s.ft = [⟨42#32, 1#32⟩] ∧ 2 ≤ Config.hdc1.maxValues ∧
      StreamIs s (List.replicate 2 false ++ true :: [])) ∧
    (DecStarts u ∧ u.ft = [⟨42#32, 1#32⟩] ∧ 65536 ≤ Config.hdc1.maxValues ∧
      StreamIs u (List.replicate 65536 false ++ true :: [])) := by
  have h1 : (List.replicate 2 false ++ true :: []).length ≤ 2097152 := by decide
  have h2 : (List.replicate 65536 false ++ true :: []).length ≤ 2097152 := by
    rw [List.length_append, List.length_replicate]; norm_num
  exact ⟨⟨decStarts_streamOn rfl rfl oneLeaf_tree h1, rfl, by decide, streamOn_is _ (short h1)⟩,
    ⟨decStarts_streamOn rfl rfl oneLeaf_tree h2, rfl, Nat.le_refl _, streamOn_is _ (short h2)⟩⟩

/-- 2.4 row 16: the padding bits are set. -/
theorem test_witness_DecIgnoresPadding :
    (∀ p < packed3.bitcnt.toNat, streamBit [(0, 0xB3#8)] p = streamBit packed3.bbuf p) ∧
    goesOn (exec .dec packed3) = true := by decide

/-- The whole chain on 2.4 row 3, with a second block that was given the table and the stream. -/
theorem test_witness_HuffmanRoundTrip :
    let vs := [1#32, 2#32, 3#32, 3#32]
    let s1 := after (exec .fcnt (valuesState vs))
    let s2 := after (exec .btree s1)
    let s3 := after (exec .gcode s2)
    let s4 := after (exec .enc s3)
    let u : State := { State.reset with ft := table3 }
    let u' := after (exec .btree u)
    let w := { u' with bbuf := [(0, 0xB0#8), (1, 7#8)], blen := s4.blen, bitcnt := s4.bitcnt }
    (valuesState vs).err = false ∧ ValuesAre (valuesState vs) vs ∧ 1 ≤ vs.length ∧ vs.length ≤ Config.hdc1.maxValues ∧
      vs.dedup.length ≤ Config.hdc1.maxSyms ∧ s3.err = false ∧ u.err = false ∧ u.ft = s4.ft ∧
      goesOn (exec .btree u) = true ∧ w.err = false ∧ w.treeValid = true ∧
      (∀ j < s4.blen.toNat, Memory.read w.bbuf j = Memory.read s4.bbuf j) ∧
      State.reset.err = false ∧ ValuesAre State.reset [] :=
  ⟨rfl, valuesState_are (by decide), by decide, by decide, by decide, by decide, by decide, by decide, by decide,
    by decide, by decide, by decide, rfl, ⟨rfl, by simp⟩⟩

theorem test_witness_CodecFrame :
    goesOn (exec .enc coded3) = true ∧ (after (exec .enc coded3)).err = false ∧ goesOn (exec .dec packed3) = true ∧
    (after (exec .dec packed3)).err = false := by decide

/-! ## Witnesses: the machine as a whole -/

theorem packed3_inv : packed3.Inv where
  table := ⟨by decide, by decide, by decide⟩
  tree := fun _ => coded3_tree
  noTree := fun h => by cases h
  codes := fun _ => coded3_codes
  noCodes := fun h => by cases h
  error := by decide
  clean := by decide
  vbuf := ⟨by decide, by decide⟩
  bbuf := ⟨by decide, by decide⟩

/-- A step that keeps everything to be kept: `ENC` on a state with tree and codes. -/
theorem test_witness_StepKeepsInv :
    (pend (.write 0x10 0x30#32) packed3).Inv ∧ goesOn (step (pend (.write 0x10 0x30#32) packed3)) = true :=
  ⟨⟨packed3_inv.table, packed3_inv.tree, packed3_inv.noTree, packed3_inv.codes, packed3_inv.noCodes, packed3_inv.error,
    packed3_inv.clean, packed3_inv.vbuf, packed3_inv.bbuf⟩, by decide⟩

theorem test_witness_EncNeverOverflowsBbuf :
    packed3.Inv ∧ packed3.err = false ∧ goesOn (exec .enc packed3) = true := ⟨packed3_inv, rfl, by decide⟩

theorem test_witness_EveryCommandCompletes : packed3.Inv ∧ ValuesWritten packed3 ∧ StreamWritten packed3 :=
  ⟨packed3_inv, by unfold ValuesWritten; decide, by unfold StreamWritten; decide⟩

/-- A value and a stream byte that were never written. -/
theorem test_witness_FaultsOnlyOnUnspecReads :
    State.Inv { packed3 with vlen := 5#32, blen := 2#32, bitcnt := 9#32 } ∧
    (match exec .fcnt { packed3 with vlen := 5#32, blen := 2#32, bitcnt := 9#32 } with
      | .fault f => f == .vbufUnspec 4
      | _ => false) = true ∧
    (match exec .dec { packed3 with vlen := 5#32, blen := 2#32, bitcnt := 9#32 } with
      | .fault f => f == .bbufUnspec 1
      | _ => false) = true :=
  ⟨⟨packed3_inv.table, packed3_inv.tree, packed3_inv.noTree, packed3_inv.codes, packed3_inv.noCodes, packed3_inv.error,
    packed3_inv.clean, packed3_inv.vbuf, packed3_inv.bbuf⟩, by decide, by decide⟩

/-- Every command goes on from one state. -/
theorem test_witness_CommandsLeaveTheHostAlone :
    ∀ i ∈ ([.nop, .clr 0x8F#8, .srst, .denc, .ddec, .fcnt, .fput, .btree, .gcode, .enc, .dec] : List Instr),
      goesOn (exec i packed3) = true := by decide

/-! ## Witnesses: any parameters (00_scope.md R5) -/

/-- A block just large enough for `packed3`. -/
def small : Config.Params := { maxValues := 4, maxBytes := 4, maxSyms := 3, codeMax := 2 }

theorem packed3_inv_small : packed3.Inv small where
  table := ⟨by decide, by decide, by decide⟩
  tree := fun _ => coded3_tree
  noTree := fun h => by cases h
  codes := fun _ => ⟨rfl, by decide⟩
  noCodes := fun h => by cases h
  error := by decide
  clean := by decide
  vbuf := ⟨by decide, by decide⟩
  bbuf := ⟨by decide, by decide⟩

theorem test_witness_StepRunsTheDecodedCommandAnyParams :
    (pend (.write 0x10 0x20#32) coded3).pending = .write 0x10 0x20#32 :: [] ∧ decode 0x20#32 = .instr .fcnt ∧
    goesOn (stepWith small (pend (.write 0x10 0x20#32) coded3)) = true := by decide

/-- The greatest and the least parameters that R5 admits. -/
theorem test_witness_CapacityRegistersAnyParams :
    Config.Params.ok ⟨2 ^ 18, 2 ^ 20, 2 ^ 15, 32⟩ = true ∧ Config.Params.ok ⟨1, 0, 1, 1⟩ = true ∧ small.ok = true := by decide

/-- Writes to the last `VBUF` cell and the last `BBUF` word of a small block, and to the words after them. -/
theorem test_witness_WindowsFollowTheCapacities_buffers :
    small.ok = true ∧
    (3 < 2 ^ 18 ∧ 3 < small.maxValues ∧
      (pend (.write (0x100000 + 4 * 3) 7#32) coded3).pending = .write (0x100000 + 4 * 3) 7#32 :: []) ∧
    (4 < 2 ^ 18 ∧ ¬ 4 < small.maxValues ∧
      (pend (.write (0x100000 + 4 * 4) 7#32) coded3).pending = .write (0x100000 + 4 * 4) 7#32 :: []) ∧
    (0 < 2 ^ 18 ∧ 3 < 4 ∧ 4 * 0 < small.maxBytes ∧
      (pend (.write (0x200000 + 4 * 0) 7#32) coded3).pending = .write (0x200000 + 4 * 0) 7#32 :: []) ∧
    (1 < 2 ^ 18 ∧ small.maxBytes ≤ 4 * 1 ∧
      (pend (.write (0x200000 + 4 * 1) 7#32) coded3).pending = .write (0x200000 + 4 * 1) 7#32 :: []) := by decide

/-- The last entries below a small block's capacities and the first ones from there; and the tables of `coded3` in a block of
one symbol, whose windows end before the tables do. -/
theorem test_witness_WindowsFollowTheCapacities_tables :
    (2 < 2 ^ 17 ∧ 2 < small.maxSyms ∧ 3 < 2 ^ 17 ∧ ¬ 3 < small.maxSyms) ∧
    (2 < 2 ^ 16 ∧ 2 < 2 * small.maxSyms - 1 ∧ coded3.nodes[2]? = some (.leaf 2#32 3#32)) ∧
    (4 < 2 ^ 16 ∧ 4 < 2 * small.maxSyms - 1 ∧ coded3.nodes[4]? = some (.internal 4#32 2 3)) ∧
    (5 < 2 ^ 16 ∧ coded3.nodes.length ≤ 5 ∧ 2 * small.maxSyms - 1 ≤ 5 ∧ 3 < 4) ∧
    (coded3.codesValid = true ∧ 2 < coded3.ft.length ∧ coded3.ct[2]? = some ⟨1, 0#32⟩) ∧
    (State.reset.codesValid = false ∧ coded3.ft.length ≤ 3 ∧ small.maxSyms ≤ 3) ∧
    (Config.Params.ok ⟨4, 4, 1, 2⟩ = true ∧ ¬ coded3.ft.length ≤ 1 ∧ ¬ coded3.nodes.length ≤ 1) := by decide

/-- The first and the last word of the three read-only windows. -/
theorem test_witness_WindowsFollowTheCapacities_readOnly :
    ∀ a ∈ [0x300000, 0x3FFFFC, 0x400000, 0x4FFFFC, 0x500000, 0x5FFFFC],
      (pend (.write a 7#32) coded3).pending = .write a 7#32 :: [] ∧ a % 4 = 0 ∧ 0x300000 ≤ a ∧ a < 0x600000 := by decide

theorem test_witness_StepKeepsInvAnyParams :
    small.ok = true ∧ State.Inv (pend (.write 0x10 0x30#32) packed3) small ∧
    goesOn (stepWith small (pend (.write 0x10 0x30#32) packed3)) = true :=
  ⟨by decide, ⟨packed3_inv_small.table, packed3_inv_small.tree, packed3_inv_small.noTree, packed3_inv_small.codes,
    packed3_inv_small.noCodes, packed3_inv_small.error, packed3_inv_small.clean, packed3_inv_small.vbuf,
    packed3_inv_small.bbuf⟩, by decide⟩

theorem test_witness_RunKeepsInvAnyParams :
    small.ok = true ∧ packed3.Inv small ∧ goesOn (runProgram small [cmd .enc, rd (.reg .bitcnt), cmd .dec] packed3) = true :=
  ⟨by decide, packed3_inv_small, by decide⟩

theorem test_witness_EveryCommandCompletesAnyParams :
    small.ok = true ∧ packed3.Inv small ∧ ValuesWritten packed3 ∧ StreamWritten packed3 :=
  ⟨by decide, packed3_inv_small, by unfold ValuesWritten; decide, by unfold StreamWritten; decide⟩

theorem test_witness_EncNeverOverflowsAnyParams :
    small.ok = true ∧ small.codeMax * small.maxValues ≤ 8 * small.maxBytes ∧ packed3.Inv small ∧ packed3.err = false ∧
    goesOn (execWith small .enc packed3) = true :=
  ⟨by decide, by decide, packed3_inv_small, rfl, by decide⟩

end Sys2Proof.Tests
end

/-! # The machine invariant, for any parameters (00_scope.md R5, 10_state.md R42)

One predicate on outcomes, `Safe`, carries both halves of the argument: a next state has the invariant, and the machine
stops only where a command reads an `UNSPEC` cell. -/

section

namespace Sys2Proof.Machine

/-! ## R5's constraints, and tables within them -/

/-- The constraints of R5 as inequalities. -/
theorem params_ok_iff {P : Config.Params} : P.ok = true ↔
    1 ≤ P.maxValues ∧ P.maxValues ≤ 2 ^ 18 ∧ P.maxBytes % 4 = 0 ∧ P.maxBytes ≤ 2 ^ 20 ∧ 8 * P.maxBytes < 2 ^ 32 ∧
      1 ≤ P.maxSyms ∧ P.maxSyms ≤ 2 ^ 15 ∧ 1 ≤ P.codeMax ∧ P.codeMax ≤ 32 := by
  simp only [Config.Params.ok, Bool.and_eq_true, decide_eq_true_eq, and_assoc]

theorem tableOk_nil (P : Config.Params) : TableOk [] P := ⟨List.Pairwise.nil, by simp, Nat.zero_le _⟩

/-- Inserting a new value with a count into a table that is not full keeps R34. -/
theorem TableOk.insert {ft : List FtEntry} {P : Config.Params} (h : TableOk ft P) {e : FtEntry}
    (hnew : lookup ft e.value = none) (hcount : e.count ≠ 0#32) (hroom : ft.length ≠ P.maxSyms) :
    TableOk (insertEntry e ft) P where
  ascending := insertEntry_ascending h.ascending (lookup_eq_none.mp hnew)
  positive := fun x hx => by
    rcases insertEntry_mem.mp hx with rfl | hx
    · exact hcount
    · exact h.positive x hx
  fits := by have := h.fits; rw [insertEntry_length]; omega

/-- The frequency table of fewer than `2^32` values has R34's form: no count wraps to 0. -/
theorem TableOf.tableOk {us : List Word} {ft : List FtEntry} {P : Config.Params} (h : TableOf us ft)
    (hus : us.length < 2 ^ 32) (hfits : ft.length ≤ P.maxSyms) : TableOk ft P where
  ascending := h.ascending
  positive := fun e he => by
    obtain ⟨hmem, hcount⟩ := (h.entries e).mp he
    have hpos := List.count_pos_iff.mpr hmem
    have hle := List.count_le_length (a := e.value) (l := us)
    rw [hcount, ne_eq, ← BitVec.toNat_inj, BitVec.toNat_ofNat, BitVec.toNat_ofNat]
    omega
  fits := hfits

/-- The code made from the path of leaf `i` has R37's form, when the path is not too long. -/
theorem PathOf.codeOk {P : Config.Params} (hP : P.codeMax ≤ 32) {ft : List FtEntry} {nodes : List Node} {root i : Nat}
    (ht : TreeOk ft nodes root) (hi : i < ft.length) {p : LeafPath} (hp : PathOf nodes root ft.length i p)
    (hlen : p.len ≤ P.codeMax) : codeOk P nodes root ft.length i p.code = true := by
  obtain ⟨-, hp⟩ := hp
  by_cases h1 : ft.length = 1
  · rw [if_pos h1] at hp
    obtain ⟨hl, hb⟩ := hp
    simp [Machine.codeOk, LeafPath.code, h1, hl, hb]
    omega
  · rw [if_neg h1] at hp
    obtain ⟨bs, hd, hl, hb⟩ := hp
    have hne : 1 ≤ bs.length := by
      cases bs with
      | nil =>
        have hroot : root = i := by simpa [descend] using hd
        have := ht.rootLast
        omega
      | cons b bs => simp
    have hbits : codeBits p.code = bs := by rw [LeafPath.code, hl, hb]; exact codeBits_of_path (by omega)
    have hlt : p.code.bits.toNat < 2 ^ p.len := by
      rw [LeafPath.code, BitVec.toNat_ofNat, hb, hl]
      exact lt_of_le_of_lt (Nat.mod_le _ _) (natOfBits_lt bs)
    simp only [Machine.codeOk, hbits, hd, if_neg h1, Bool.and_eq_true, decide_eq_true_eq, beq_self_eq_true, and_true]
    exact ⟨⟨show 1 ≤ p.len by omega, hlen⟩, hlt⟩

/-! ## Updates that keep the invariant -/

section

variable {P : Config.Params} {s : State}

/-- The invariant speaks of the two buffers only through their form, and of no length, operand register or field of the
host at all. -/
theorem State.Inv.of_buffers {t : State} (h : s.Inv P) (hv : BufferOk P.maxValues t.vbuf)
    (hb : BufferOk P.maxBytes t.bbuf)
    (ht : t = { s with vbuf := t.vbuf, bbuf := t.bbuf, vlen := t.vlen, blen := t.blen, bitcnt := t.bitcnt,
                       ftVal := t.ftVal, ftCnt := t.ftCnt, pending := t.pending, txnIndex := t.txnIndex,
                       readLog := t.readLog }) : t.Inv P := by
  obtain ⟨table, tree, noTree, codes, noCodes, error, clean, -, -⟩ := h
  rw [ht]
  exact ⟨table, tree, noTree, codes, noCodes, error, clean, hv, hb⟩

theorem State.Inv.takeEvent (h : s.Inv P) (rest : List HostEvent) : (takeEvent rest s).Inv P :=
  h.of_buffers h.vbuf h.bbuf rfl

theorem State.Inv.raiseError (h : s.Inv P) {code : ErrCode} (hcode : code ≠ .none) (info c : Word) :
    (raiseError code info c s).Inv P where
  table := h.table
  tree := h.tree
  noTree := h.noTree
  codes := h.codes
  noCodes := h.noCodes
  error := by simp [hcode]
  clean := by simp
  vbuf := h.vbuf
  bbuf := h.bbuf

theorem State.Inv.clearError (h : s.Inv P) : (clearError s).Inv P where
  table := h.table
  tree := h.tree
  noTree := h.noTree
  codes := h.codes
  noCodes := h.noCodes
  error := by simp
  clean := by simp
  vbuf := h.vbuf
  bbuf := h.bbuf

/-- A new table comes with the tree and the codes invalidated (R38). -/
theorem State.Inv.storeTable (h : s.Inv P) {ft : List FtEntry} (hft : TableOk ft P) : (storeTable ft s).Inv P where
  table := hft
  tree := by simp
  noTree := by simp
  codes := by simp
  noCodes := by simp
  error := h.error
  clean := h.clean
  vbuf := h.vbuf
  bbuf := h.bbuf

theorem State.Inv.invalidateTree (h : s.Inv P) : (invalidateTree s).Inv P := h.storeTable h.table

theorem State.Inv.invalidateCodes (h : s.Inv P) : (invalidateCodes s).Inv P where
  table := h.table
  tree := h.tree
  noTree := fun ht => ⟨(h.noTree ht).1, (h.noTree ht).2.1, rfl⟩
  codes := by simp
  noCodes := by simp
  error := h.error
  clean := h.clean
  vbuf := h.vbuf
  bbuf := h.bbuf

theorem State.Inv.storeTree (h : s.Inv P) {t : List Node × Word} (ht : TreeOk s.ft t.1 t.2.toNat) :
    (storeTree t s).Inv P where
  table := h.table
  tree := fun _ => ht
  noTree := by simp
  codes := by simp
  noCodes := by simp
  error := h.error
  clean := h.clean
  vbuf := h.vbuf
  bbuf := h.bbuf

theorem State.Inv.storeCodes (h : s.Inv P) (ht : s.treeValid = true) {ct : List Code}
    (hct : CodesOk s.ft s.nodes s.root.toNat ct P) : (storeCodes ct s).Inv P where
  table := h.table
  tree := h.tree
  noTree := by simp [ht]
  codes := fun _ => hct
  noCodes := by simp
  error := h.error
  clean := h.clean
  vbuf := h.vbuf
  bbuf := h.bbuf

/-- The reset block has the invariant, whatever the host's side holds. -/
theorem resetBlock_inv (P : Config.Params) (s : State) : (resetBlock s).Inv P where
  table := tableOk_nil P
  tree := by simp
  noTree := by simp
  codes := by simp
  noCodes := by simp
  error := by simp
  clean := by simp
  vbuf := ⟨wf_nil, by simp⟩
  bbuf := ⟨wf_nil, by simp⟩

/-- A part of `CLR` that keeps the invariant keeps it also where the mask leaves it out. -/
theorem State.Inv.onlyIf (h : s.Inv P) (b : Bool) {part : State → State}
    (hpart : ∀ {u : State}, u.Inv P → (part u).Inv P) : (onlyIf b part s).Inv P := by
  cases b with
  | false => exact h
  | true => exact hpart h

theorem State.Inv.clearParts (h : s.Inv P) (arg : Byte) : (clearParts arg s).Inv P := by
  have hV := h.onlyIf (maskV arg) (part := clearV) fun hu => hu.of_buffers hu.vbuf hu.bbuf rfl
  have hB := hV.onlyIf (maskB arg) (part := clearB) fun hu => hu.of_buffers hu.vbuf hu.bbuf rfl
  have hF := hB.onlyIf (maskF arg) (part := clearF) fun hu => hu.storeTable (tableOk_nil P)
  have hT := hF.onlyIf (maskT arg) State.Inv.invalidateTree
  exact hT.onlyIf (maskE arg) State.Inv.clearError

/-! ## Outcomes that keep the invariant -/

/-- The outcome keeps the invariant for `P`, or is a fault that `mayStop` allows. -/
def Safe (P : Config.Params) (mayStop : Prop) : Host.Outcome State Fault Refusal → Prop
  | .next t => t.Inv P
  | .fault _ => mayStop
  | .refused _ => False

/-- What a command's loop may come to: a result with `good`, an error with a code, or a stop that `mayStop` allows. -/
def Work.Meets {α : Type} (good : α → Prop) (mayStop : Prop) : Work α → Prop
  | .done a => good a
  | .raise code _ => code ≠ .none
  | .stop _ => mayStop

variable {mayStop : Prop} {o : Host.Outcome State Fault Refusal}

theorem Safe.mono (h : Safe P mayStop o) {mayStop' : Prop} (himp : mayStop → mayStop') : Safe P mayStop' o := by
  cases o with
  | next t => exact h
  | fault f => exact himp h
  | refused r => exact h

theorem Safe.inv {t : State} (h : Safe P mayStop o) (ho : o = .next t) : t.Inv P := by subst ho; exact h

theorem Safe.completes (h : Safe P mayStop o) (hno : ¬ mayStop) : ∃ t, o = .next t := by
  cases o with
  | next t => exact ⟨t, rfl⟩
  | fault f => exact absurd h hno
  | refused r => exact h.elim

theorem safe_raise (h : s.Inv P) {code : ErrCode} (hcode : code ≠ .none) (info c : Word) :
    Safe P mayStop (.next (raiseError code info c s)) := h.raiseError hcode info c

theorem safe_gated (h : s.Inv P) (ho : Safe P mayStop o) : Safe P mayStop (gated s o) := by
  cases he : s.err with
  | true => rw [gated_of_err he]; exact h
  | false => rwa [gated_of_ok he]

/-- A command that ends with its work is safe when the work is, the result may be stored, and the destination may be
spoiled. -/
theorem safe_settle {α : Type} {good : α → Prop} {w : Work α} {store : α → State → State} {spoil : State → State}
    (cmd : Word) (hw : w.Meets good mayStop) (hstore : ∀ a, good a → (store a s).Inv P) (hspoil : (spoil s).Inv P) :
    Safe P mayStop (settle cmd s store spoil w) := by
  cases w with
  | done a => exact hstore a hw
  | raise code info => exact hspoil.raiseError hw info cmd
  | stop f => exact hw

/-! ## What the loops come to -/

theorem encodeDeltas_meets (cells : List (Option Word)) (k : Nat) (a b : Word) :
    (encodeDeltas k a b cells).Meets (fun out => out.length = cells.length) (none ∈ cells) := by
  rcases encodeDeltas_cases cells k a b with ⟨out, hd, hl⟩ | ⟨j, -, hr⟩ | ⟨j, hj, hs⟩
  · rw [hd]; exact hl
  · rw [hr]; exact ErrCode.noConfusion
  · rw [hs]; exact List.mem_of_getElem? hj

theorem decodeDeltas_meets (cells : List (Option Word)) (k : Nat) (a b : Word) :
    (decodeDeltas k a b cells).Meets (fun out => out.length = cells.length) (none ∈ cells) := by
  rcases decodeDeltas_cases cells k a b with ⟨out, hd, hl⟩ | ⟨j, -, hr⟩ | ⟨j, hj, hs⟩
  · rw [hd]; exact hl
  · rw [hr]; exact ErrCode.noConfusion
  · rw [hs]; exact List.mem_of_getElem? hj

theorem countValues_meets {cells : List (Option Word)} (hcells : cells.length < 2 ^ 32) :
    (countValues P.maxSyms 0 [] cells).Meets (fun ft => TableOk ft P) (none ∈ cells) := by
  rcases countValues_cases P.maxSyms cells 0 [] [] tableOf_nil (Nat.zero_le _) with
    ⟨vs, ft, hc, hd, htable, hfits⟩ | ⟨j, -, hr⟩ | ⟨j, hj, hs⟩
  · rw [hd]
    exact htable.tableOk (by simpa [hc] using hcells) hfits
  · rw [hr]; exact ErrCode.noConfusion
  · rw [hs]; exact List.mem_of_getElem? hj

/-- Over a tree of R36 `GCODE` never stops. -/
theorem generateCodes_meets (hP : P.codeMax ≤ 32) {ft : List FtEntry} {nodes : List Node} {root : Nat}
    (ht : TreeOk ft nodes root) :
    (generateCodes P.codeMax nodes root ft.length).Meets (fun ct => CodesOk ft nodes root ct P) False := by
  obtain ⟨paths, hlen, hpaths, hgen⟩ := generateCodes_ok ht P.codeMax
  rw [hgen]
  split
  · exact ErrCode.noConfusion
  · rename_i hshort
    refine ⟨by simp [hlen], fun i hi => ?_⟩
    rw [List.length_map] at hi
    have hfit : paths[i].len ≤ P.codeMax := by
      simpa using List.findIdx?_eq_none_iff.mp hshort paths[i] (List.getElem_mem hi)
    rw [List.getElem?_map, List.getElem?_eq_getElem hi, Option.map_some, Option.map_some,
      (hpaths i hi).codeOk hP ht (by omega) hfit]

theorem encodeValues_meets {ft : List FtEntry} {ct : List Code} (hct : ct.length = ft.length)
    (cells : List (Option Word)) :
    (encodeValues P.maxBytes ft ct 0 0 cells).Meets (fun bs => bs.length ≤ 8 * P.maxBytes) (none ∈ cells) := by
  rcases encodeValues_cases P.maxBytes hct cells 0 0 (Nat.zero_le _) with
    ⟨vs, words, -, -, hfit, hd⟩ | ⟨j, -, code, hcode, hr⟩ | ⟨j, hj, hs⟩
  · rw [hd]
    show words.flatten.length ≤ 8 * P.maxBytes
    omega
  · rw [hr]
    rcases hcode with rfl | rfl <;> exact ErrCode.noConfusion
  · rw [hs]; exact List.mem_of_getElem? hj

theorem decodeBits_meets {ft : List FtEntry} {nodes : List Node} {root : Nat} (ht : TreeOk ft nodes root)
    (bbuf : Memory Byte) (total : Word) (n : Nat) :
    (decodeBits P.maxValues bbuf nodes root total n 0 root 0).Meets (fun out => out.length ≤ P.maxValues)
      (∃ q < n, streamBit bbuf q = none) := by
  rcases decodeBits_cases (maxValues := P.maxValues) (bbuf := bbuf) (total := total) ht n 0 root 0 (.inl rfl)
    (Nat.zero_le _) with ⟨out, hd, hfit⟩ | ⟨code, info, hcode, hr⟩ | ⟨q, -, hq, hnone, hs⟩
  · rw [hd]
    show out.length ≤ P.maxValues
    omega
  · rw [hr]
    rcases hcode with rfl | rfl <;> exact ErrCode.noConfusion
  · rw [hs]; exact ⟨q, by omega, hnone⟩

/-! ## The commands -/

/-- Some cell of the value sequence is `UNSPEC`. -/
def ValueUnspec (s : State) : Prop := none ∈ valueCells s

/-- Some bit of the stream is in an `UNSPEC` byte. -/
def StreamUnspec (s : State) : Prop := ∃ q < s.bitcnt.toNat, streamBit s.bbuf q = none

@[simp] theorem valueCells_length (s : State) : (valueCells s).length = s.vlen.toNat := by simp [valueCells]

theorem not_valueUnspec (h : ValuesWritten s) : ¬ ValueUnspec s := by
  intro hmem
  obtain ⟨k, hk, hnone⟩ := List.mem_iff_getElem.mp hmem
  have hk' : k < s.vlen.toNat := by simpa using hk
  have hread : (valueCells s)[k]? = some (Memory.read s.vbuf k) := by
    rw [valueCells, cellsFrom_getElem?, if_pos hk', Nat.zero_add]
  rw [List.getElem?_eq_getElem hk, hnone, Option.some.injEq] at hread
  have := h k hk'
  simp [← hread] at this

theorem not_streamUnspec (h : StreamWritten s) : ¬ StreamUnspec s := by
  rintro ⟨q, hq, hnone⟩
  have hread : Memory.read s.bbuf (q / 8) = none := by simpa [streamBit] using hnone
  have := h (q / 8) (by rw [bytesFor]; omega)
  simp [hread] at this

/-- Values written back from cell 0 up, when they fit, keep the buffer's form. -/
theorem State.Inv.vbuf_writeFrom (h : s.Inv P) {out : List Word} (hfit : out.length ≤ P.maxValues) :
    BufferOk P.maxValues (Memory.writeFrom s.vbuf 0 out) := writeFrom_ok h.vbuf (by omega)

theorem deltaCommand_safe (h : s.Inv P) (cmd : Word) {loop : List (Option Word) → Work (List Word)}
    (hloop : (loop (valueCells s)).Meets (fun out => out.length = (valueCells s).length) (ValueUnspec s)) :
    Safe P (ValueUnspec s) (deltaCommand P cmd loop s) := by
  unfold deltaCommand
  split
  · exact safe_raise h ErrCode.noConfusion _ _
  · split
    · exact safe_raise h ErrCode.noConfusion _ _
    · refine safe_settle cmd hloop (fun out hout => ?_) (h.of_buffers (forget_ok h.vbuf _) h.bbuf rfl)
      rw [valueCells_length] at hout
      exact h.of_buffers (h.vbuf_writeFrom (by omega)) h.bbuf rfl

theorem fcntWith_safe (hP : P.ok = true) (h : s.Inv P) : Safe P (ValueUnspec s) (fcntWith P s) := by
  refine safe_gated h ?_
  split
  · exact safe_raise h ErrCode.noConfusion _ _
  · obtain ⟨-, hvalues, -⟩ := params_ok_iff.mp hP
    exact safe_settle _ (countValues_meets (by rw [valueCells_length]; omega)) (fun ft hft => h.storeTable hft)
      (h.storeTable (tableOk_nil P))

theorem fputWith_safe (h : s.Inv P) : Safe P mayStop (fputWith P s) := by
  refine safe_gated h ?_
  split
  · exact safe_raise h ErrCode.noConfusion _ _
  · rename_i hcount
    split
    · exact safe_raise h ErrCode.noConfusion _ _
    · rename_i hnew
      split
      · exact safe_raise h ErrCode.noConfusion _ _
      · rename_i hroom
        exact h.storeTable (h.table.insert hnew hcount hroom)

theorem execBtree_safe (hP : P.ok = true) (h : s.Inv P) : Safe P mayStop (execBtree s) := by
  refine safe_gated h ?_
  split
  · exact safe_raise h ErrCode.noConfusion _ _
  · rename_i hne
    split
    · exact safe_raise h ErrCode.noConfusion _ _
    · rename_i hsum
      obtain ⟨-, -, -, -, -, -, hsyms, -⟩ := params_ok_iff.mp hP
      have hfits := h.table.fits
      have hft : s.ft ≠ [] := fun hnil => hne (by simp [hnil])
      exact h.storeTree (buildTree_ok hft (by omega) (by omega)).1

theorem gcodeWith_safe (hP : P.ok = true) (h : s.Inv P) : Safe P mayStop (gcodeWith P s) := by
  refine safe_gated h ?_
  split
  · exact safe_raise h ErrCode.noConfusion _ _
  · rename_i hvalid
    have hvalid : s.treeValid = true := by simpa using hvalid
    obtain ⟨-, -, -, -, -, -, -, -, hcode⟩ := params_ok_iff.mp hP
    exact (safe_settle _ (generateCodes_meets hcode (h.tree hvalid)) (fun ct hct => h.storeCodes hvalid hct)
      h.invalidateCodes).mono False.elim

theorem encWith_safe (h : s.Inv P) : Safe P (ValueUnspec s) (encWith P s) := by
  refine safe_gated h ?_
  split
  · exact safe_raise h ErrCode.noConfusion _ _
  · rename_i hvalid
    have hvalid : s.codesValid = true := by simpa using hvalid
    split
    · exact safe_raise h ErrCode.noConfusion _ _
    · refine safe_settle _ (encodeValues_meets (h.codes hvalid).count _) (fun bs hbs => ?_)
        (h.of_buffers h.vbuf (forget_ok h.bbuf _) rfl)
      refine h.of_buffers h.vbuf (writeFrom_ok h.bbuf ?_) rfl
      rw [packBytes_length, bytesFor]
      omega

theorem decWith_safe (h : s.Inv P) : Safe P (StreamUnspec s) (decWith P s) := by
  refine safe_gated h ?_
  split
  · exact safe_raise h ErrCode.noConfusion _ _
  · rename_i hvalid
    have hvalid : s.treeValid = true := by simpa using hvalid
    split
    · exact safe_raise h ErrCode.noConfusion _ _
    · split
      · exact safe_raise h ErrCode.noConfusion _ _
      · exact safe_settle _ (decodeBits_meets (h.tree hvalid) _ _ _)
          (fun out hout => h.of_buffers (h.vbuf_writeFrom hout) h.bbuf rfl)
          (h.of_buffers (forget_ok h.vbuf _) h.bbuf rfl)

theorem execClr_safe (h : s.Inv P) (arg : Byte) : Safe P mayStop (execClr arg s) := by
  unfold execClr
  split
  · exact h
  · exact h.clearParts arg

/-- Every command keeps the invariant, and stops only where it reads an `UNSPEC` cell. -/
theorem execWith_safe (hP : P.ok = true) (h : s.Inv P) (i : Instr) :
    Safe P (ValueUnspec s ∨ StreamUnspec s) (execWith P i s) := by
  cases i with
  | nop => exact safe_gated h h
  | clr arg => exact execClr_safe h arg
  | srst => exact resetBlock_inv P s
  | denc => exact (safe_gated h (deltaCommand_safe h _ (encodeDeltas_meets _ _ _ _))).mono .inl
  | ddec => exact (safe_gated h (deltaCommand_safe h _ (decodeDeltas_meets _ _ _ _))).mono .inl
  | fcnt => exact (fcntWith_safe hP h).mono .inl
  | fput => exact fputWith_safe h
  | btree => exact execBtree_safe hP h
  | gcode => exact gcodeWith_safe hP h
  | enc => exact (encWith_safe h).mono .inl
  | dec => exact (decWith_safe h).mono .inr

/-! ## The port -/

/-- A window address reaches an entry below the window's count, or is reserved. -/
theorem windowLoc_cases (mk : Nat → Nat → Loc) (words count offset : Nat) :
    (∃ i w, i < count ∧ windowLoc mk words count offset = mk i w) ∨ windowLoc mk words count offset = .reserved := by
  unfold windowLoc
  split
  · rename_i hi; exact .inl ⟨_, _, hi, rfl⟩
  · exact .inr rfl

/-- A write to a read-only window is ignored, at every word of it. -/
theorem writeLoc_windowLoc {mk : Nat → Nat → Loc} (hmk : ∀ i w v s, writeLoc v s (mk i w) = s) (words count offset : Nat)
    (v : Word) (s : State) : writeLoc v s (windowLoc mk words count offset) = s := by
  rcases windowLoc_cases mk words count offset with ⟨i, w, -, he⟩ | he
  · rw [he, hmk]
  · rw [he]; rfl

/-- What a host write can reach: a register, a cell of `VBUF` or a word of `BBUF` below the capacity, or a place where it is
ignored. -/
theorem locate_write_cases (P : Config.Params) (a : Nat) :
    (∃ r, locate P a = .reg r) ∨ (∃ i < P.maxValues, locate P a = .vbuf i) ∨
    (∃ j < P.maxBytes / 4, locate P a = .bbuf j) ∨ (∀ v s, writeLoc v s (locate P a) = s) := by
  unfold locate
  split
  · split
    · exact .inl ⟨_, rfl⟩
    · exact .inr (.inr (.inr fun _ _ => rfl))
  · rcases windowLoc_cases (fun i _ => .vbuf i) 1 P.maxValues (a % 0x100000) with ⟨i, -, hi, he⟩ | he
    · exact .inr (.inl ⟨i, hi, he⟩)
    · exact .inr (.inr (.inr fun _ _ => by rw [he]; rfl))
  · rcases windowLoc_cases (fun j _ => .bbuf j) 1 (P.maxBytes / 4) (a % 0x100000) with ⟨j, -, hj, he⟩ | he
    · exact .inr (.inr (.inl ⟨j, hj, he⟩))
    · exact .inr (.inr (.inr fun _ _ => by rw [he]; rfl))
  · exact .inr (.inr (.inr (writeLoc_windowLoc (fun _ _ _ _ => rfl) _ _ _)))
  · exact .inr (.inr (.inr (writeLoc_windowLoc (fun _ _ _ _ => rfl) _ _ _)))
  · exact .inr (.inr (.inr (writeLoc_windowLoc (fun _ _ _ _ => rfl) _ _ _)))
  · exact .inr (.inr (.inr fun _ _ => rfl))

/-- A host write outside `CMD` keeps the invariant. -/
theorem State.Inv.writeLoc (hP : P.ok = true) (h : s.Inv P) (v : Word) (a : Nat) :
    (writeLoc v s (locate P a)).Inv P := by
  rcases locate_write_cases P a with ⟨r, hl⟩ | ⟨i, hi, hl⟩ | ⟨j, hj, hl⟩ | hl
  · rw [hl]
    cases r <;> exact h.of_buffers h.vbuf h.bbuf rfl
  · rw [hl]
    exact h.of_buffers (write_ok h.vbuf hi v) h.bbuf rfl
  · rw [hl]
    obtain ⟨-, -, hwords, -⟩ := params_ok_iff.mp hP
    exact h.of_buffers h.vbuf (writeFrom_ok h.bbuf (by simp only [wordBytes, List.length_cons, List.length_nil]; omega)) rfl
  · rwa [hl]

theorem command_inv (hP : P.ok = true) (h : s.Inv P) {c : Word} {t : State} (ht : command P c s = .next t) : t.Inv P := by
  rcases command_next ht with ⟨i, -, hexec⟩ | ⟨why, -, ⟨-, rfl⟩ | ⟨-, rfl⟩⟩
  · exact (execWith_safe hP h i).inv hexec
  · exact h
  · exact h.raiseError ErrCode.noConfusion _ _

/-- Every kind of transaction keeps the invariant. -/
theorem stepWith_inv (hP : P.ok = true) (h : s.Inv P) {t : State} (hstep : stepWith P s = .next t) : t.Inv P := by
  rcases stepWith_next hstep with ⟨-, rfl⟩ | ⟨rest, -, rfl⟩ | ⟨a, rest, -, -, rfl⟩ | ⟨a, v, rest, -, -, -, rfl⟩ |
    ⟨c, rest, -, hcmd⟩
  · exact h
  · exact resetBlock_inv P _
  · exact (h.takeEvent rest).of_buffers h.vbuf h.bbuf rfl
  · exact (h.takeEvent rest).writeLoc hP v a
  · exact command_inv hP (h.takeEvent rest) hcmd

theorem stepTimes_inv (hP : P.ok = true) (n : Nat) {t : State} (h : s.Inv P) (ht : stepTimes P n s = .next t) :
    t.Inv P := by
  induction n generalizing s with
  | zero => cases ht; exact h
  | succ n ih =>
    rw [stepTimes] at ht
    split at ht
    · rename_i u hu; exact ih (stepWith_inv hP h hu) ht
    · cases ht
    · cases ht

end

/-! ## The statements -/

/-- Settles O56, by the cases of a step (`stepWith_inv`). -/
theorem stepKeepsInvAnyParams : Obligations.StepKeepsInvAnyParams :=
  fun _ hP _ _ h hstep => stepWith_inv hP h hstep

/-- Settles O57, by induction on the steps of the run (`stepTimes_inv`). -/
theorem runKeepsInvAnyParams : Obligations.RunKeepsInvAnyParams := by
  intro P hP prog s t h hrun
  exact stepTimes_inv hP _ (h.of_buffers (t := { s with pending := prog }) h.vbuf h.bbuf rfl) hrun

/-- Settles O58: no command stops where the cells it may read have been written. -/
theorem everyCommandCompletesAnyParams : Obligations.EveryCommandCompletesAnyParams := by
  intro P hP s i h hv hb
  exact (execWith_safe hP h i).completes (not_or.mpr ⟨not_valueUnspec hv, not_streamUnspec hb⟩)

end Sys2Proof.Machine

end

/-! # Codewords of bounded length fit (00_scope.md R5, 43_bitstream.md R150) -/

section

namespace Sys2Proof.Machine

/-- Every code of a code table of R37 has at most `CODE_MAX` bits. -/
theorem CodesOk.len_le {P : Config.Params} {ft : List FtEntry} {nodes : List Node} {root : Nat} {ct : List Code}
    (h : CodesOk ft nodes root ct P) {c : Code} (hc : c ∈ ct) : c.len ≤ P.codeMax := by
  obtain ⟨i, hi, rfl⟩ := List.mem_iff_getElem.mp hc
  have hok := h.codes i hi
  rw [List.getElem?_eq_getElem hi, Option.map_some, Option.some.injEq] at hok
  simp only [codeOk, Bool.and_eq_true, decide_eq_true_eq] at hok
  exact hok.1.1.2

/-- Where `BBUF` has room for a code of `codeMax` bits for every value still to come, the loop of `ENC` never runs out of
it. -/
theorem encodeValues_never_full {maxBytes codeMax : Nat} {ft : List FtEntry} {ct : List Code}
    (hlen : ∀ c ∈ ct, c.len ≤ codeMax) (cells : List (Option Word)) (k p : Nat)
    (hroom : p + codeMax * cells.length ≤ 8 * maxBytes) (info : Word) :
    encodeValues maxBytes ft ct k p cells ≠ .raise .capacity info := by
  induction cells generalizing k p with
  | nil => simp [encodeValues]
  | cons cell cells ih =>
    cases cell with
    | none => simp [encodeValues]
    | some v =>
      simp only [encodeValues]
      split
      · simp
      · split
        · simp
        · rename_i c hc
          have hcode := hlen c (List.mem_of_getElem? hc)
          rw [List.length_cons, Nat.mul_succ] at hroom
          rw [if_neg (by omega)]
          intro hraise
          exact ih (k + 1) (p + c.len) (by omega) (work_map_raise.mp hraise)

/-- Settles O59: the bit cursor before value `k` is at most `CODE_MAX * k`. -/
theorem encNeverOverflowsAnyParams : Obligations.EncNeverOverflowsAnyParams := by
  intro P _ hroom s t h herr hexec
  change encWith P s = .next t at hexec
  rw [encWith, gated_of_ok herr] at hexec
  split at hexec
  · cases hexec; simp
  · rename_i hvalid
    have hvalid : s.codesValid = true := by simpa using hvalid
    split at hexec
    · cases hexec; simp
    · rename_i hvlen
      rcases settle_next hexec with ⟨bs, -, rfl⟩ | ⟨code, info, hraise, rfl⟩
      · rw [storeStream_errCode, h.error.mp herr]
        exact ErrCode.noConfusion
      · rintro rfl
        have hcells : P.codeMax * s.vlen.toNat ≤ P.codeMax * P.maxValues := Nat.mul_le_mul_left _ (by omega)
        exact encodeValues_never_full (fun c hc => (h.codes hvalid).len_le hc) (valueCells s) 0 0
          (by rw [valueCells_length]; omega) info hraise

/-- Settles O39: HDC-1's `BBUF` holds `MAX_VALUES` codewords of `CODE_MAX` bits exactly. -/
theorem encNeverOverflowsBbuf : Obligations.EncNeverOverflowsBbuf := by
  intro s t h herr hexec
  rw [← execWith_hdc1] at hexec
  exact encNeverOverflowsAnyParams Config.hdc1 (by decide) (by decide) s t h herr hexec

end Sys2Proof.Machine

end

/-! # The parameters in the registers and in the machine (00_scope.md R5) -/

section

namespace Sys2Proof.Machine

/-- Settles O51. -/
theorem hdcOneIsAnInstance : Obligations.HdcOneIsAnInstance :=
  ⟨by decide, fun i s => (execWith_hdc1 i s).symm, fun s => (stepWith_hdc1 s).symm⟩

/-- A step whose transaction is a write that the port can express (R64). -/
theorem stepWith_write {P : Config.Params} {s : State} {a : Nat} {v : Word} {rest : List HostEvent}
    (hp : s.pending = .write a v :: rest) (ha : addrOk a = true) : stepWith P s = memWrite P v (takeEvent rest s) a := by
  simp only [stepWith, hp, perform, ha, if_true]

/-- Settles O52: the write reaches `CMD`, and the word is decoded there. -/
theorem stepRunsTheDecodedCommandAnyParams : Obligations.StepRunsTheDecodedCommandAnyParams := by
  intro P s c i rest hp hdec
  rw [stepWith_write hp (by decide), memWrite_cmd, command, hdec]
  rfl

/-- Settles O53: R5's constraints keep every parameter below `2^32`. -/
theorem capacityRegistersAnyParams : Obligations.CapacityRegistersAnyParams := by
  intro P free s hP
  obtain ⟨-, hvalues, -, hbytes, -, -, hsyms, -, hcode⟩ := params_ok_iff.mp hP
  have register : ∀ {a n : Nat}, memRead P free s a = BitVec.ofNat 32 n → n < 2 ^ 32 → (memRead P free s a).toNat = n :=
    fun hread hn => by rw [hread, BitVec.toNat_ofNat, Nat.mod_eq_of_lt hn]
  exact ⟨register rfl (by omega), register rfl (by omega), register rfl (by omega), register rfl (by omega)⟩

end Sys2Proof.Machine

end

/-! # The windows have the capacities' sizes (20_memory.md R62 to R65, R69, R74 to R76) -/

section

namespace Sys2Proof.Machine

section

variable {P : Config.Params} {free : Word} {s : State}

/-! ## Where a window address lies -/

/-- Word `w` of entry `i` of a window. -/
theorem windowLoc_entry (mk : Nat → Nat → Loc) {words w : Nat} (count i : Nat) (hw : w < words) :
    windowLoc mk words count (4 * words * i + 4 * w) = if i < count then mk i w else .reserved := by
  have hentry : (4 * words * i + 4 * w) / (4 * words) = i := by
    rw [Nat.mul_add_div (by omega), Nat.div_eq_of_lt (by omega), Nat.add_zero]
  have hword : (4 * words * i + 4 * w) / 4 % words = w := by
    rw [Nat.mul_assoc, ← Nat.mul_add, Nat.mul_div_cancel_left _ (by omega), Nat.mul_add_mod, Nat.mod_eq_of_lt hw]
  rw [windowLoc, hentry, hword]

theorem locate_vbuf {i : Nat} (hi : i < 2 ^ 18) :
    locate P (0x100000 + 4 * i) = if i < P.maxValues then .vbuf i else .reserved := by
  have hregion : (0x100000 + 4 * i) / 0x100000 = 1 := by omega
  have hoffset : (0x100000 + 4 * i) % 0x100000 = 4 * 1 * i + 4 * 0 := by omega
  simp only [locate, hregion, hoffset]
  exact windowLoc_entry _ _ _ (by decide)

theorem locate_bbuf (hP : P.ok = true) {j : Nat} (hj : j < 2 ^ 18) :
    locate P (0x200000 + 4 * j) = if 4 * j < P.maxBytes then .bbuf j else .reserved := by
  obtain ⟨-, -, hwords, -⟩ := params_ok_iff.mp hP
  have hregion : (0x200000 + 4 * j) / 0x100000 = 2 := by omega
  have hoffset : (0x200000 + 4 * j) % 0x100000 = 4 * 1 * j + 4 * 0 := by omega
  have hcount : 4 * j < P.maxBytes ↔ j < P.maxBytes / 4 := by omega
  simp only [locate, hregion, hoffset, hcount]
  exact windowLoc_entry _ _ _ (by decide)

theorem locate_ft {i w : Nat} (hi : i < 2 ^ 17) (hw : w < 2) :
    locate P (0x300000 + 8 * i + 4 * w) = if i < P.maxSyms then .ft i w else .reserved := by
  have hregion : (0x300000 + 8 * i + 4 * w) / 0x100000 = 3 := by omega
  have hoffset : (0x300000 + 8 * i + 4 * w) % 0x100000 = 4 * 2 * i + 4 * w := by omega
  simp only [locate, hregion, hoffset]
  exact windowLoc_entry _ _ _ hw

theorem locate_node {k w : Nat} (hk : k < 2 ^ 16) (hw : w < 4) :
    locate P (0x400000 + 16 * k + 4 * w) = if k < 2 * P.maxSyms - 1 then .node k w else .reserved := by
  have hregion : (0x400000 + 16 * k + 4 * w) / 0x100000 = 4 := by omega
  have hoffset : (0x400000 + 16 * k + 4 * w) % 0x100000 = 4 * 4 * k + 4 * w := by omega
  simp only [locate, hregion, hoffset]
  exact windowLoc_entry _ _ _ hw

theorem locate_ct {i w : Nat} (hi : i < 2 ^ 17) (hw : w < 2) :
    locate P (0x500000 + 8 * i + 4 * w) = if i < P.maxSyms then .ct i w else .reserved := by
  have hregion : (0x500000 + 8 * i + 4 * w) / 0x100000 = 5 := by omega
  have hoffset : (0x500000 + 8 * i + 4 * w) % 0x100000 = 4 * 2 * i + 4 * w := by omega
  simp only [locate, hregion, hoffset]
  exact windowLoc_entry _ _ _ hw

/-- In the three read-only windows a host write is ignored. -/
theorem writeLoc_readOnly {a : Nat} (hlo : 0x300000 ≤ a) (hhi : a < 0x600000) (v : Word) (s : State) :
    writeLoc v s (locate P a) = s := by
  have hregion : a / 0x100000 = 3 ∨ a / 0x100000 = 4 ∨ a / 0x100000 = 5 := by omega
  rcases hregion with h | h | h <;> simp only [locate, h] <;> exact writeLoc_windowLoc (fun _ _ _ _ => rfl) _ _ _ v s

/-! ## Reads -/

theorem memRead_vbuf {i : Nat} (hi : i < 2 ^ 18) :
    memRead P free s (0x100000 + 4 * i) = if i < P.maxValues then (Memory.read s.vbuf i).getD free else 0#32 := by
  rw [memRead, locate_vbuf hi]
  split <;> rfl

theorem memRead_ft {i w : Nat} (hi : i < 2 ^ 17) (hw : w < 2) :
    memRead P free s (0x300000 + 8 * i + 4 * w) =
      if i < P.maxSyms then ((s.ft[i]?).map (fun e => e.word w)).getD 0#32 else 0#32 := by
  rw [memRead, locate_ft hi hw]
  split <;> rfl

theorem memRead_node {k w : Nat} (hk : k < 2 ^ 16) (hw : w < 4) :
    memRead P free s (0x400000 + 16 * k + 4 * w) =
      if k < 2 * P.maxSyms - 1 then ((s.nodes[k]?).map (fun n => n.word w)).getD 0#32 else 0#32 := by
  rw [memRead, locate_node hk hw]
  split <;> rfl

theorem memRead_ct {i w : Nat} (hi : i < 2 ^ 17) (hw : w < 2) :
    memRead P free s (0x500000 + 8 * i + 4 * w) =
      if i < P.maxSyms then
        if s.codesValid && decide (i < s.nsym) then ((s.ct[i]?).map (fun c => c.word w)).getD 0#32 else 0#32
      else 0#32 := by
  rw [memRead, locate_ct hi hw]
  split <;> rfl

/-- Byte `b` of a `BBUF` window word. -/
theorem bbufWord_byte (m : Memory Byte) (j : Nat) {b : Nat} (hb : b < 4) :
    (bbufWord free m j).extractLsb' (8 * b) 8 = bbufByte free m j b := by
  match b, hb with
  | 0, _ =>
    refine (BitVec.extractLsb'_append_eq_of_add_le (by decide)).trans ?_
    refine (BitVec.extractLsb'_append_eq_of_add_le (by decide)).trans ?_
    exact BitVec.extractLsb'_append_eq_right
  | 1, _ =>
    refine (BitVec.extractLsb'_append_eq_of_add_le (by decide)).trans ?_
    refine (BitVec.extractLsb'_append_eq_of_add_le (by decide)).trans ?_
    exact BitVec.extractLsb'_append_eq_left
  | 2, _ =>
    refine (BitVec.extractLsb'_append_eq_of_add_le (by decide)).trans ?_
    exact BitVec.extractLsb'_append_eq_left
  | 3, _ => exact BitVec.extractLsb'_append_eq_left

theorem memRead_bbuf_byte (hP : P.ok = true) {j b : Nat} (hj : j < 2 ^ 18) (hb : b < 4) :
    (memRead P free s (0x200000 + 4 * j)).extractLsb' (8 * b) 8 =
      if 4 * j < P.maxBytes then (Memory.read s.bbuf (4 * j + b)).getD (free.extractLsb' (8 * b) 8) else 0#8 := by
  rw [memRead, locate_bbuf hP hj]
  split
  · exact bbufWord_byte s.bbuf j hb
  · simp [readLoc]

/-! ## Writes -/

/-- A write to a window stores what `writeLoc` says, at whatever lies there. -/
theorem stepWith_windowWrite {a : Nat} {v : Word} {rest : List HostEvent} (hp : s.pending = .write a v :: rest)
    (halign : a % 4 = 0) (hlo : 0x100000 ≤ a) (hhi : a < 0x600000) :
    stepWith P s = .next (writeLoc v (takeEvent rest s) (locate P a)) := by
  have haddr : addrOk a = true := by
    simp only [addrOk, Bool.and_eq_true, beq_iff_eq, decide_eq_true_eq]
    omega
  rw [stepWith_write hp haddr, memWrite_of_ne_cmd (by omega)]

/-- The four bytes of a written `BBUF` word are read back, and every other byte is what it was. -/
theorem read_writeFrom_wordBytes (m : Memory Byte) (v : Word) (j k : Nat) :
    Memory.read (Memory.writeFrom m (4 * j) (wordBytes v)) k =
      if k / 4 = j then some (v.extractLsb' (8 * (k % 4)) 8) else Memory.read m k := by
  rw [read_writeFrom]
  by_cases hk : k / 4 = j
  · have hcases : k % 4 = 0 ∨ k % 4 = 1 ∨ k % 4 = 2 ∨ k % 4 = 3 := by omega
    rw [if_pos hk, if_pos (by simp only [wordBytes, List.length_cons, List.length_nil]; omega),
      show k - 4 * j = k % 4 by omega]
    rcases hcases with h | h | h | h <;> rw [h] <;> rfl
  · rw [if_neg hk, if_neg (by simp only [wordBytes, List.length_cons, List.length_nil]; omega)]

theorem stepWith_vbufWrite {i : Nat} (hi : i < 2 ^ 18) {v : Word} {rest : List HostEvent}
    (hp : s.pending = .write (0x100000 + 4 * i) v :: rest) :
    stepWith P s = .next (if i < P.maxValues
      then { takeEvent rest s with vbuf := Memory.write s.vbuf i v } else takeEvent rest s) := by
  rw [stepWith_windowWrite hp (by omega) (by omega) (by omega), locate_vbuf hi]
  split <;> rfl

theorem stepWith_bbufWrite (hP : P.ok = true) {j : Nat} (hj : j < 2 ^ 18) {v : Word} {rest : List HostEvent}
    (hp : s.pending = .write (0x200000 + 4 * j) v :: rest) :
    stepWith P s = .next (if 4 * j < P.maxBytes
      then { takeEvent rest s with bbuf := Memory.writeFrom s.bbuf (4 * j) (wordBytes v) } else takeEvent rest s) := by
  rw [stepWith_windowWrite hp (by omega) (by omega) (by omega), locate_bbuf hP hj]
  split <;> rfl

/-- The four words of a node entry, at the addresses of R75. -/
theorem memRead_nodeWords {k : Nat} {word : Nat → Word}
    (h : ∀ w < 4, memRead P free s (0x400000 + 16 * k + 4 * w) = word w) :
    memRead P free s (0x400000 + 16 * k) = word 0 ∧ memRead P free s (0x400004 + 16 * k) = word 1 ∧
    memRead P free s (0x400008 + 16 * k) = word 2 ∧ memRead P free s (0x40000C + 16 * k) = word 3 := by
  refine ⟨h 0 (by decide), ?_, ?_, ?_⟩
  · rw [← h 1 (by decide)]; congr 1; omega
  · rw [← h 2 (by decide)]; congr 1; omega
  · rw [← h 3 (by decide)]; congr 1; omega

/-- The two words of a code entry, at the addresses of R76. -/
theorem memRead_codeWords {i : Nat} {word : Nat → Word}
    (h : ∀ w < 2, memRead P free s (0x500000 + 8 * i + 4 * w) = word w) :
    memRead P free s (0x500000 + 8 * i) = word 0 ∧ memRead P free s (0x500004 + 8 * i) = word 1 := by
  refine ⟨h 0 (by decide), ?_⟩
  rw [← h 1 (by decide)]; congr 1; omega

end

/-- Settles O54, window by window. -/
theorem windowsFollowTheCapacities : Obligations.WindowsFollowTheCapacities := by
  intro P free s hP
  refine ⟨fun i hi => ⟨memRead_vbuf hi, fun v rest hp => stepWith_vbufWrite hi hp⟩,
    fun j hj => ⟨fun b hb => memRead_bbuf_byte hP hj hb, fun v rest hp => ⟨fun hin => ?_, fun hout => ?_⟩⟩,
    fun i hi => ⟨memRead_ft (w := 0) hi (by decide), ?_⟩,
    fun k hk => ⟨fun f v hin hn => ?_, fun f l r hin hn => ?_, fun hout w hw => ?_⟩,
    fun i hi => ⟨fun c hin hv hsym hc => ?_, fun hout => ?_⟩,
    fun a v rest hp halign hlo hhi => ?_⟩
  · refine ⟨_, stepWith_bbufWrite hP hj hp, ?_, fun k => ?_⟩
    · rw [if_pos hin]
    · rw [if_pos hin]; exact read_writeFrom_wordBytes s.bbuf v j k
  · rw [stepWith_bbufWrite hP hj hp, if_neg (by omega)]
  · rw [show 0x300004 + 8 * i = 0x300000 + 8 * i + 4 * 1 by omega, memRead_ft hi (by decide)]
    rfl
  · have word : ∀ w < 4, memRead P free s (0x400000 + 16 * k + 4 * w) = (Node.leaf f v).word w := fun w hw => by
      rw [memRead_node hk hw, if_pos hin, hn]; rfl
    exact memRead_nodeWords word
  · have word : ∀ w < 4, memRead P free s (0x400000 + 16 * k + 4 * w) = (Node.internal f l r).word w := fun w hw => by
      rw [memRead_node hk hw, if_pos hin, hn]; rfl
    exact memRead_nodeWords word
  · rw [memRead_node hk hw]
    split
    · rw [List.getElem?_eq_none (by omega)]; rfl
    · rfl
  · have word : ∀ w < 2, memRead P free s (0x500000 + 8 * i + 4 * w) = c.word w := fun w hw => by
      rw [memRead_ct hi hw, if_pos hin, if_pos (by simp [hv, hsym]), hc]; rfl
    exact memRead_codeWords word
  · have word : ∀ w < 2, memRead P free s (0x500000 + 8 * i + 4 * w) = 0#32 := fun w hw => by
      rw [memRead_ct hi hw]
      rcases hout with h | h | h
      · simp [h]
      · simp [Nat.not_lt.mpr h]
      · rw [if_neg (by omega)]
    exact memRead_codeWords word
  · rw [stepWith_windowWrite hp halign (by omega) hhi, writeLoc_readOnly hlo hhi]

end Sys2Proof.Machine

end

/-! # Runs compose (30_encoding.md R101)

No transaction looks at the transactions after it, so a step with other ones pending is the same step with other ones
pending afterwards. -/

section

namespace Sys2Proof.Machine

/-- The state with the list `q` of transactions to come. -/
def withPending (q : List HostEvent) (s : State) : State := { s with pending := q }

/-- The outcome with the list `q` of transactions to come, where there is a next state. -/
def outcomeWithPending (q : List HostEvent) (o : Host.Outcome State Fault Refusal) : Host.Outcome State Fault Refusal :=
  andThen o (fun t => .next (withPending q t))

section

variable (q : List HostEvent) (s : State)

/-! ## The shared operations -/

theorem gated_withPending {run run' : Host.Outcome State Fault Refusal} (h : run' = outcomeWithPending q run) :
    gated (withPending q s) run' = outcomeWithPending q (gated s run) := by
  cases he : s.err with
  | true => rw [gated_of_err he, gated_of_err (s := withPending q s) he]; rfl
  | false => rw [gated_of_ok he, gated_of_ok (s := withPending q s) he, h]

theorem settle_withPending {α : Type} (cmd : Word) {store : α → State → State} {spoil : State → State} (w : Work α)
    (hstore : ∀ a, store a (withPending q s) = withPending q (store a s))
    (hspoil : spoil (withPending q s) = withPending q (spoil s)) :
    settle cmd (withPending q s) store spoil w = outcomeWithPending q (settle cmd s store spoil w) := by
  cases w with
  | done a => exact congrArg Host.Outcome.next (hstore a)
  | raise code info => exact congrArg (fun t => Host.Outcome.next (raiseError code info cmd t)) hspoil
  | stop f => rfl

/-- A check that does not look at the transactions to come. -/
theorem ite_withPending {c : Prop} [Decidable c] {a b a' b' : Host.Outcome State Fault Refusal}
    (ha : a' = outcomeWithPending q a) (hb : b' = outcomeWithPending q b) :
    (if c then a' else b') = outcomeWithPending q (if c then a else b) := by
  rw [ha, hb, apply_ite (outcomeWithPending q)]

/-! ## The commands -/

theorem deltaCommand_withPending (P : Config.Params) (cmd : Word) (loop : List (Option Word) → Work (List Word)) :
    deltaCommand P cmd loop (withPending q s) = outcomeWithPending q (deltaCommand P cmd loop s) :=
  ite_withPending q rfl (ite_withPending q rfl (settle_withPending q s cmd _ (fun _ => rfl) rfl))

theorem fputWith_withPending (P : Config.Params) :
    fputWith P (withPending q s) = outcomeWithPending q (fputWith P s) := by
  refine gated_withPending q s (ite_withPending q rfl ?_)
  show (match lookup s.ft s.ftVal with | some i => _ | none => _) = _
  cases lookup s.ft s.ftVal with
  | some i => rfl
  | none => exact ite_withPending q rfl rfl

theorem onlyIf_withPending (b : Bool) {part : State → State} {u : State}
    (hpart : ∀ t, part (withPending q t) = withPending q (part t)) (hu : u = withPending q s) :
    onlyIf b part u = withPending q (onlyIf b part s) := by
  subst hu
  cases b with
  | false => rfl
  | true => exact hpart s

theorem clearParts_withPending (arg : Byte) :
    clearParts arg (withPending q s) = withPending q (clearParts arg s) := by
  have hV := onlyIf_withPending q s (maskV arg) (part := clearV) (fun _ => rfl) rfl
  have hB := onlyIf_withPending q _ (maskB arg) (part := clearB) (fun _ => rfl) hV
  have hF := onlyIf_withPending q _ (maskF arg) (part := clearF) (fun _ => rfl) hB
  have hT := onlyIf_withPending q _ (maskT arg) (part := invalidateTree) (fun _ => rfl) hF
  exact onlyIf_withPending q _ (maskE arg) (part := clearError) (fun _ => rfl) hT

/-- No command looks at the transactions to come, or changes them. -/
theorem execWith_withPending (P : Config.Params) (i : Instr) :
    execWith P i (withPending q s) = outcomeWithPending q (execWith P i s) := by
  cases i with
  | nop => exact gated_withPending q s rfl
  | clr arg =>
    exact ite_withPending q rfl (congrArg Host.Outcome.next (clearParts_withPending q s arg))
  | srst => rfl
  | denc => exact gated_withPending q s (deltaCommand_withPending q s P _ _)
  | ddec => exact gated_withPending q s (deltaCommand_withPending q s P _ _)
  | fcnt =>
    exact gated_withPending q s (ite_withPending q rfl (settle_withPending q s _ _ (fun _ => rfl) rfl))
  | fput => exact fputWith_withPending q s P
  | btree => exact gated_withPending q s (ite_withPending q rfl (ite_withPending q rfl rfl))
  | gcode =>
    exact gated_withPending q s (ite_withPending q rfl (settle_withPending q s _ _ (fun _ => rfl) rfl))
  | enc =>
    exact gated_withPending q s
      (ite_withPending q rfl (ite_withPending q rfl (settle_withPending q s _ _ (fun _ => rfl) rfl)))
  | dec =>
    exact gated_withPending q s (ite_withPending q rfl (ite_withPending q rfl (ite_withPending q rfl
      (settle_withPending q s _ _ (fun _ => rfl) rfl))))

/-! ## The port -/

theorem command_withPending (P : Config.Params) (c : Word) :
    command P c (withPending q s) = outcomeWithPending q (command P c s) := by
  unfold command
  cases decode c with
  | instr i => exact execWith_withPending q s P i
  | illegal why => exact gated_withPending q s rfl

theorem writeLoc_withPending (v : Word) (l : Loc) :
    writeLoc v (withPending q s) l = withPending q (writeLoc v s l) := by
  cases l with
  | reg r => cases r <;> rfl
  | vbuf i => rfl
  | bbuf j => rfl
  | ft i w => rfl
  | node k w => rfl
  | ct i w => rfl
  | reserved => rfl

/-- What a host read returns does not depend on the transactions to come. -/
theorem memRead_withPending (P : Config.Params) (free : Word) (a : Nat) :
    memRead P free (withPending q s) a = memRead P free s a := by
  unfold memRead
  cases locate P a with
  | reg r => cases r <;> rfl
  | vbuf i => rfl
  | bbuf j => rfl
  | ft i w => rfl
  | node k w => rfl
  | ct i w => rfl
  | reserved => rfl

theorem perform_withPending (P : Config.Params) (e : HostEvent) :
    perform P e (withPending q s) = outcomeWithPending q (perform P e s) := by
  cases e with
  | hardReset => rfl
  | read a =>
    refine ite_withPending q (congrArg Host.Outcome.next ?_) rfl
    rw [memRead_withPending]
    rfl
  | write a v =>
    refine ite_withPending q ?_ rfl
    by_cases ha : a = 0x10
    · subst ha
      exact command_withPending q s P v
    · rw [memWrite_of_ne_cmd ha, memWrite_of_ne_cmd ha, writeLoc_withPending]
      rfl

/-- One step of a run: its first transaction is performed, and the others are to come. -/
theorem stepWith_withPending_cons (P : Config.Params) (e : HostEvent) :
    stepWith P (withPending (e :: q) s) = outcomeWithPending q (perform P e { s with txnIndex := s.txnIndex + 1 }) :=
  perform_withPending q { s with txnIndex := s.txnIndex + 1 } P e

/-! ## Runs -/

/-- A run goes on with what is to come after it, from the state in which it ends. -/
theorem stepTimes_append (P : Config.Params) (first : List HostEvent) (n : Nat) :
    stepTimes P (first.length + n) (withPending (first ++ q) s) =
      andThen (stepTimes P first.length (withPending first s)) (fun t => stepTimes P n (withPending q t)) := by
  induction first generalizing s with
  | nil => rw [List.length_nil, Nat.zero_add]; rfl
  | cons e first ih =>
    rw [List.length_cons, Nat.add_right_comm, List.cons_append]
    simp only [stepTimes, stepWith_withPending_cons]
    cases perform P e { s with txnIndex := s.txnIndex + 1 } with
    | next t => exact ih t
    | fault f => rfl
    | refused r => rfl

end

/-- Settles O55: what comes after a run does not bear on it (`stepTimes_append`). -/
theorem runsCompose : Obligations.RunsCompose := by
  intro P first second s
  rw [runProgram, List.length_append]
  exact stepTimes_append second s P first second.length

end Sys2Proof.Machine

end

/-! # The machine invariant, for HDC-1's own parameter values (10_state.md R41, R42) -/

section

namespace Sys2Proof.Machine

/-- Settles O46: HDC-1's values meet R5's constraints, so every kind of transaction keeps the invariant
(`stepWith_inv`). -/
theorem stepKeepsInv : Obligations.StepKeepsInv :=
  fun _ _ h hstep => stepWith_inv (P := Config.hdc1) (by decide) h hstep

/-- Settles O45: the reset state is its own reset. -/
theorem invAtReset : Obligations.InvAtReset := resetBlock_inv Config.hdc1 State.reset

end Sys2Proof.Machine

end

/-! # What a host read of the register block returns (10_state.md R21 to R26, R30, R41) -/

section

namespace Sys2Proof.Machine

section

variable {P : Config.Params} {free : Word} {s : State}

theorem memRead_reg (r : Reg) : memRead P free s r.offset = readReg P s r := by cases r <;> rfl

/-- The registers end at `CAP_CODE` (R22). -/
theorem offset_le_capCode (r : Reg) : r.offset ≤ Reg.offset .capCode := by cases r <;> decide

/-- An offset of the register block at which there is no register reads 0 (R22). -/
theorem memRead_reservedOffset {a : Nat} (ha : a < 0x100000) (hnone : regAt a = none) : memRead P free s a = 0#32 := by
  simp only [memRead, locate, Nat.div_eq_of_lt ha, hnone]
  rfl

/-- The numbers of R211 are the places in its list. -/
theorem errCode_toWord_toNat (e : ErrCode) :
    e.toWord.toNat = [ErrCode.none, .illCmd, .len, .zeroCnt, .dupSym, .range, .capacity, .empty,
      .notReady, .noCode, .walk, .trunc].idxOf e := by cases e <;> rfl

end

/-- Settles O9, register by register; the registers end at `CAP_CODE`. -/
theorem registerReads : Obligations.RegisterReads := by
  intro free s
  have reg : ∀ r : Reg, memRead Config.hdc1 free s r.offset = readReg Config.hdc1 s r := memRead_reg
  refine ⟨reg .id, reg .capValues, reg .capBytes, reg .capSyms, reg .cmd, (reg .status).trans (statusWord_eq s), ?_,
    reg .errInfo, reg .errCmd, reg .vlen, reg .blen, reg .bitcnt, reg .nsym, reg .nnodes, reg .root, reg .ftVal,
    reg .ftCnt, reg .capCode, fun a hlo hhi _ => memRead_reservedOffset (by omega) ?_⟩
  · exact (congrArg BitVec.toNat (reg .errCode)).trans (errCode_toWord_toNat s.errCode)
  · refine Option.eq_none_iff_forall_ne_some.mpr fun r hr => ?_
    have hoffset := regAt_eq_some.mp hr
    have hle : r.offset ≤ 0x44 := offset_le_capCode r
    omega

/-- After reset every register but the constants reads 0 (R41). -/
theorem readReg_reset (P : Config.Params) {r : Reg} (hr : r.offset ∉ [0x00, 0x04, 0x08, 0x0C, 0x44]) :
    readReg P State.reset r = 0#32 := by
  cases r with
  | id | capValues | capBytes | capSyms | capCode => exact absurd (by decide) hr
  | _ => rfl

/-- Settles O13: an offset of the register block is a register's or reserved. -/
theorem resetStateIsR41 : Obligations.ResetStateIsR41 := by
  refine ⟨fun free a ha _ hconst => ?_, rfl, rfl, rfl, rfl, rfl, rfl, fun _ => rfl, fun _ => rfl⟩
  cases hreg : regAt a with
  | none => exact memRead_reservedOffset (by omega) hreg
  | some r =>
    obtain rfl := regAt_eq_some.mp hreg
    rw [memRead_reg, readReg_reset _ hconst]

end Sys2Proof.Machine

end

/-! # What a command may write (10_state.md R30 to R39)

`execWith_writes` says once what a command that answers a next state has written; the statements about who writes what
are read off it. -/

section

namespace Sys2Proof.Machine

/-! ## The commands -/

/-- What command `i` makes of the state `s`, the error record left aside: nothing, when it is ignored or a pre-check fails;
or its parts, its result, or the destination that a data error spoils (60_exceptions.md R216). -/
inductive Writes (P : Config.Params) (s : State) : Instr → State → Prop
  | nothing (i : Instr) : Writes P s i s
  | parts (arg : Byte) : Writes P s (.clr arg) (clearParts arg s)
  | reset : Writes P s .srst (resetBlock s)
  | deltas {i : Instr} (hi : i = .denc ∨ i = .ddec) (out : List Word) : Writes P s i (storeDeltas out s)
  | noDeltas {i : Instr} (hi : i = .denc ∨ i = .ddec) : Writes P s i (spoilDeltas s)
  | table {i : Instr} (hi : i = .fcnt ∨ i = .fput) (ft : List FtEntry) : Writes P s i (storeTable ft s)
  | tree (t : List Node × Word) : Writes P s .btree (storeTree t s)
  | codes (ct : List Code) : Writes P s .gcode (storeCodes ct s)
  | noCodes : Writes P s .gcode (invalidateCodes s)
  | stream (bs : List Bool) : Writes P s .enc (storeStream bs s)
  | noStream : Writes P s .enc (spoilStream P.maxBytes s)
  | decoded (out : List Word) : Writes P s .dec (storeDecoded out s)
  | noDecoded : Writes P s .dec (spoilDecoded P.maxValues s)

/-- An outcome of command `i` at `s`: a next state is what `i` may write, with or without an error recorded on top. -/
def WritesOnly (P : Config.Params) (i : Instr) (s : State) (o : Host.Outcome State Fault Refusal) : Prop :=
  ∀ t, o = .next t → ∃ u, Writes P s i u ∧ (t = u ∨ ∃ code info c, t = raiseError code info c u)

section

variable {P : Config.Params} {i : Instr} {s u : State}

theorem Writes.next (h : Writes P s i u) : WritesOnly P i s (.next u) := by
  rintro t ⟨⟩
  exact ⟨u, h, .inl rfl⟩

theorem writes_raise {code : ErrCode} {info c : Word} : WritesOnly P i s (.next (raiseError code info c s)) := by
  rintro t ⟨⟩
  exact ⟨s, .nothing i, .inr ⟨code, info, c, rfl⟩⟩

theorem writes_gated {o : Host.Outcome State Fault Refusal} (h : WritesOnly P i s o) :
    WritesOnly P i s (gated s o) := by
  intro t ht
  rcases gated_next ht with ⟨-, rfl⟩ | ⟨-, ht⟩
  · exact ⟨t, .nothing i, .inl rfl⟩
  · exact h t ht

theorem writes_settle {α : Type} {cmd : Word} {store : α → State → State} {spoil : State → State} {w : Work α}
    (hstore : ∀ a, Writes P s i (store a s)) (hspoil : Writes P s i (spoil s)) :
    WritesOnly P i s (settle cmd s store spoil w) := by
  intro t ht
  rcases settle_next ht with ⟨a, -, rfl⟩ | ⟨code, info, -, rfl⟩
  · exact ⟨_, hstore a, .inl rfl⟩
  · exact ⟨_, hspoil, .inr ⟨code, info, cmd, rfl⟩⟩

theorem writes_ite {c : Prop} [Decidable c] {a b : Host.Outcome State Fault Refusal} (ha : WritesOnly P i s a)
    (hb : WritesOnly P i s b) : WritesOnly P i s (if c then a else b) := by
  split
  · exact ha
  · exact hb

theorem deltaCommand_writes (hi : i = .denc ∨ i = .ddec) (cmd : Word) (loop : List (Option Word) → Work (List Word)) :
    WritesOnly P i s (deltaCommand P cmd loop s) :=
  writes_ite writes_raise (writes_ite writes_raise (writes_settle (.deltas hi) (.noDeltas hi)))

theorem fputWith_writes : WritesOnly P .fput s (fputWith P s) := by
  refine writes_gated (writes_ite writes_raise ?_)
  split
  · exact writes_raise
  · exact writes_ite writes_raise (Writes.table (.inr rfl) _).next

/-- What a command that answers a next state has written. -/
theorem execWith_writes (P : Config.Params) (i : Instr) (s : State) : WritesOnly P i s (execWith P i s) := by
  cases i with
  | nop => exact writes_gated (Writes.nothing _).next
  | clr arg => exact writes_ite (Writes.nothing _).next (Writes.parts arg).next
  | srst => exact Writes.reset.next
  | denc => exact writes_gated (deltaCommand_writes (.inl rfl) _ _)
  | ddec => exact writes_gated (deltaCommand_writes (.inr rfl) _ _)
  | fcnt =>
    exact writes_gated (writes_ite writes_raise (writes_settle (.table (.inl rfl)) (.table (.inl rfl) [])))
  | fput => exact fputWith_writes
  | btree => exact writes_gated (writes_ite writes_raise (writes_ite writes_raise (Writes.tree _).next))
  | gcode => exact writes_gated (writes_ite writes_raise (writes_settle .codes .noCodes))
  | enc =>
    exact writes_gated
      (writes_ite writes_raise (writes_ite writes_raise (writes_settle .stream .noStream)))
  | dec =>
    exact writes_gated (writes_ite writes_raise
      (writes_ite writes_raise (writes_ite writes_raise (writes_settle .decoded .noDecoded))))

/-- A projection of the state that recording an error keeps is, after a command, what the command wrote there. -/
theorem exec_next {β : Type} {t : State} (f : State → β) (hraise : ∀ code info c u, f (raiseError code info c u) = f u)
    (h : exec i s = .next t) : ∃ u, Writes Config.hdc1 s i u ∧ f t = f u := by
  rw [← execWith_hdc1] at h
  obtain ⟨u, hu, rfl | ⟨code, info, c, rfl⟩⟩ := execWith_writes Config.hdc1 i s t h
  · exact ⟨t, hu, rfl⟩
  · exact ⟨u, hu, hraise code info c u⟩

/-! ## The parts of CLR -/

/-- `CLR` keeps a projection of the state that every selected part keeps (44_control.md R171). A part that keeps it by
definition need not be named. -/
theorem clearParts_keeps {β : Type} (f : State → β) {arg : Byte} (s : State)
    (hV : maskV arg = true → ∀ u, f (clearV u) = f u := by exact fun _ _ => rfl)
    (hB : maskB arg = true → ∀ u, f (clearB u) = f u := by exact fun _ _ => rfl)
    (hF : maskF arg = true → ∀ u, f (clearF u) = f u := by exact fun _ _ => rfl)
    (hT : maskT arg = true → ∀ u, f (invalidateTree u) = f u := by exact fun _ _ => rfl)
    (hE : maskE arg = true → ∀ u, f (clearError u) = f u := by exact fun _ _ => rfl) :
    f (clearParts arg s) = f s := by
  have part : ∀ {b : Bool} {g : State → State}, (b = true → ∀ u, f (g u) = f u) → ∀ u, f (onlyIf b g u) = f u := by
    intro b g hg u
    cases b with
    | false => rfl
    | true => exact hg rfl u
  simp only [clearParts, part hE, part hT, part hF, part hB, part hV]

/-! ## The host's side, the operand registers and the buffers -/

/-- The host's side of the state (R101). -/
def hostSide (s : State) : List HostEvent × Nat × List Word := (s.pending, s.txnIndex, s.readLog)

theorem Writes.hostSide (h : Writes P s i u) : hostSide u = hostSide s := by
  cases h with
  | parts arg => exact clearParts_keeps Machine.hostSide s
  | _ => rfl

/-- The operand registers of `FPUT` (R30). -/
def operandRegs (s : State) : Word × Word := (s.ftVal, s.ftCnt)

theorem Writes.operandRegs (h : Writes P s i u) : i = .srst ∨ operandRegs u = operandRegs s := by
  cases h with
  | parts arg => exact .inr (clearParts_keeps Machine.operandRegs s)
  | reset => exact .inl rfl
  | _ => exact .inr rfl

theorem Writes.bbuf (h : Writes P s i u) : (i = .srst ∨ i = .enc) ∨ u.bbuf = s.bbuf := by
  cases h with
  | parts arg => exact .inr (clearParts_keeps State.bbuf s)
  | reset => exact .inl (.inl rfl)
  | stream | noStream => exact .inl (.inr rfl)
  | _ => exact .inr rfl

theorem Writes.vbuf (h : Writes P s i u) : (i = .srst ∨ (i = .denc ∨ i = .ddec) ∨ i = .dec) ∨ u.vbuf = s.vbuf := by
  cases h with
  | parts arg => exact .inr (clearParts_keeps State.vbuf s)
  | reset => exact .inl (.inl rfl)
  | deltas hi | noDeltas hi => exact .inl (.inr (.inl hi))
  | decoded | noDecoded => exact .inl (.inr (.inr rfl))
  | _ => exact .inr rfl

end

/-- Settles O49: no command writes the host's side, and recording an error keeps it. -/
theorem commandsLeaveTheHostAlone : Obligations.CommandsLeaveTheHostAlone := by
  intro i s t h
  obtain ⟨u, hu, htu⟩ := exec_next hostSide (fun _ _ _ _ => rfl) h
  simpa [hostSide] using htu.trans hu.hostSide

/-- Settles O50, by what each command may write (`Writes`). -/
theorem operandRegistersAndBbufWriters : Obligations.OperandRegistersAndBbufWriters := by
  intro i s t h
  refine ⟨fun hsrst => ?_, fun hsrst henc => ?_, fun hsrst hdenc hddec hdec => ?_⟩
  · obtain ⟨u, hu, htu⟩ := exec_next operandRegs (fun _ _ _ _ => rfl) h
    simpa [operandRegs] using htu.trans (hu.operandRegs.resolve_left hsrst)
  · obtain ⟨u, hu, htu⟩ := exec_next State.bbuf (fun _ _ _ _ => rfl) h
    exact htu.trans (hu.bbuf.resolve_left (by simp [hsrst, henc]))
  · obtain ⟨u, hu, htu⟩ := exec_next State.vbuf (fun _ _ _ _ => rfl) h
    exact htu.trans (hu.vbuf.resolve_left (by simp [hsrst, hdenc, hddec, hdec]))

end Sys2Proof.Machine

end

/-! # The error record and the tables over a step (10_state.md R26, R34 to R38, 60_exceptions.md R213, R215) -/

section

namespace Sys2Proof.Machine

section

variable {P : Config.Params} {i : Instr} {s t u : State}

/-! ## What a step carries -/

/-- A host write outside `CMD` changes the `RW` registers and the buffers alone (20_memory.md R64). -/
theorem writeLoc_frame (v : Word) (s : State) (l : Loc) : writeLoc v s l = { s with
    vlen := (writeLoc v s l).vlen, blen := (writeLoc v s l).blen, bitcnt := (writeLoc v s l).bitcnt,
    ftVal := (writeLoc v s l).ftVal, ftCnt := (writeLoc v s l).ftCnt, vbuf := (writeLoc v s l).vbuf,
    bbuf := (writeLoc v s l).bbuf } := by
  cases l with
  | reg r => cases r <;> rfl
  | _ => rfl

theorem nextCommand_eq {c : Word} {rest : List HostEvent} (hp : s.pending = .write 0x10 c :: rest)
    (hdec : decode c = .instr i) : nextCommand s = some i := by simp [nextCommand, nextCommandWord, hp, Reg.offset, hdec]

theorem nextIsHardReset_eq {rest : List HostEvent} (hp : s.pending = .hardReset :: rest) : nextIsHardReset s = true := by
  simp [nextIsHardReset, hp]

/-! ## The error record -/

/-- With its E part `CLR` clears the error record last of all (44_control.md R171). -/
theorem clearParts_of_maskE {arg : Byte} (hE : maskE arg = true) (s : State) : ∃ u, clearParts arg s = clearError u := by
  rw [clearParts, hE]
  exact ⟨_, rfl⟩

/-- A legal command while an error is recorded (R213): it is ignored, or it is `SRST` or a `CLR` with E. -/
theorem execWith_of_err (herr : s.err = true) (h : execWith P i s = .next t) :
    t = s ∨ (i = .srst ∧ t = resetBlock s) ∨ ∃ arg u, i = .clr arg ∧ maskE arg = true ∧ t = clearError u := by
  have ignored : ∀ {run}, gated s run = .next t → t = s := fun hrun => by
    rw [gated_of_err herr] at hrun
    injection hrun with hrun
    exact hrun.symm
  cases i with
  | srst => cases h; exact .inr (.inl ⟨rfl, rfl⟩)
  | clr arg =>
    cases hE : maskE arg with
    | false =>
      simp only [execWith, execClr, herr, hE, Bool.not_false, Bool.and_self, if_true, Host.Outcome.next.injEq] at h
      exact .inl h.symm
    | true =>
      obtain ⟨u, hu⟩ := clearParts_of_maskE hE s
      simp only [execWith, execClr, hE, Bool.not_true, Bool.and_false, Bool.false_eq_true, if_false, hu,
        Host.Outcome.next.injEq] at h
      exact .inr (.inr ⟨arg, u, rfl, hE, h.symm⟩)
  | _ => exact .inl (ignored h)

/-! ## The tables -/

/-- The tree: `NODE`, `ROOT` and `TREE_VALID` (R35, R38). -/
def treePart (s : State) : List Node × Word × Bool := (s.nodes, s.root, s.treeValid)

/-- The codes: `CT` and `CODES_VALID` (R37, R38). -/
def codesPart (s : State) : List Code × Bool := (s.ct, s.codesValid)

/-- The three tables with their validity. -/
def tables (s : State) : List FtEntry × (List Node × Word × Bool) × (List Code × Bool) :=
  (s.ft, treePart s, codesPart s)

theorem treePart_ne : treePart t ≠ treePart s ↔ t.nodes ≠ s.nodes ∨ t.root ≠ s.root ∨ t.treeValid ≠ s.treeValid := by
  simp only [treePart, ne_eq, Prod.mk.injEq]
  tauto

theorem codesPart_ne : codesPart t ≠ codesPart s ↔ t.ct ≠ s.ct ∨ t.codesValid ≠ s.codesValid := by
  simp only [codesPart, ne_eq, Prod.mk.injEq]
  tauto

theorem Writes.ft (h : Writes P s i u) :
    (i = .fcnt ∨ i = .fput ∨ i = .srst ∨ ∃ arg, i = .clr arg ∧ maskF arg = true) ∨ u.ft = s.ft := by
  cases h with
  | parts arg =>
    cases hF : maskF arg with
    | true => exact .inl (.inr (.inr (.inr ⟨arg, rfl, hF⟩)))
    | false => exact .inr (clearParts_keeps State.ft s (hF := by simp [hF]))
  | reset => exact .inl (.inr (.inr (.inl rfl)))
  | table hi => exact .inl (hi.imp_right .inl)
  | _ => exact .inr rfl

theorem Writes.treePart (h : Writes P s i u) :
    (i = .fcnt ∨ i = .fput ∨ i = .srst ∨ i = .btree ∨ ∃ arg, i = .clr arg ∧ (maskF arg = true ∨ maskT arg = true)) ∨
      treePart u = treePart s := by
  cases h with
  | parts arg =>
    by_cases hFT : maskF arg = true ∨ maskT arg = true
    · exact .inl (.inr (.inr (.inr (.inr ⟨arg, rfl, hFT⟩))))
    · exact .inr (clearParts_keeps Machine.treePart s (hF := fun hF => absurd (.inl hF) hFT)
        (hT := fun hT => absurd (.inr hT) hFT))
  | reset => exact .inl (.inr (.inr (.inl rfl)))
  | table hi => exact .inl (hi.imp_right .inl)
  | tree => exact .inl (.inr (.inr (.inr (.inl rfl))))
  | _ => exact .inr rfl

theorem Writes.codesPart (h : Writes P s i u) :
    (i = .fcnt ∨ i = .fput ∨ i = .srst ∨ i = .btree ∨ i = .gcode ∨
        ∃ arg, i = .clr arg ∧ (maskF arg = true ∨ maskT arg = true)) ∨
      codesPart u = codesPart s := by
  cases h with
  | parts arg =>
    by_cases hFT : maskF arg = true ∨ maskT arg = true
    · exact .inl (.inr (.inr (.inr (.inr (.inr ⟨arg, rfl, hFT⟩)))))
    · exact .inr (clearParts_keeps Machine.codesPart s (hF := fun hF => absurd (.inl hF) hFT)
        (hT := fun hT => absurd (.inr hT) hFT))
  | reset => exact .inl (.inr (.inr (.inl rfl)))
  | table hi => exact .inl (hi.imp_right .inl)
  | tree => exact .inl (.inr (.inr (.inr (.inl rfl))))
  | codes | noCodes => exact .inl (.inr (.inr (.inr (.inr (.inl rfl)))))
  | _ => exact .inr rfl

/-- Where a step that is no hardware reset changes something of the tables, it carries a command that wrote it. -/
theorem step_changes_tables {β : Type} (g : List FtEntry × (List Node × Word × Bool) × (List Code × Bool) → β)
    (hstep : step s = .next t) (hreset : nextIsHardReset s = false) (hne : g (tables t) ≠ g (tables s)) :
    ∃ i s' u, nextCommand s = some i ∧ Writes Config.hdc1 s' i u ∧ g (tables u) ≠ g (tables s') := by
  rcases stepWith_next hstep with ⟨-, rfl⟩ | ⟨rest, hp, -⟩ | ⟨a, rest, -, -, rfl⟩ | ⟨a, v, rest, -, -, -, rfl⟩ |
    ⟨c, rest, hp, hcmd⟩
  · exact absurd rfl hne
  · rw [nextIsHardReset_eq hp] at hreset; cases hreset
  · exact absurd rfl hne
  · rw [writeLoc_frame] at hne; exact absurd rfl hne
  · rcases command_next hcmd with ⟨i, hdec, hexec⟩ | ⟨why, -, ⟨-, rfl⟩ | ⟨-, rfl⟩⟩
    · rw [execWith_hdc1] at hexec
      obtain ⟨u, hu, htu⟩ := exec_next tables (fun _ _ _ _ => rfl) hexec
      rw [htu] at hne
      exact ⟨i, takeEvent rest s, u, nextCommand_eq hp hdec, hu, hne⟩
    · exact absurd rfl hne
    · exact absurd rfl hne

end

/-- Settles O5: `StepRunsTheDecodedCommandAnyParams` for HDC-1's parameter values. -/
theorem stepRunsTheDecodedCommand : Obligations.StepRunsTheDecodedCommand := by
  intro s c i rest hp hdec
  rw [← stepWith_hdc1, stepRunsTheDecodedCommandAnyParams Config.hdc1 s c i rest hp hdec, execWith_hdc1]

/-- Settles O19, by the cases of a step and, for a command, of `execWith_of_err`. -/
theorem errorRecordIsSticky : Obligations.ErrorRecordIsSticky := by
  intro s t herr hstep
  rcases stepWith_next hstep with ⟨-, rfl⟩ | ⟨rest, hp, rfl⟩ | ⟨a, rest, -, -, rfl⟩ | ⟨a, v, rest, -, -, -, rfl⟩ |
    ⟨c, rest, hp, hcmd⟩
  · exact .inl ⟨herr, rfl, rfl, rfl⟩
  · exact .inr ⟨.inl (nextIsHardReset_eq hp), rfl, rfl, rfl, rfl⟩
  · exact .inl ⟨herr, rfl, rfl, rfl⟩
  · rw [writeLoc_frame]; exact .inl ⟨herr, rfl, rfl, rfl⟩
  · rcases command_next hcmd with ⟨i, hdec, hexec⟩ | ⟨why, -, ⟨-, rfl⟩ | ⟨hok, -⟩⟩
    · have hnext := nextCommand_eq hp hdec
      rcases execWith_of_err (s := takeEvent rest s) herr hexec with rfl | ⟨rfl, rfl⟩ | ⟨arg, u, rfl, hE, rfl⟩
      · exact .inl ⟨herr, rfl, rfl, rfl⟩
      · exact .inr ⟨.inr (.inl hnext), rfl, rfl, rfl, rfl⟩
      · exact .inr ⟨.inr (.inr ⟨arg, hnext, hE⟩), rfl, rfl, rfl, rfl⟩
    · exact .inl ⟨herr, rfl, rfl, rfl⟩
    · rw [takeEvent_err, herr] at hok; cases hok

/-- Settles O28, table by table: what a command may write (`Writes`) names its writers. -/
theorem whoWritesTheTables : Obligations.WhoWritesTheTables := by
  intro s t hstep hreset
  refine ⟨fun hne => ?_, fun hne => ?_, fun hne => ?_⟩
  · obtain ⟨i, s', u, hi, hw, hchange⟩ := step_changes_tables (fun x => x.1) hstep hreset hne
    exact ⟨i, hi, hw.ft.resolve_right hchange⟩
  · obtain ⟨i, s', u, hi, hw, hchange⟩ := step_changes_tables (fun x => x.2.1) hstep hreset (treePart_ne.mpr hne)
    exact ⟨i, hi, hw.treePart.resolve_right hchange⟩
  · obtain ⟨i, s', u, hi, hw, hchange⟩ := step_changes_tables (fun x => x.2.2) hstep hreset (codesPart_ne.mpr hne)
    exact ⟨i, hi, hw.codesPart.resolve_right hchange⟩

end Sys2Proof.Machine

end

/-! # The host's transactions, address by address (20_memory.md R61 to R66, R69, R74 to R76) -/

section

namespace Sys2Proof.Machine

section

variable {P : Config.Params} {free v : Word} {s : State} {a : Nat} {rest : List HostEvent}

/-! ## What the port can express (R61) -/

theorem addrOk_iff : addrOk a = true ↔ a % 4 = 0 ∧ a < 2 ^ 24 := by simp [addrOk]

theorem addrOk_eq_false_iff : addrOk a = false ↔ a % 4 ≠ 0 ∨ 2 ^ 24 ≤ a := by
  rw [← Bool.not_eq_true, addrOk_iff]; omega

/-- A step whose transaction is at an address that the port cannot express. -/
theorem stepWith_inexpressible (ha : addrOk a = false)
    (hp : s.pending = .read a :: rest ∨ ∃ v, s.pending = .write a v :: rest) :
    stepWith P s = .refused (.inexpressibleAddress a) := by
  rcases hp with hp | ⟨v, hp⟩
  · simp [stepWith, hp, perform, ha]
  · simp [stepWith, hp, perform, ha]

/-! ## Reads change nothing (R63) -/

/-- What a read returns does not depend on which transaction it is. -/
theorem memRead_takeEvent : memRead P free (takeEvent rest s) a = memRead P free s a := by
  unfold memRead
  cases locate P a with
  | reg r => cases r <;> rfl
  | _ => rfl

/-- A step whose transaction is a read that the port can express. -/
theorem stepWith_read (hp : s.pending = .read a :: rest) (ha : addrOk a = true) :
    stepWith P s = .next (logRead (memRead P (Config.freeWord (s.txnIndex + 1)) s a) (takeEvent rest s)) := by
  simp only [stepWith, hp, perform, ha, if_true, memRead_takeEvent, takeEvent_txnIndex]

/-! ## Writes outside `CMD` (R64) -/

/-- A step whose transaction is a write, outside `CMD`, that the port can express. -/
theorem stepWith_writeLoc (hp : s.pending = .write a v :: rest) (ha : addrOk a = true) (hcmd : a ≠ 0x10) :
    stepWith P s = .next (writeLoc v (takeEvent rest s) (locate P a)) := by
  rw [stepWith_write hp ha, memWrite_of_ne_cmd hcmd]

theorem locate_regOffset (r : Reg) : locate P r.offset = .reg r := by cases r <;> rfl

theorem addrOk_regOffset (r : Reg) : addrOk r.offset = true := by cases r <;> rfl

/-- A write to a register that is not `CMD`. -/
theorem stepWith_regWrite {r : Reg} (hr : r ≠ .cmd) (hp : s.pending = .write r.offset v :: rest) :
    stepWith P s = .next (writeReg v (takeEvent rest s) r) := by
  have hcmd : r.offset ≠ 0x10 := fun h => by
    have hloc := locate_eq_cmd (P := P).mpr h
    rw [locate_regOffset] at hloc
    exact hr (Loc.reg.inj hloc)
  rw [stepWith_writeLoc hp (addrOk_regOffset r) hcmd, locate_regOffset]
  rfl

/-- A read-only register ignores the word (R21). -/
theorem writeReg_readOnly {r : Reg} (hr : r.access = .readOnly) : writeReg v s r = s := by
  cases r with
  | cmd | vlen | blen | bitcnt | ftVal | ftCnt => cases hr
  | _ => rfl

/-- Where the registers lie that are not read-only (R22). -/
theorem offset_of_not_readOnly {r : Reg} (hr : r.access ≠ .readOnly) :
    r.offset ∈ [0x10, 0x24, 0x28, 0x2C, 0x3C, 0x40] := by
  cases r with
  | cmd | vlen | blen | bitcnt | ftVal | ftCnt => decide
  | _ => exact absurd rfl hr

/-- In the register block a write elsewhere than to `CMD` and the `RW` registers is ignored. -/
theorem writeLoc_regBlock (ha : a < 0x100000) (hro : a ∉ [0x10, 0x24, 0x28, 0x2C, 0x3C, 0x40]) :
    writeLoc v s (locate P a) = s := by
  cases hreg : regAt a with
  | none => simp only [locate, Nat.div_eq_of_lt ha, hreg]; rfl
  | some r =>
    obtain rfl := regAt_eq_some.mp hreg
    rw [locate_regOffset]
    exact writeReg_readOnly (by_contra fun h => hro (offset_of_not_readOnly h))

/-! ## The reserved ranges (R62) -/

/-- Past its entries a window is reserved. -/
theorem windowLoc_past {mk : Nat → Nat → Loc} {words count offset : Nat} (hwords : 0 < 4 * words)
    (h : count * (4 * words) ≤ offset) : windowLoc mk words count offset = .reserved :=
  if_neg (Nat.not_lt.mpr ((Nat.le_div_iff_mul_le hwords).mpr h))

theorem regAt_pastRegisters (ha : 0x48 ≤ a) : regAt a = none := by
  refine Option.eq_none_iff_forall_ne_some.mpr fun r hr => ?_
  have hoffset := regAt_eq_some.mp hr
  have hle : r.offset ≤ 0x44 := offset_le_capCode r
  omega

theorem locate_pastVbuf (hlo : 0x100000 + 4 * P.maxValues ≤ a) (hhi : a < 0x200000) : locate P a = .reserved := by
  have hregion : a / 0x100000 = 1 := by omega
  simp only [locate, hregion]
  exact windowLoc_past (by decide) (by omega)

theorem locate_pastBbuf (hlo : 0x200000 + P.maxBytes ≤ a) (hhi : a < 0x300000) : locate P a = .reserved := by
  have hregion : a / 0x100000 = 2 := by omega
  simp only [locate, hregion]
  exact windowLoc_past (by decide) (by omega)

theorem locate_pastFt (hlo : 0x300000 + 8 * P.maxSyms ≤ a) (hhi : a < 0x400000) : locate P a = .reserved := by
  have hregion : a / 0x100000 = 3 := by omega
  simp only [locate, hregion]
  exact windowLoc_past (by decide) (by omega)

theorem locate_pastNode (hlo : 0x400000 + 16 * (2 * P.maxSyms - 1) ≤ a) (hhi : a < 0x500000) :
    locate P a = .reserved := by
  have hregion : a / 0x100000 = 4 := by omega
  simp only [locate, hregion]
  exact windowLoc_past (by decide) (by omega)

theorem locate_pastCt (hlo : 0x500000 + 8 * P.maxSyms ≤ a) (hhi : a < 0x600000) : locate P a = .reserved := by
  have hregion : a / 0x100000 = 5 := by omega
  simp only [locate, hregion]
  exact windowLoc_past (by decide) (by omega)

theorem locate_pastWindows (ha : 0x600000 ≤ a) : locate P a = .reserved := by
  unfold locate
  split
  case h_7 => rfl
  all_goals omega

theorem memRead_reserved (h : locate P a = .reserved) : memRead P free s a = 0#32 := by rw [memRead, h]; rfl

theorem writeLoc_reserved (h : locate P a = .reserved) : writeLoc v s (locate P a) = s := by rw [h]; rfl

end

/-- Settles O10: O54 at HDC-1's capacities, and range by range what is reserved. -/
theorem windowReads : Obligations.WindowReads := by
  intro free s
  obtain ⟨hvbuf, hbbuf, hft, hnode, hct, -⟩ := windowsFollowTheCapacities Config.hdc1 free s (by decide)
  refine ⟨fun i hi => ?_, fun j hj b hb => ?_, fun i hi => ?_, fun k hk => ?_, fun i hi => ?_, fun a _ _ hres => ?_⟩
  · rw [(hvbuf i (by omega)).1]
    exact if_pos hi
  · rw [(hbbuf j (by omega)).1 b hb]
    exact if_pos (show 4 * j < 262144 by omega)
  · obtain ⟨hvalue, hcount⟩ := hft i (by omega)
    rw [hvalue, hcount]
    exact ⟨if_pos hi, if_pos hi⟩
  · obtain ⟨hleaf, hinternal, hpast⟩ := hnode k (by omega)
    exact ⟨fun f v => hleaf f v hk, fun f l r => hinternal f l r hk, fun h => hpast (.inl h)⟩
  · obtain ⟨hcode, hnone⟩ := hct i (by omega)
    exact ⟨fun c => hcode c hi, fun h => hnone (h.imp_right .inl)⟩
  · rcases hres with ⟨hlo, hhi⟩ | ⟨hlo, hhi⟩ | ⟨hlo, hhi⟩ | ⟨hlo, hhi⟩ | ⟨hlo, hhi⟩ | ⟨hlo, hhi⟩ | hlo
    · exact memRead_reservedOffset hhi (regAt_pastRegisters (by omega))
    · exact memRead_reserved (locate_pastVbuf hlo hhi)
    · exact memRead_reserved (locate_pastBbuf hlo hhi)
    · exact memRead_reserved (locate_pastFt hlo hhi)
    · exact memRead_reserved (locate_pastNode hlo hhi)
    · exact memRead_reserved (locate_pastCt hlo hhi)
    · exact memRead_reserved (locate_pastWindows hlo)

/-- Where HDC-1 ignores a write, region by region. -/
theorem writeLoc_ignored {a : Nat} (h : a < 0x10 ∨ (0x14 ≤ a ∧ a < 0x24) ∨ (0x30 ≤ a ∧ a < 0x3C) ∨
    (0x44 ≤ a ∧ a < 0x100000) ∨ (0x140000 ≤ a ∧ a < 0x200000) ∨ 0x240000 ≤ a) (v : Word) (s : State) :
    writeLoc v s (locate Config.hdc1 a) = s := by
  by_cases hblock : a < 0x100000
  · exact writeLoc_regBlock hblock (by simp only [List.mem_cons, List.not_mem_nil, or_false]; omega)
  by_cases hvbuf : a < 0x200000
  · exact writeLoc_reserved (locate_pastVbuf (show 0x140000 ≤ a by omega) hvbuf)
  by_cases hbbuf : a < 0x300000
  · exact writeLoc_reserved (locate_pastBbuf (show 0x240000 ≤ a by omega) hbbuf)
  by_cases htables : a < 0x600000
  · exact writeLoc_readOnly (by omega) htables v s
  · exact writeLoc_reserved (locate_pastWindows (by omega))

/-- Settles O11: the five `RW` registers, the two buffer windows, and the places where a write is ignored. -/
theorem hostWrites : Obligations.HostWrites := by
  intro s a v rest hp
  refine ⟨?_, ?_, ?_, ?_, ?_, ?_, ?_, fun hhi halign hign => ?_⟩
  · rintro rfl; exact stepWith_regWrite (r := .vlen) (by decide) hp
  · rintro rfl; exact stepWith_regWrite (r := .blen) (by decide) hp
  · rintro rfl; exact stepWith_regWrite (r := .bitcnt) (by decide) hp
  · rintro rfl; exact stepWith_regWrite (r := .ftVal) (by decide) hp
  · rintro rfl; exact stepWith_regWrite (r := .ftCnt) (by decide) hp
  · rintro i hi rfl
    have hstep : step s = _ := stepWith_vbufWrite (P := Config.hdc1) (by omega) hp
    rw [if_pos (show i < Config.hdc1.maxValues from hi)] at hstep
    exact ⟨_, hstep, rfl, read_write s.vbuf i v⟩
  · rintro j hj rfl
    obtain ⟨-, hbbuf, -⟩ := windowsFollowTheCapacities Config.hdc1 0#32 s (by decide)
    obtain ⟨-, hwrite⟩ := hbbuf j (by omega)
    exact (hwrite v rest hp).1 (show 4 * j < 262144 by omega)
  · rw [← stepWith_hdc1, stepWith_writeLoc hp (addrOk_iff.mpr ⟨halign, hhi⟩) (by omega), writeLoc_ignored hign]

/-- Settles O12: byte `p div 8` of the buffer is byte `(p div 8) mod 4` of the window word (O10). -/
theorem streamBitInWindowWord : Obligations.StreamBitInWindowWord := by
  intro free s p b hp hbit
  obtain ⟨byte, hbyte, rfl⟩ := Option.map_eq_some_iff.mp hbit
  obtain ⟨-, hbbuf, -⟩ := windowReads free s
  have hwindow := hbbuf (p / 32) (by omega) (p / 8 % 4) (by omega)
  rw [show 4 * (p / 32) + p / 8 % 4 = p / 8 by omega, hbyte, Option.getD_some] at hwindow
  rw [bitOfByte, ← hwindow, BitVec.getLsbD_extractLsb', decide_eq_true (by omega), Bool.true_and,
    show 8 * (p / 8 % 4) + (7 - p % 8) = 8 * (p / 8 % 4) + 7 - p % 8 by omega]

/-- Settles O7: these are the addresses that `addrOk` turns away. -/
theorem inexpressibleAddressRefused : Obligations.InexpressibleAddressRefused := by
  intro s a rest ha
  have hbad := addrOk_eq_false_iff.mpr ha
  exact ⟨fun v hp => stepWith_inexpressible hbad (.inr ⟨v, hp⟩), fun hp => stepWith_inexpressible hbad (.inl hp)⟩

/-- Settles O8: the word read is that of the state before the step (`memRead_takeEvent`). -/
theorem hostReadChangesNothing : Obligations.HostReadChangesNothing :=
  fun _ _ _ hp halign hhi => stepWith_read hp (addrOk_iff.mpr ⟨halign, hhi⟩)

end Sys2Proof.Machine

end

/-! # The encoding of the commands (30_encoding.md R90 to R94)

A word is its three fields (`word_fields`), and R92 tests every bit of each of them, so a word decodes to a command
exactly when its fields are the command's (`decode_eq_instr_iff_fields`). -/

section

namespace Sys2Proof

section

variable {c : Word} {i : Instr}

/-! ## The fields of a legal word -/

/-- Two command words with the same fields are the same word. -/
theorem word_eq_iff_fields {d : Word} :
    c = d ↔ rsvField c = rsvField d ∧ argField c = argField d ∧ opField c = opField d := by
  constructor
  · rintro rfl
    exact ⟨rfl, rfl, rfl⟩
  · rintro ⟨hrsv, harg, hop⟩
    rw [← word_fields c, hrsv, harg, hop, word_fields]

/-- Decoding the word of a well-formed command gives the command back (`Laws.RoundTrip`, command by command). -/
theorem decode_encode (h : i.wellFormed = true) : decode (encode i) = .instr i := by
  cases i with
  | nop => exact Laws.RoundTrip.nop h
  | clr arg => exact Laws.RoundTrip.clr arg h
  | srst => exact Laws.RoundTrip.srst h
  | denc => exact Laws.RoundTrip.denc h
  | ddec => exact Laws.RoundTrip.ddec h
  | fcnt => exact Laws.RoundTrip.fcnt h
  | fput => exact Laws.RoundTrip.fput h
  | btree => exact Laws.RoundTrip.btree h
  | gcode => exact Laws.RoundTrip.gcode h
  | enc => exact Laws.RoundTrip.enc h
  | dec => exact Laws.RoundTrip.dec h

/-- Every opcode but `CLR` names a well-formed command whose `arg` field is 0 (R91). -/
theorem Opcode.instr_of_ne_clr {o : Opcode} (ho : o ≠ .clr) (arg : Byte) :
    (o.instr arg).wellFormed = true ∧ (o.instr arg).argByte = 0#8 ∧ (o.instr arg).opcode = o := by
  cases o with
  | clr => exact absurd rfl ho
  | _ => exact ⟨rfl, rfl, rfl⟩

/-- A word that decodes to a command passed the tests of R92, so each of its fields is the command's. -/
theorem fields_of_decode (h : decode c = .instr i) :
    i.wellFormed = true ∧ rsvField c = 0#16 ∧ argField c = i.argByte ∧ opField c = i.opcode.code := by
  unfold decode at h
  split at h
  case isTrue => cases h
  case isFalse hrsv =>
    have hrsv : rsvField c = 0#16 := not_not.mp hrsv
    split at h
    case h_1 => cases h
    case h_2 hop =>
      split at h
      case isTrue hmask =>
        cases h
        exact ⟨hmask, hrsv, rfl, (ofByte?_eq_some hop).symm⟩
      case isFalse => cases h
    case h_3 o hclr hop =>
      split at h
      case isTrue => cases h
      case isFalse harg =>
        cases h
        obtain ⟨hwf, hbyte, hopcode⟩ := Opcode.instr_of_ne_clr hclr 0#8
        exact ⟨hwf, hrsv, (not_not.mp harg).trans hbyte.symm, by rw [hopcode, ofByte?_eq_some hop]⟩

theorem decode_eq_instr_iff_fields : decode c = .instr i ↔
    i.wellFormed = true ∧ rsvField c = 0#16 ∧ argField c = i.argByte ∧ opField c = i.opcode.code := by
  refine ⟨fields_of_decode, fun ⟨hwf, hfields⟩ => ?_⟩
  have hc : c = encode i := word_eq_iff_fields.mpr (by simpa using hfields)
  rw [hc, decode_encode hwf]

end

/-- Settles O1: the fields that R92 tests are all there is of a word. -/
theorem decodeIsExactlyEncode : Obligations.DecodeIsExactlyEncode := by
  intro c i
  rw [decode_eq_instr_iff_fields, eq_comm (a := encode i), word_eq_iff_fields, rsvField_encode, argField_encode,
    opField_encode]

/-! ## The masks of R93 -/

/-- A command without an operand has the full mask, and its word is its match. -/
theorem decode_iff_fullMask {i : Instr} (hwf : i.wellFormed = true) (c : Word) :
    decode c = .instr i ↔ c &&& 0xFFFFFFFF#32 = encode i := by
  have hfull : c &&& 0xFFFFFFFF#32 = c := BitVec.and_allOnes
  rw [hfull, decodeIsExactlyEncode c i, and_iff_right hwf, eq_comm]

/-- The mask `0x70` selects the reserved bits `arg[6:4]` of R91. -/
theorem clrMaskOk_iff_mask : ∀ arg : Byte, clrMaskOk arg = true ↔ arg &&& 0x70#8 = 0#8 := by decide

/-- The mask of `CLR` leaves the bits of `arg` out, but for the three reserved ones. -/
theorem decode_clr_iff_mask (c : Word) :
    (∃ arg, decode c = .instr (.clr arg)) ↔ c &&& 0xFFFF70FF#32 = 0x00000001#32 := by
  have hrsv : rsvField (c &&& 0xFFFF70FF#32) = rsvField c := BitVec.extractLsb'_and.trans BitVec.and_allOnes
  have harg : argField (c &&& 0xFFFF70FF#32) = argField c &&& 0x70#8 := BitVec.extractLsb'_and
  have hop : opField (c &&& 0xFFFF70FF#32) = opField c := BitVec.extractLsb'_and.trans BitVec.and_allOnes
  rw [word_eq_iff_fields, hrsv, harg, hop]
  constructor
  · rintro ⟨arg, h⟩
    obtain ⟨hwf, hc, rfl, hcode⟩ := decode_eq_instr_iff_fields.mp h
    exact ⟨hc, (clrMaskOk_iff_mask _).mp hwf, hcode⟩
  · rintro ⟨hc, hmask, hcode⟩
    exact ⟨argField c, decode_eq_instr_iff_fields.mpr ⟨(clrMaskOk_iff_mask _).mpr hmask, hc, rfl, hcode⟩⟩

/-- Settles O2: the ten commands without an operand, and `CLR`. -/
theorem decodeMatchesTheTable : Obligations.DecodeMatchesTheTable := fun c =>
  ⟨decode_iff_fullMask (i := .nop) rfl c, decode_clr_iff_mask c, decode_iff_fullMask (i := .srst) rfl c,
    decode_iff_fullMask (i := .denc) rfl c, decode_iff_fullMask (i := .ddec) rfl c,
    decode_iff_fullMask (i := .fcnt) rfl c, decode_iff_fullMask (i := .fput) rfl c,
    decode_iff_fullMask (i := .btree) rfl c, decode_iff_fullMask (i := .gcode) rfl c,
    decode_iff_fullMask (i := .enc) rfl c, decode_iff_fullMask (i := .dec) rfl c⟩

/-- Settles O3: each word is evaluated. -/
theorem sampleWordsDecode : Obligations.SampleWordsDecode := by
  unfold Obligations.SampleWordsDecode
  decide

end Sys2Proof

end

/-! # Illegal words (30_encoding.md R94), and that commands complete (R99) -/

section

namespace Sys2Proof.Machine

section

variable {c : Word} {i : Instr}

/-! ## Which words are illegal -/

/-- A word is illegal when no command's fields are its fields. -/
theorem illegal_of_no_instr (h : ∀ i : Instr, i.wellFormed = true → rsvField c = 0#16 → argField c = i.argByte →
    opField c = i.opcode.code → False) : ∃ why, decode c = .illegal why := by
  cases hdec : decode c with
  | illegal why => exact ⟨why, rfl⟩
  | instr i =>
    obtain ⟨hwf, hrsv, harg, hop⟩ := decode_eq_instr_iff_fields.mp hdec
    exact (h i hwf hrsv harg hop).elim

/-- Bits 6:4 of the field `arg` are bits 14:12 of the word. -/
theorem reservedMask_eq (c : Word) : (argField c).extractLsb' 4 3 = c.extractLsb' 12 3 := by
  apply BitVec.eq_of_getLsbD_eq
  intro j hj
  simp [argField, hj, show 4 + j < 8 by omega, show 8 + (4 + j) = 12 + j by omega]

/-- The opcode `0x01` is that of `CLR` alone. -/
theorem eq_clr_of_code (h : i.opcode.code = 0x01#8) : i = .clr i.argByte := by
  cases i with
  | clr arg => rfl
  | _ => exact absurd h (by decide)

/-- Only `CLR` has an `arg` field other than 0 (R91). -/
theorem argByte_of_code_ne (h : i.opcode.code ≠ 0x01#8) : i.argByte = 0#8 := by
  cases i with
  | clr arg => exact absurd rfl h
  | _ => rfl

/-- What an illegal word does (R94). -/
theorem command_illegal {P : Config.Params} {why : Illegal} (h : decode c = .illegal why) (s : State) :
    command P c s = .next (if s.err then s else raiseError .illCmd 0#32 c s) := by
  have hcommand : command P c s = illegalCommand c s := by rw [command, h]
  rw [hcommand, illegalCommand]
  cases herr : s.err with
  | true => exact gated_of_err herr _
  | false => exact gated_of_ok herr _

/-! ## Which commands do nothing in every state -/

/-- A state in which every command that has a pre-check fails it, and every part of `CLR` has something to clear. -/
def failingState : State := { State.reset with vlen := 0xFFFFFFFF#32, blen := 1#32, root := 1#32, errInfo := 1#32 }

theorem raiseError_ne_failingState {code : ErrCode} {info cmd : Word} :
    (.next (raiseError code info cmd failingState) : Host.Outcome State Fault Refusal) ≠ .next failingState := by
  intro h
  have herr : true = false := congrArg State.err (Host.Outcome.next.inj h)
  cases herr

/-- `CLR` changes the state `failingState` whichever parts its mask selects. -/
theorem masks_of_clearParts_failingState {arg : Byte} (h : clearParts arg failingState = failingState) :
    maskV arg = false ∧ maskB arg = false ∧ maskF arg = false ∧ maskT arg = false ∧ maskE arg = false := by
  have parts : ∀ V B F T E : Bool, onlyIf E clearError (onlyIf T invalidateTree (onlyIf F clearF (onlyIf B clearB
      (onlyIf V clearV failingState)))) = failingState →
      V = false ∧ B = false ∧ F = false ∧ T = false ∧ E = false := by decide
  exact parts _ _ _ _ _ h

/-- A well-formed mask that selects nothing is 0. -/
theorem mask_eq_zero : ∀ arg : Byte, clrMaskOk arg = true →
    maskV arg = false ∧ maskB arg = false ∧ maskF arg = false ∧ maskT arg = false ∧ maskE arg = false →
    arg = 0#8 := by decide

/-- A command that leaves `failingState` as it is is `NOP` or a `CLR` that selects nothing. -/
theorem instr_of_exec_failingState (hwf : i.wellFormed = true) (h : exec i failingState = .next failingState) :
    i = .nop ∨ i = .clr 0#8 := by
  cases i with
  | nop => exact .inl rfl
  | clr arg =>
    have hparts : clearParts arg failingState = failingState := Host.Outcome.next.inj h
    rw [mask_eq_zero arg hwf (masks_of_clearParts_failingState hparts)]
    exact .inr rfl
  | srst =>
    have hvlen : 0#32 = 0xFFFFFFFF#32 := congrArg State.vlen (Host.Outcome.next.inj h)
    exact absurd hvlen (by decide)
  | _ => exact absurd h raiseError_ne_failingState

end

/-- Settles O4: the step by `command_illegal`, the illegal words by the fields of a legal one, and the words that do
nothing by `failingState`. -/
theorem illegalWordsRaise : Obligations.IllegalWordsRaise := by
  refine ⟨fun s c rest why hp hdec => ?_, fun c hunassigned => ?_, fun c hrsv => ?_, fun c hclr hmask => ?_,
    fun c hclr harg => ?_, fun c i hdec hnothing => ?_⟩
  · rw [← stepWith_hdc1, stepWith_write hp (by decide), memWrite_cmd, command_illegal hdec]
    rfl
  · exact illegal_of_no_instr fun i _ _ _ hop => hunassigned i.opcode hop.symm
  · exact illegal_of_no_instr fun _ _ h _ _ => hrsv h
  · refine illegal_of_no_instr fun i hwf _ harg hop => hmask ?_
    rw [eq_clr_of_code (hop.symm.trans hclr)] at hwf
    have hreserved : i.argByte.extractLsb' 4 3 = 0#3 := beq_iff_eq.mp hwf
    rw [← reservedMask_eq, harg, hreserved]
  · exact illegal_of_no_instr fun i _ _ h hop => harg (h.trans (argByte_of_code_ne (hop ▸ hclr)))
  · obtain ⟨hwf, rfl⟩ := (decodeIsExactlyEncode c i).mp hdec
    rcases instr_of_exec_failingState hwf (hnothing failingState) with rfl | rfl
    · exact .inl rfl
    · exact .inr rfl

/-- Settles O47: `EveryCommandCompletesAnyParams` for HDC-1's parameter values. -/
theorem everyCommandCompletes : Obligations.EveryCommandCompletes := by
  intro s i hinv hv hb
  rw [← execWith_hdc1]
  exact everyCommandCompletesAnyParams Config.hdc1 (by decide) s i hinv hv hb

end Sys2Proof.Machine

end

/-! # The delta coder (40_delta.md R110 to R114)

Both commands are one `deltaCommand` over a loop, and each loop computes one function of the values (`LoopComputes`). The
effect, the round trip and the frame are proved once for such a command. -/

section

namespace Sys2Proof.Machine

/-! ## What the buffer operations leave in the cells -/

section

variable {α : Type} {m : Memory α} {n : Nat}

theorem cellsKept_writeFrom {vs : List α} (h : vs.length ≤ n) : CellsKept n m (Memory.writeFrom m 0 vs) :=
  fun k hk => by rw [read_writeFrom, if_neg (by omega)]

theorem cellsKept_forget : CellsKept n m (Memory.forget m n) :=
  fun k hk => by rw [read_forget, if_neg (by omega)]

theorem cellsUnspec_forget : CellsUnspec n (Memory.forget m n) := fun _ hk => by rw [read_forget, if_pos hk]

end

/-- Values written back in place, one per value of the sequence, are the new value sequence. -/
theorem valuesAre_storeDeltas {s : State} {out : List Word} (h : s.vlen.toNat = out.length) :
    ValuesAre (storeDeltas out s) out :=
  ⟨h, fun k hk => by rw [storeDeltas_vbuf, read_writeFrom, if_pos (by omega), Nat.sub_zero]⟩

/-! ## The values in Z -/

/-- A value sequence is determined by its integers. -/
theorem eq_of_valueAt {vs ws : List Word} (hlen : ws.length = vs.length)
    (h : ∀ k < vs.length, valueAt ws k = valueAt vs k) : ws = vs := by
  refine List.ext_getElem hlen fun k hw hv => BitVec.eq_of_toInt_eq ?_
  rw [← valueAt_eq hw, ← valueAt_eq hv, h k hv]

/-- The running sums of the differences are the values (R113). -/
theorem sumAt_of_deltas {vs ds : List Word} (h : ∀ k < vs.length, valueAt ds k = deltaAt vs k) (k : Nat)
    (hk : k < vs.length) : sumAt ds k = valueAt vs k := by
  induction k using Nat.strong_induction_on with
  | _ k ih =>
    by_cases h2 : k < 2
    · rw [sumAt_of_lt_two h2, h k hk, deltaAt, if_pos h2]
    · rw [sumAt_of_two_le (by omega), ih (k - 2) (by omega) (by omega), h k hk, deltaAt, if_neg h2, Int.sub_add_cancel]

/-- The differences of the running sums are the values (R113). -/
theorem deltaAt_of_sums {vs xs : List Word} (h : ∀ k < vs.length, valueAt xs k = sumAt vs k) (k : Nat)
    (hk : k < vs.length) : deltaAt xs k = valueAt vs k := by
  by_cases h2 : k < 2
  · rw [deltaAt, if_pos h2, h k hk, sumAt_of_lt_two h2]
  · rw [deltaAt, if_neg h2, h k hk, h (k - 2) (by omega), sumAt_of_two_le (by omega), Int.add_sub_cancel]

/-- Samples of 16-bit PCM, signed, have differences of at most 17 bits (R113). -/
theorem deltaAt_pcm {vs : List Word} (h : ∀ v ∈ vs, -32768 ≤ v.toInt ∧ v.toInt ≤ 32767) {k : Nat}
    (hk : k < vs.length) : -65535 ≤ deltaAt vs k ∧ deltaAt vs k ≤ 65535 := by
  have sample : ∀ j < vs.length, -32768 ≤ valueAt vs j ∧ valueAt vs j ≤ 32767 := fun j hj => by
    rw [valueAt_eq hj]
    exact h _ (List.getElem_mem hj)
  have hnow := sample k hk
  have hbefore := sample (k - 2) (by omega)
  rw [deltaAt]
  split <;> omega

/-! ## What the loops compute -/

/-- Over written values `vs` the loop gives the integers `f vs k`, or raises `E_RANGE` at the least `k` where `f vs k` leaves
the value range (R110, R111). -/
structure LoopComputes (loop : List (Option Word) → Work (List Word)) (f : List Word → Nat → Int) : Prop where
  done : ∀ vs, (∀ k < vs.length, inRange (f vs k) = true) →
    ∃ out, loop (vs.map some) = .done out ∧ out.length = vs.length ∧
      ∀ k (hk : k < out.length), (out[k]).toInt = f vs k
  raises : ∀ vs, ∀ k < vs.length, inRange (f vs k) = false → (∀ j < k, inRange (f vs j) = true) →
    loop (vs.map some) = .raise .range (BitVec.ofNat 32 k)

theorem encodeDeltas_computes : LoopComputes (encodeDeltas 0 0#32 0#32) deltaAt where
  done := fun vs h => by
    simpa using encodeDeltas_done vs vs.length 0 (by omega) 0#32 0#32 nofun nofun fun j _ => h j
  raises := fun vs k hk hbad hleast => by
    simpa using encodeDeltas_raise vs k 0 (by omega) 0#32 0#32 nofun nofun (fun j _ hj => hleast j (by omega))
      (by rwa [Nat.zero_add])

theorem decodeDeltas_computes : LoopComputes (decodeDeltas 0 0#32 0#32) sumAt where
  done := fun vs h => by
    simpa using decodeDeltas_done vs vs.length 0 (by omega) 0#32 0#32 nofun nofun fun j _ => h j
  raises := fun vs k hk hbad hleast => by
    simpa using decodeDeltas_raise vs k 0 (by omega) 0#32 0#32 nofun nofun (fun j _ hj => hleast j (by omega))
      (by rwa [Nat.zero_add])

/-! ## The commands -/

theorem exec_denc_of_ok {s : State} (h : s.err = false) :
    exec .denc s = deltaCommand Config.hdc1 0x10#32 (encodeDeltas 0 0#32 0#32) s := gated_of_ok h _

theorem exec_ddec_of_ok {s : State} (h : s.err = false) :
    exec .ddec s = deltaCommand Config.hdc1 0x11#32 (decodeDeltas 0 0#32 0#32) s := gated_of_ok h _

section

variable {P : Config.Params} {s t : State} {cmd : Word} {loop : List (Option Word) → Work (List Word)}

/-- Either pre-check records the same error. -/
theorem deltaCommand_badLength (h : P.maxValues < s.vlen.toNat ∨ s.vlen.toNat % 2 = 1) :
    deltaCommand P cmd loop s = .next (raiseError .len s.vlen cmd s) := by
  unfold deltaCommand
  by_cases hmax : P.maxValues < s.vlen.toNat
  · rw [if_pos hmax]
  · rw [if_neg hmax, if_pos (h.resolve_left hmax)]

/-- The next states of a delta command whose loop gives one result per cell: the results in place, or an error with or
without the values spoiled. -/
theorem deltaCommand_next
    (hloop : (loop (valueCells s)).Meets (fun out => out.length = (valueCells s).length) (ValueUnspec s))
    (h : deltaCommand P cmd loop s = .next t) :
    (∃ out, out.length = s.vlen.toNat ∧ t = storeDeltas out s) ∨
    ∃ code info, t = raiseError code info cmd s ∨ t = raiseError code info cmd (spoilDeltas s) := by
  unfold deltaCommand at h
  split at h
  · cases h
    exact .inr ⟨_, _, .inl rfl⟩
  · split at h
    · cases h
      exact .inr ⟨_, _, .inl rfl⟩
    · rcases settle_next h with ⟨out, hdone, ht⟩ | ⟨code, info, -, ht⟩
      · rw [hdone] at hloop
        exact .inl ⟨out, hloop.trans (valueCells_length s), ht⟩
      · exact .inr ⟨code, info, .inr ht⟩

/-- The frame of a delta command (R114). -/
theorem deltaCommand_frame
    (hloop : (loop (valueCells s)).Meets (fun out => out.length = (valueCells s).length) (ValueUnspec s))
    (h : deltaCommand P cmd loop s = .next t) :
    t = { s with vbuf := t.vbuf, vlen := t.vlen, err := t.err, errCode := t.errCode,
                 errInfo := t.errInfo, errCmd := t.errCmd } ∧
    CellsKept s.vlen.toNat s.vbuf t.vbuf ∧ (t.err = false → t.vlen = s.vlen) := by
  rcases deltaCommand_next hloop h with ⟨out, hlen, rfl⟩ | ⟨code, info, rfl | rfl⟩
  · exact ⟨rfl, cellsKept_writeFrom hlen.le, fun _ => rfl⟩
  · exact ⟨rfl, fun _ _ => rfl, fun _ => rfl⟩
  · exact ⟨rfl, cellsKept_forget, by simp⟩

/-! ## A command over written values -/

variable {f : List Word → Nat → Int} {vs : List Word}

/-- Within the capacity and even, a delta command is its loop over the values. -/
theorem deltaCommand_values (hvs : ValuesAre s vs) (hmax : vs.length ≤ P.maxValues) (heven : vs.length % 2 = 0) :
    deltaCommand P cmd loop s = settle cmd s storeDeltas spoilDeltas (loop (vs.map some)) := by
  obtain ⟨hlen, hcells⟩ := hvs
  unfold deltaCommand
  rw [valueCells, hlen, if_neg (by omega), if_neg (by omega), cellsFrom_eq_map _ _ hcells]

variable (hloop : LoopComputes loop f) (hvs : ValuesAre s vs) (hmax : vs.length ≤ P.maxValues)
  (heven : vs.length % 2 = 0)

include hloop hvs hmax heven

/-- When every result fits, the results are the new value sequence. -/
theorem deltaCommand_stores (hfit : ∀ k < vs.length, inRange (f vs k) = true) :
    ∃ out, deltaCommand P cmd loop s = .next (storeDeltas out s) ∧ ValuesAre (storeDeltas out s) out ∧
      out.length = vs.length ∧ ∀ k < vs.length, valueAt out k = f vs k := by
  obtain ⟨out, hout, hlen, hval⟩ := hloop.done vs hfit
  refine ⟨out, ?_, valuesAre_storeDeltas (hvs.1.trans hlen.symm), hlen, fun k hk => ?_⟩
  · rw [deltaCommand_values hvs hmax heven, hout]
    rfl
  · rw [valueAt_eq (hlen ▸ hk), hval]

/-- The same, cell by cell. -/
theorem deltaCommand_storesCells (hfit : ∀ k < vs.length, inRange (f vs k) = true) :
    ∃ t, deltaCommand P cmd loop s = .next t ∧ t = { s with vbuf := t.vbuf } ∧
      CellsHold t.vbuf vs.length (f vs) ∧ CellsKept vs.length s.vbuf t.vbuf := by
  obtain ⟨out, hrun, ⟨-, hcells⟩, hlen, hval⟩ := deltaCommand_stores hloop hvs hmax heven hfit
  refine ⟨_, hrun, rfl, fun k hk => ?_, cellsKept_writeFrom hlen.le⟩
  have hk' : k < out.length := hlen ▸ hk
  exact ⟨out[k], by rw [hcells k hk', List.getElem?_eq_getElem hk'], by rw [← valueAt_eq hk', hval k hk]⟩

/-- At the least result that does not fit, the command raises and spoils the values (R216). -/
theorem deltaCommand_raises {k : Nat} (hk : k < vs.length) (hbad : inRange (f vs k) = false)
    (hleast : ∀ j < k, inRange (f vs j) = true) :
    deltaCommand P cmd loop s = .next (raiseError .range (BitVec.ofNat 32 k) cmd (spoilDeltas s)) := by
  rw [deltaCommand_values hvs hmax heven, hloop.raises vs k hk hbad hleast]
  rfl

/-- The same, field by field and cell by cell. -/
theorem deltaCommand_spoilsCells (k : Nat) (hk : k < vs.length) (hbad : inRange (f vs k) = false)
    (hleast : ∀ j < k, inRange (f vs j) = true) :
    ∃ t, deltaCommand P cmd loop s = .next t ∧
      t = { s with vbuf := t.vbuf, vlen := 0#32, err := true, errCode := .range,
                   errInfo := BitVec.ofNat 32 k, errCmd := cmd } ∧
      CellsUnspec vs.length t.vbuf ∧ CellsKept vs.length s.vbuf t.vbuf := by
  refine ⟨_, deltaCommand_raises hloop hvs hmax heven hk hbad hleast, rfl, ?_⟩
  rw [← hvs.1]
  exact ⟨cellsUnspec_forget, cellsKept_forget⟩

/-- A delta command that ends without an error met no result that does not fit. -/
theorem inRange_of_deltaCommand (hrun : deltaCommand P cmd loop s = .next t) (hok : t.err = false) :
    ∀ k < vs.length, inRange (f vs k) = true := by
  by_contra hnot
  have hex : ∃ k, k < vs.length ∧ inRange (f vs k) = false := by simpa using hnot
  obtain ⟨hk, hbad⟩ := Nat.find_spec hex
  have hleast : ∀ j < Nat.find hex, inRange (f vs j) = true := fun j hj => by
    simpa [hj.trans hk] using Nat.find_min hex hj
  rw [deltaCommand_raises hloop hvs hmax heven hk hbad hleast] at hrun
  cases hrun
  exact absurd hok (by simp)

/-- Two delta commands, the second computing the inverse of the first, give the values back (R113). -/
theorem deltaCommand_roundTrip {cmd' : Word} {loop' : List (Option Word) → Work (List Word)}
    {g : List Word → Nat → Int} (hloop' : LoopComputes loop' g)
    (hinverse : ∀ ws, (∀ k < vs.length, valueAt ws k = f vs k) → ∀ k < vs.length, g ws k = valueAt vs k)
    (herr : s.err = false) (hrun : deltaCommand P cmd loop s = .next t) (hok : t.err = false) :
    ∃ u, deltaCommand P cmd' loop' t = .next u ∧ u.err = false ∧ ValuesAre u vs := by
  have hfit := inRange_of_deltaCommand hloop hvs hmax heven hrun hok
  obtain ⟨ws, hstores, hws, hlen, hval⟩ := deltaCommand_stores (cmd := cmd) hloop hvs hmax heven hfit
  obtain rfl : storeDeltas ws s = t := Host.Outcome.next.inj (hstores.symm.trans hrun)
  have hback := hinverse ws hval
  have hfit' : ∀ k < ws.length, inRange (g ws k) = true := fun k hk => by
    have hk' : k < vs.length := hlen ▸ hk
    rw [hback k hk', valueAt_eq hk']
    exact toInt_inRange _
  obtain ⟨xs, hstores', hxs, hlen', hval'⟩ :=
    deltaCommand_stores (cmd := cmd') hloop' hws (hlen ▸ hmax) (hlen ▸ heven) hfit'
  obtain rfl : xs = vs := eq_of_valueAt (hlen'.trans hlen) fun k hk =>
    (hval' k (hlen.symm ▸ hk)).trans (hback k hk)
  exact ⟨_, hstores', herr, hxs⟩

end

/-! ## The statements -/

/-- Settles O20: `DENC` is the delta command whose loop computes `deltaAt`. -/
theorem dencEffect : Obligations.DencEffect := by
  refine ⟨by decide, fun s herr => ?_⟩
  rw [exec_denc_of_ok herr]
  exact ⟨deltaCommand_badLength, fun vs hvs hmax heven =>
    ⟨deltaCommand_storesCells encodeDeltas_computes hvs hmax heven,
      deltaCommand_spoilsCells encodeDeltas_computes hvs hmax heven⟩⟩

/-- Settles O21: `DDEC` is the delta command whose loop computes `sumAt`. -/
theorem ddecEffect : Obligations.DdecEffect := by
  refine ⟨by decide, fun s herr => ?_⟩
  rw [exec_ddec_of_ok herr]
  exact ⟨deltaCommand_badLength, fun vs hvs hmax heven =>
    ⟨deltaCommand_storesCells decodeDeltas_computes hvs hmax heven,
      deltaCommand_spoilsCells decodeDeltas_computes hvs hmax heven⟩⟩

/-- The values `0, VMIN, 0, 1`: the difference at index 3 is `1 - VMIN`, which is over `VMAX`. -/
def overflowState : State :=
  { State.reset with vlen := 4#32, vbuf := [(0, 0#32), (1, 0x80000000#32), (2, 0#32), (3, 1#32)] }

/-- Settles O22: `sumAt` and `deltaAt` are inverses, PCM samples have small differences (`deltaAt_pcm`), and
`overflowState` raises. -/
theorem deltaRoundTrip : Obligations.DeltaRoundTrip := by
  refine ⟨⟨overflowState, _, rfl, rfl, rfl, rfl⟩, fun s vs herr hvs hmax heven =>
    ⟨fun t hrun hok => ?_, fun t hrun hok => ?_, fun hpcm => ?_⟩⟩
  · rw [exec_denc_of_ok herr] at hrun
    rw [exec_ddec_of_ok hok]
    exact deltaCommand_roundTrip encodeDeltas_computes hvs hmax heven decodeDeltas_computes
      (fun _ => sumAt_of_deltas) herr hrun hok
  · rw [exec_ddec_of_ok herr] at hrun
    rw [exec_denc_of_ok hok]
    exact deltaCommand_roundTrip decodeDeltas_computes hvs hmax heven encodeDeltas_computes
      (fun _ => deltaAt_of_sums) herr hrun hok
  · have hsamples : ∀ v ∈ vs, -32768 ≤ v.toInt ∧ v.toInt ≤ 32767 := by
      rcases hpcm with h16 | h8
      · exact h16
      · exact fun v hv => by have := h8 v hv; omega
    have hfit : ∀ k < vs.length, inRange (deltaAt vs k) = true := fun k hk => by
      have := deltaAt_pcm hsamples hk
      rw [inRange_iff, valueMin, valueMax]
      omega
    rw [exec_denc_of_ok herr]
    obtain ⟨t, hrun, ht, hcells, -⟩ := deltaCommand_storesCells encodeDeltas_computes hvs hmax heven hfit
    refine ⟨t, hrun, by rw [ht]; exact herr, fun k hk => ?_⟩
    obtain ⟨w, hread, hw⟩ := hcells k hk
    exact ⟨w, hread, hw ▸ deltaAt_pcm hsamples hk⟩

/-- Settles O23: a delta command is ignored while an error is recorded, and otherwise has the frame of
`deltaCommand_frame`. -/
theorem deltaFrame : Obligations.DeltaFrame := by
  intro i s t hi h
  cases herr : s.err with
  | true =>
    have ht : t = s := by
      rcases hi with rfl | rfl <;> exact (Host.Outcome.next.inj ((gated_of_err herr _).symm.trans h)).symm
    subst ht
    exact ⟨rfl, fun _ _ => rfl, fun _ => rfl⟩
  | false =>
    rcases hi with rfl | rfl
    · rw [exec_denc_of_ok herr] at h
      exact deltaCommand_frame (encodeDeltas_meets _ _ _ _) h
    · rw [exec_ddec_of_ok herr] at h
      exact deltaCommand_frame (decodeDeltas_meets _ _ _ _) h

end Sys2Proof.Machine

end

/-! # The frequency table (41_frequency_table.md R120 to R122) -/

section

namespace Sys2Proof.Machine

/-! ## Tables -/

/-- In an ascending table `lookup` finds the one entry of the value. -/
theorem lookup_of_ascending {ft : List FtEntry} (h : ft.Pairwise (fun a b => a.value.toInt < b.value.toInt)) {i : Nat}
    {e : FtEntry} (hi : ft[i]? = some e) : lookup ft e.value = some i := by
  obtain ⟨hlt, rfl⟩ := List.getElem?_eq_some_iff.mp hi
  exact lookup_eq_some.mpr ⟨hlt, rfl, fun j hj hv => hj.ne (ascending_index h (by omega) hlt hv)⟩

/-- Entries of different values may be inserted in either order (R122). -/
theorem insertEntry_comm {e e' : FtEntry} (hne : e.value ≠ e'.value) (ft : List FtEntry) :
    insertEntry e' (insertEntry e ft) = insertEntry e (insertEntry e' ft) := by
  have hint : e.value.toInt ≠ e'.value.toInt := fun heq => hne (BitVec.eq_of_toInt_eq heq)
  induction ft with
  | nil => rcases hint.lt_or_gt with hlt | hlt <;> simp [insertEntry, hlt, hlt.not_gt]
  | cons x ft ih =>
    by_cases he : e.value.toInt < x.value.toInt
    · by_cases he' : e'.value.toInt < x.value.toInt
      · rcases hint.lt_or_gt with hlt | hlt <;> simp [insertEntry, he, he', hlt, hlt.not_gt]
      · have hlt : ¬ e'.value.toInt < e.value.toInt := by omega
        simp [insertEntry, he, he', hlt]
    · by_cases he' : e'.value.toInt < x.value.toInt
      · have hlt : ¬ e.value.toInt < e'.value.toInt := by omega
        simp [insertEntry, he, he', hlt]
      · simp [insertEntry, he, he', ih]

/-- The counts sum to the number of values: below `2^32` values no count wraps (R121). -/
theorem TableOf.countSum {us : List Word} {ft : List FtEntry} (h : TableOf us ft) (hus : us.length < 2 ^ 32) :
    countSum ft = us.length := by
  have hcount : ∀ e ∈ ft, e.count.toNat = us.count e.value := fun e he => by
    have hle := List.count_le_length (a := e.value) (l := us)
    rw [((h.entries e).mp he).2, BitVec.toNat_ofNat, Nat.mod_eq_of_lt (by omega)]
  have hvalues : (ft.map FtEntry.value).Perm us.dedup := by
    refine (List.perm_ext_iff_of_nodup (ascending_nodup h.ascending) (List.nodup_dedup us)).mpr fun v => ?_
    rw [List.mem_dedup, ← not_iff_not, ← h.lookup_eq_none, Machine.lookup_eq_none]
    simp
  calc Machine.countSum ft = ((ft.map FtEntry.value).map (us.count ·)).sum := by
        rw [Machine.countSum, List.map_map, List.map_congr_left hcount]; rfl
    _ = (us.dedup.map (us.count ·)).sum := (hvalues.map _).sum_eq
    _ = us.length := List.sum_map_count_dedup_eq_length us

/-! ## The counting loop over written values -/

/-- As long as the distinct values fit, the loop counts every value it meets (R121). -/
theorem countValues_append {maxSyms : Nat} (vs : List Word) (rest : List (Option Word)) (k : Nat) {us : List Word}
    {ft : List FtEntry} (h : TableOf us ft) (hfit : (us ++ vs).dedup.length ≤ maxSyms) :
    ∃ ft', TableOf (us ++ vs) ft' ∧
      countValues maxSyms k ft (vs.map some ++ rest) = countValues maxSyms (k + vs.length) ft' rest := by
  induction vs generalizing k us ft with
  | nil => exact ⟨ft, by simpa using h, rfl⟩
  | cons v vs ih =>
    have hstep : ∃ ft', TableOf (us ++ [v]) ft' ∧ countValues maxSyms k ft (some v :: (vs.map some ++ rest)) =
        countValues maxSyms (k + 1) ft' (vs.map some ++ rest) := by
      cases hl : lookup ft v with
      | some i => exact ⟨_, h.bump hl, by simp only [countValues, hl]⟩
      | none =>
        have hroom : ft.length ≠ maxSyms := by
          have hle : (us ++ [v]).dedup.length ≤ (us ++ v :: vs).dedup.length :=
            (List.subperm_of_subset (List.nodup_dedup _) fun x hx => by
              simp only [List.mem_dedup, List.mem_append, List.mem_cons] at hx ⊢
              tauto).length_le
          have hlen := (h.insert hl).length_eq
          rw [insertEntry_length] at hlen
          omega
        exact ⟨_, h.insert hl, by simp only [countValues, hl, if_neg hroom]⟩
    obtain ⟨ft₁, h₁, hrun₁⟩ := hstep
    obtain ⟨ft', h', hrun'⟩ := ih (k + 1) h₁ (by simpa using hfit)
    refine ⟨ft', by simpa using h', ?_⟩
    rw [List.map_cons, List.cons_append, hrun₁, hrun', List.length_cons, Nat.add_right_comm, Nat.add_assoc]

/-- When the distinct values fit, the loop gives their table. -/
theorem countValues_done {maxSyms : Nat} {vs : List Word} (hfit : vs.dedup.length ≤ maxSyms) :
    ∃ ft, countValues maxSyms 0 [] (vs.map some) = .done ft ∧ TableOf vs ft := by
  obtain ⟨ft, htable, hrun⟩ := countValues_append vs [] 0 tableOf_nil hfit
  exact ⟨ft, by rwa [List.append_nil] at hrun, htable⟩

/-- A new value after `maxSyms` distinct ones does not fit. -/
theorem countValues_raise {maxSyms : Nat} {vs : List Word} {k : Nat} (hk : k < vs.length)
    (hfull : (vs.take k).dedup.length = maxSyms) (hnew : vs[k] ∉ vs.take k) :
    countValues maxSyms 0 [] (vs.map some) = .raise .capacity (BitVec.ofNat 32 k) := by
  obtain ⟨ft, htable, hrun⟩ :=
    countValues_append (vs.take k) ((vs.drop k).map some) 0 tableOf_nil hfull.le
  rw [← List.map_append, List.take_append_drop, List.length_take_of_le hk.le, Nat.zero_add,
    List.drop_eq_getElem_cons hk, List.map_cons] at hrun
  have hlookup : lookup ft vs[k] = none := htable.lookup_eq_none.mpr hnew
  rw [hrun]
  simp only [countValues, hlookup, if_pos (htable.length_eq.trans hfull)]

/-! ## FCNT -/

section

variable {s : State}

theorem exec_fcnt_badLength (herr : s.err = false) (h : Config.hdc1.maxValues < s.vlen.toNat) :
    exec .fcnt s = .next (raiseError .len s.vlen 0x20#32 s) :=
  (gated_of_ok herr _).trans (if_pos h)

/-- Within the capacity, `FCNT` is its loop over the values. -/
theorem exec_fcnt_values {vs : List Word} (herr : s.err = false) (hvs : ValuesAre s vs)
    (hmax : vs.length ≤ Config.hdc1.maxValues) : exec .fcnt s =
      settle 0x20#32 s storeTable (storeTable []) (countValues Config.hdc1.maxSyms 0 [] (vs.map some)) := by
  obtain ⟨hlen, hcells⟩ := hvs
  rw [← cellsFrom_eq_map _ _ hcells, ← hlen]
  exact (gated_of_ok herr _).trans (if_neg (by omega))

end

/-! ## FPUT -/

section

variable {s : State} (herr : s.err = false)

include herr

theorem exec_fput_zeroCount (hcount : s.ftCnt = 0#32) :
    exec .fput s = .next (raiseError .zeroCnt 0#32 0x21#32 s) :=
  (gated_of_ok herr _).trans (if_pos hcount)

variable (hcount : s.ftCnt ≠ 0#32)

include hcount

theorem exec_fput_duplicate {i : Nat} (hi : lookup s.ft s.ftVal = some i) :
    exec .fput s = .next (raiseError .dupSym (BitVec.ofNat 32 i) 0x21#32 s) := by
  refine (gated_of_ok herr _).trans ((if_neg hcount).trans ?_)
  rw [hi]
  rfl

variable (hnew : lookup s.ft s.ftVal = none)

include hnew

theorem exec_fput_full (hfull : s.ft.length = Config.hdc1.maxSyms) :
    exec .fput s = .next (raiseError .capacity (BitVec.ofNat 32 s.ft.length) 0x21#32 s) := by
  refine (gated_of_ok herr _).trans ((if_neg hcount).trans ?_)
  rw [hnew]
  exact if_pos hfull

theorem exec_fput_inserts (hroom : s.ft.length ≠ Config.hdc1.maxSyms) :
    exec .fput s = .next (storeTable (insertEntry ⟨s.ftVal, s.ftCnt⟩ s.ft) s) := by
  refine (gated_of_ok herr _).trans ((if_neg hcount).trans ?_)
  rw [hnew]
  exact if_neg hroom

end

/-- Two `FPUT`s of different new values insert both entries. -/
theorem exec_fput_twice {s : State} {v c v' c' : Word} (herr : s.err = false) (hne : v ≠ v') (hc : c ≠ 0#32)
    (hc' : c' ≠ 0#32) (hnew : ∀ e ∈ s.ft, e.value ≠ v ∧ e.value ≠ v')
    (hroom : s.ft.length + 2 ≤ Config.hdc1.maxSyms) :
    ∃ t t', exec .fput { s with ftVal := v, ftCnt := c } = .next t ∧
      exec .fput { t with ftVal := v', ftCnt := c' } = .next t' ∧
      t'.err = false ∧ t'.ft = insertEntry ⟨v', c'⟩ (insertEntry ⟨v, c⟩ s.ft) := by
  have hnew' : ∀ e ∈ insertEntry ⟨v, c⟩ s.ft, e.value ≠ v' := fun e he => by
    rcases insertEntry_mem.mp he with rfl | he
    · exact hne
    · exact (hnew e he).2
  refine ⟨_, _, exec_fput_inserts herr hc (lookup_eq_none.mpr fun e he => (hnew e he).1) ?_,
    exec_fput_inserts herr hc' (lookup_eq_none.mpr hnew') ?_, herr, rfl⟩
  · show s.ft.length ≠ _
    omega
  · show (insertEntry ⟨v, c⟩ s.ft).length ≠ _
    rw [insertEntry_length]
    omega

/-- `FCNT` and `FPUT` write the table or nothing. -/
theorem Writes.tableOnly {P : Config.Params} {i : Instr} {s u : State} (h : Writes P s i u)
    (hi : i = .fcnt ∨ i = .fput) : u = s ∨ ∃ ft, u = storeTable ft s := by
  cases h with
  | nothing => exact .inl rfl
  | table _ ft => exact .inr ⟨ft, rfl⟩
  | deltas hi' | noDeltas hi' => rcases hi with rfl | rfl <;> simp at hi'
  | _ => simp at hi

/-! ## The statements -/

/-- Settles O24: the loop over the values gives their table (`countValues_done`) or raises at the first value that does not
fit (`countValues_raise`). -/
theorem fcntEffect : Obligations.FcntEffect := by
  refine ⟨by decide, fun s herr => ⟨exec_fcnt_badLength herr, fun vs hvs hmax => ?_⟩⟩
  rw [exec_fcnt_values herr hvs hmax]
  refine ⟨fun hfit => ?_, fun k hk hfull hnew => ?_⟩
  · obtain ⟨ft, hrun, htable⟩ := countValues_done hfit
    have hbelow : vs.length < 2 ^ 32 := hvs.1 ▸ s.vlen.isLt
    rw [hrun]
    exact ⟨storeTable ft s, rfl, rfl, htable.ascending, htable.entries, htable.countSum hbelow⟩
  · rw [List.getD_eq_getElem _ _ hk] at hnew
    rw [countValues_raise hk hfull hnew]
    rfl

/-- Settles O25: one case per pre-check (R122), and the insertion. -/
theorem fputEffect : Obligations.FputEffect := by
  refine ⟨by decide, fun s herr htable => ⟨exec_fput_zeroCount herr, fun i e hcount hi hv => ?_,
    fun hcount habsent => ?_⟩⟩
  · exact exec_fput_duplicate herr hcount (hv ▸ lookup_of_ascending htable.ascending hi)
  · have hnew : lookup s.ft s.ftVal = none := lookup_eq_none.mpr habsent
    refine ⟨exec_fput_full herr hcount hnew, fun hroom => ⟨_, exec_fput_inserts herr hcount hnew hroom, rfl,
      htable.insert hnew hcount hroom, insertEntry_length _ _, fun e => ?_⟩⟩
    have heq : e = ⟨s.ftVal, s.ftCnt⟩ ↔ e.value = s.ftVal ∧ e.count = s.ftCnt := by
      rw [← FtEntry.mk.injEq]
    rw [storeTable_ft, insertEntry_mem, heq, or_comm]

/-- Settles O26: both orders insert the same two entries, which `insertEntry_comm` exchanges. -/
theorem fputOrderDoesNotMatter : Obligations.FputOrderDoesNotMatter := by
  intro s v c v' c' herr _ hne hc hc' hnew hroom
  obtain ⟨t, t', ht, ht', herr', hft⟩ := exec_fput_twice herr hne hc hc' hnew hroom
  obtain ⟨u, u', hu, hu', herr'', hft'⟩ :=
    exec_fput_twice herr hne.symm hc' hc (fun e he => (hnew e he).symm) hroom
  refine ⟨t, t', u, u', ht, ht', hu, hu', herr', herr'', ?_, by rw [hft, insertEntry_length, insertEntry_length]⟩
  rw [hft, hft', insertEntry_comm (e := ⟨v, c⟩) (e' := ⟨v', c'⟩) hne]

/-- Settles O27: the commands write the table or nothing (`Writes.tableOnly`), with or without an error recorded. -/
theorem tableCommandFrame : Obligations.TableCommandFrame := by
  intro i s t hi h
  rw [← execWith_hdc1] at h
  obtain ⟨u, hu, ht⟩ := execWith_writes Config.hdc1 i s t h
  rcases hu.tableOnly hi with rfl | ⟨ft, rfl⟩ <;> rcases ht with rfl | ⟨code, info, c, rfl⟩ <;> rfl

end Sys2Proof.Machine

end

/-! # The code generator's commands (42_tree_and_codes.md R131, R132, R135) -/

section

namespace Sys2Proof.Machine

section

variable {s t : State} (herr : s.err = false)

include herr

/-! ## BTREE -/

theorem exec_btree_empty (hft : s.ft = []) : exec .btree s = .next (raiseError .empty 0#32 0x22#32 s) :=
  (gated_of_ok herr _).trans (if_pos (by rw [nsym_eq, hft]; rfl))

section

variable (hft : s.ft ≠ [])

include hft

/-- A table with an entry passes the first pre-check of R131; the second one is the sum of the counts. -/
theorem exec_btree_nonempty : exec .btree s =
    if 2 ^ 32 ≤ countSum s.ft then .next (raiseError .range 0#32 0x22#32 s) else .next (storeTree (buildTree s.ft) s) :=
  (gated_of_ok herr _).trans (if_neg (by rwa [nsym_eq, List.length_eq_zero_iff]))

theorem exec_btree_range (hsum : 2 ^ 32 ≤ countSum s.ft) :
    exec .btree s = .next (raiseError .range 0#32 0x22#32 s) :=
  (exec_btree_nonempty herr hft).trans (if_pos hsum)

theorem exec_btree_builds (hsum : countSum s.ft < 2 ^ 32) : exec .btree s = .next (storeTree (buildTree s.ft) s) :=
  (exec_btree_nonempty herr hft).trans (if_neg (by omega))

end

/-- `BTREE` that records no error found a table with an entry and a sum below `2^32`, and stored its tree. -/
theorem exec_btree_ok (h : exec .btree s = .next t) (hok : t.err = false) :
    s.ft ≠ [] ∧ countSum s.ft < 2 ^ 32 ∧ t = storeTree (buildTree s.ft) s := by
  by_cases hft : s.ft = []
  · rw [exec_btree_empty herr hft] at h
    cases h
    simp at hok
  · by_cases hsum : 2 ^ 32 ≤ countSum s.ft
    · rw [exec_btree_range herr hft hsum] at h
      cases h
      simp at hok
    · rw [exec_btree_builds herr hft (by omega)] at h
      cases h
      exact ⟨hft, by omega, rfl⟩

/-! ## GCODE -/

theorem exec_gcode_notReady (hvalid : s.treeValid = false) :
    exec .gcode s = .next (raiseError .notReady 0#32 0x23#32 s) :=
  (gated_of_ok herr _).trans (if_pos (by rw [hvalid]; rfl))

theorem exec_gcode_ready (hvalid : s.treeValid = true) : exec .gcode s =
    settle 0x23#32 s storeCodes invalidateCodes
      (generateCodes Config.hdc1.codeMax s.nodes s.root.toNat s.ft.length) :=
  (gated_of_ok herr _).trans (if_neg (by simp [hvalid]))

/-- `GCODE` that records no error stored the codes that it generated. -/
theorem exec_gcode_ok (hvalid : s.treeValid = true) (h : exec .gcode s = .next t) (hok : t.err = false) :
    ∃ ct, generateCodes Config.hdc1.codeMax s.nodes s.root.toNat s.ft.length = .done ct ∧ t = storeCodes ct s := by
  rw [exec_gcode_ready herr hvalid] at h
  rcases settle_next h with hdone | ⟨code, info, -, rfl⟩
  · exact hdone
  · simp at hok

end

/-! ## The paths that `GCODE` gives the leaves -/

section

variable {ft : List FtEntry} {nodes : List Node} {root codeMax : Nat}

/-- The path given to leaf `i` is too long exactly when the leaf lies too deep in the tree; in a one-leaf tree it is not
(R133). -/
theorem PathOf.tooLong_iff (ht : TreeOk ft nodes root) (hmax : 1 ≤ codeMax) {i : Nat} {p : LeafPath}
    (hp : PathOf nodes root ft.length i p) :
    codeMax < p.len ↔ ∃ bs, descend nodes root bs = some i ∧ codeMax < bs.length := by
  obtain ⟨-, hp⟩ := hp
  by_cases h1 : ft.length = 1
  · rw [if_pos h1] at hp
    refine ⟨fun hlong => by omega, fun ⟨bs, hd, hlong⟩ => ?_⟩
    have := ht.path_length hd
    omega
  · rw [if_neg h1] at hp
    obtain ⟨bs, hd, hlen, -⟩ := hp
    refine ⟨fun hlong => ⟨bs, hd, by omega⟩, fun ⟨cs, hd', hlong⟩ => ?_⟩
    rw [hlen, ht.path_unique hd hd']
    exact hlong

/-- When no leaf lies too deep, the codes are those of R37. -/
theorem generateCodes_done (ht : TreeOk ft nodes root)
    (hfit : ∀ i < ft.length, ∀ bs, descend nodes root bs = some i → bs.length ≤ Config.hdc1.codeMax) :
    ∃ ct, generateCodes Config.hdc1.codeMax nodes root ft.length = .done ct ∧ CodesOk ft nodes root ct := by
  obtain ⟨paths, hlen, hpaths, hgen⟩ := generateCodes_ok ht Config.hdc1.codeMax
  have hnone : paths.findIdx? (fun p => decide (Config.hdc1.codeMax < p.len)) = none := by
    refine List.findIdx?_eq_none_iff.mpr fun p hp => ?_
    obtain ⟨i, hi, rfl⟩ := List.mem_iff_getElem.mp hp
    rw [decide_eq_false_iff_not, (hpaths i hi).tooLong_iff ht (by decide)]
    rintro ⟨bs, hd, hlong⟩
    have := hfit i (by omega) bs hd
    omega
  rw [hnone] at hgen
  have hmeets := generateCodes_meets (P := Config.hdc1) (by decide) ht
  rw [hgen] at hmeets
  exact ⟨_, hgen, hmeets⟩

/-- The least leaf that lies too deep raises. -/
theorem generateCodes_raise (ht : TreeOk ft nodes root) (hmax : 1 ≤ codeMax) {i : Nat} (hi : i < ft.length)
    (hdeep : ∃ bs, descend nodes root bs = some i ∧ codeMax < bs.length)
    (hleast : ∀ j < i, ∀ bs, descend nodes root bs = some j → bs.length ≤ codeMax) :
    generateCodes codeMax nodes root ft.length = .raise .capacity (BitVec.ofNat 32 i) := by
  obtain ⟨paths, hlen, hpaths, hgen⟩ := generateCodes_ok ht codeMax
  have hi' : i < paths.length := by omega
  have hsome : paths.findIdx? (fun p => decide (codeMax < p.len)) = some i := by
    refine List.findIdx?_eq_some_iff_getElem.mpr ⟨hi', ?_, fun j hj => ?_⟩
    · rw [decide_eq_true_iff, (hpaths i hi').tooLong_iff ht hmax]
      exact hdeep
    · rw [decide_eq_true_iff, (hpaths j (by omega)).tooLong_iff ht hmax]
      rintro ⟨bs, hd, hlong⟩
      have := hleast j hj bs hd
      omega
  rw [hgen, hsome]

end

/-! ## The statements -/

/-- Settles O29: the pre-checks in their order, and the tree that `buildTree_ok` gives. -/
theorem btreeEffect : Obligations.BtreeEffect := by
  refine fun s herr => ⟨exec_btree_empty herr, exec_btree_range herr, fun hft hsum hlen => ?_⟩
  obtain ⟨htree, hmerged⟩ := buildTree_ok hft hsum (hlen.trans (by decide))
  exact ⟨_, exec_btree_builds herr hft hsum, rfl, htree, fun k hleaves hk => hmerged k hk hleaves⟩

/-- Settles O30: `BTREE` stores `buildTree` of the table, and `GCODE` stores `generateCodes` of the tree. -/
theorem equalTablesGiveEqualTrees : Obligations.EqualTablesGiveEqualTrees := by
  refine ⟨fun s u t herr herru hft h hok => ?_, fun s u t herr herru hvalid hvalidu hft hnodes hroot h hok => ?_⟩
  · obtain ⟨hne, hsum, rfl⟩ := exec_btree_ok herr h hok
    rw [hft] at hne hsum ⊢
    exact ⟨_, exec_btree_builds herru hne hsum, herru, rfl, rfl, hft.symm⟩
  · obtain ⟨ct, hgen, rfl⟩ := exec_gcode_ok herr hvalid h hok
    rw [hft, hnodes, hroot] at hgen
    refine ⟨storeCodes ct u, ?_, herru, rfl⟩
    rw [exec_gcode_ready herru hvalidu, hgen]
    rfl

/-- Settles O31: a leaf's path is too long exactly when the leaf lies too deep (`PathOf.tooLong_iff`). -/
theorem gcodeEffect : Obligations.GcodeEffect := by
  refine fun s herr => ⟨exec_gcode_notReady herr, fun hvalid htree _ => ?_⟩
  rw [exec_gcode_ready herr hvalid]
  refine ⟨fun hfit => ?_, fun i hi hdeep hleast => ?_⟩
  · obtain ⟨ct, hgen, hcodes⟩ := generateCodes_done htree hfit
    rw [hgen]
    exact ⟨storeCodes ct s, rfl, rfl, hcodes⟩
  · rw [generateCodes_raise htree (by decide) hi hdeep hleast]
    rfl

/-- `BTREE` writes the tree or nothing. -/
theorem Writes.treeOnly {P : Config.Params} {s u : State} (h : Writes P s .btree u) :
    u = s ∨ ∃ t, u = storeTree t s := by
  cases h with
  | nothing => exact .inl rfl
  | tree t => exact .inr ⟨t, rfl⟩
  | deltas hi | noDeltas hi | table hi => simp at hi

/-- `GCODE` writes the codes or nothing. -/
theorem Writes.codesOnly {P : Config.Params} {s u : State} (h : Writes P s .gcode u) :
    u = s ∨ u = invalidateCodes s ∨ ∃ ct, u = storeCodes ct s := by
  cases h with
  | nothing => exact .inl rfl
  | noCodes => exact .inr (.inl rfl)
  | codes ct => exact .inr (.inr ⟨ct, rfl⟩)
  | deltas hi | noDeltas hi | table hi => simp at hi

/-- Settles O36: the commands write the tree, the codes or nothing (`Writes.treeOnly`, `Writes.codesOnly`), with or without
an error recorded. -/
theorem codeGeneratorFrame : Obligations.CodeGeneratorFrame := by
  refine ⟨fun s t h => ?_, fun s t h => ?_⟩
  · rw [← execWith_hdc1] at h
    obtain ⟨u, hu, ht⟩ := execWith_writes Config.hdc1 .btree s t h
    rcases hu.treeOnly with rfl | ⟨t', rfl⟩ <;> rcases ht with rfl | ⟨code, info, c, rfl⟩ <;> rfl
  · rw [← execWith_hdc1] at h
    obtain ⟨u, hu, ht⟩ := execWith_writes Config.hdc1 .gcode s t h
    rcases hu.codesOnly with rfl | rfl | ⟨ct, rfl⟩ <;> rcases ht with rfl | ⟨code, info, c, rfl⟩ <;> rfl

end Sys2Proof.Machine

end

/-! # The codes of a Huffman tree (42_tree_and_codes.md R136)

Sums over the leaves of a tree are folded along its internal nodes: the nodes that are live when node `k` is created lose the
two children of `k` and gain `k`, from the leaves at the start to the root alone at the end (`TreeOk.sum_leaves`). -/

section

namespace Sys2Proof.Machine

open Finset

/-- `depth k` is the number of bits that lead from the root to node `k`. -/
def IsDepth (nodes : List Node) (root : Nat) (depth : Nat → Nat) : Prop :=
  ∀ bs k, descend nodes root bs = some k → depth k = bs.length

/-! ## Live nodes -/

/-- The nodes that are live when node `k` is about to be created. -/
def liveSet (nodes : List Node) (k : Nat) : Finset Nat := (range k).filter (fun j => isLive nodes k j = true)

theorem mem_liveSet {nodes : List Node} {k j : Nat} :
    j ∈ liveSet nodes k ↔ j < k ∧ j ∉ childrenOf (nodes.take k) := by
  rw [liveSet, mem_filter, mem_range, isLive_iff, and_iff_right_of_imp And.left]

/-- The children of the nodes before node `k`. -/
theorem mem_childrenOf_take {nodes : List Node} {k j : Nat} : j ∈ childrenOf (nodes.take k) ↔
    ∃ (q : Nat) (f : Word) (l r : Nat), q < k ∧ nodes[q]? = some (.internal f l r) ∧ (j = l ∨ j = r) := by
  rw [mem_childrenOf]
  simp only [List.getElem?_take, Option.ite_none_right_eq_some, and_assoc]

/-- The nodes live at `k` but for `l` and `r`. -/
def liveRest (nodes : List Node) (k l r : Nat) : Finset Nat := ((liveSet nodes k).erase l).erase r

section

variable {ft : List FtEntry} {nodes : List Node} {root : Nat} (h : TreeOk ft nodes root)

include h

/-- Before the first merge the live nodes are the leaves. -/
theorem TreeOk.liveSet_leaves : liveSet nodes ft.length = range ft.length := by
  ext j
  rw [mem_liveSet, mem_range, and_iff_left_iff_imp]
  intro _ hchild
  obtain ⟨q, f, l, r, hlt, hq, -⟩ := mem_childrenOf_take.mp hchild
  have := (h.internal_ge hq).1
  omega

/-- After the last merge the root alone is live. -/
theorem TreeOk.liveSet_root : liveSet nodes nodes.length = {root} := by
  have hpos := h.nonempty
  have hcount := h.count
  have hroot := h.rootLast
  ext j
  rw [mem_liveSet, List.take_length, mem_singleton]
  constructor
  · rintro ⟨hj, hno⟩
    by_contra hne
    have := h.oneParent j (by omega)
    exact hno (List.count_pos_iff.mp (by omega))
  · rintro rfl
    refine ⟨by omega, fun hchild => ?_⟩
    obtain ⟨q, f, l, r, hq, hj⟩ := mem_childrenOf.mp hchild
    have := h.child_lt hq
    have := h.internal_ge hq
    omega

section

variable {k l r : Nat} {f : Word} (hk : nodes[k]? = some (.internal f l r))

include hk

/-- The children of a node are live when it is created: they have no other parent. -/
theorem TreeOk.children_live : l ∈ liveSet nodes k ∧ r ∈ liveSet nodes k := by
  have hkn := h.internal_ge hk
  have hroot := h.rootLast
  have hcount := h.count
  have live : ∀ j, j < k → (j = l ∨ j = r) → j ∈ liveSet nodes k := fun j hj hchild => by
    refine mem_liveSet.mpr ⟨hj, fun hmem => ?_⟩
    obtain ⟨q, f', l', r', hlt, hq, hj'⟩ := mem_childrenOf_take.mp hmem
    exact hlt.ne (parent_unique (h.oneParent j (by omega)).le hq hj' hk hchild)
  obtain ⟨hl, hr, -⟩ := h.child_lt hk
  exact ⟨live l hl (.inl rfl), live r hr (.inr rfl)⟩

/-- A merge replaces the two children by their parent. -/
theorem TreeOk.liveSet_succ : liveSet nodes (k + 1) = insert k (liveRest nodes k l r) := by
  have hchildren : childrenOf (nodes.take (k + 1)) = childrenOf (nodes.take k) ++ [l, r] := by
    rw [List.take_add_one, hk, Option.toList_some, childrenOf_append]
  have hlt := h.child_lt hk
  have hself : k ∉ childrenOf (nodes.take k) := fun hmem => by
    obtain ⟨q, f', l', r', hqk, hq, hj⟩ := mem_childrenOf_take.mp hmem
    have := h.child_lt hq
    omega
  ext j
  simp only [mem_liveSet, liveRest, mem_insert, mem_erase, hchildren, List.mem_append, List.mem_cons,
    List.not_mem_nil, or_false, not_or]
  by_cases hj : j = k
  · subst hj
    simp only [hself, not_false_eq_true, true_or, iff_true, true_and]
    omega
  · have : j < k + 1 ↔ j < k := by omega
    rw [this]
    tauto

section

variable {M : Type} [AddCommMonoid M] (g : Nat → M)

/-- A sum over the live nodes, the two children of `k` taken out. -/
theorem TreeOk.sum_liveSet : ∑ j ∈ liveSet nodes k, g j = g l + g r + ∑ j ∈ liveRest nodes k l r, g j := by
  obtain ⟨hl, hr⟩ := h.children_live hk
  obtain ⟨-, -, hne⟩ := h.child_lt hk
  rw [← add_sum_erase _ g hl, ← add_sum_erase _ g (mem_erase.mpr ⟨hne.symm, hr⟩), liveRest, add_assoc]

/-- A sum over the live nodes after the merge, the new node taken out. -/
theorem TreeOk.sum_liveSet_succ : ∑ j ∈ liveSet nodes (k + 1), g j = g k + ∑ j ∈ liveRest nodes k l r, g j := by
  have hnew : k ∉ liveRest nodes k l r := fun hmem =>
    (mem_liveSet.mp (mem_of_mem_erase (mem_of_mem_erase hmem))).1.false
  rw [h.liveSet_succ hk, sum_insert hnew]

end

end

/-- When the sum over the two children of a node is the node's own plus an increment, the sum over the leaves is the root's
own plus all the increments. -/
theorem TreeOk.sum_leaves {M : Type} [AddCommMonoid M] {g c : Nat → M}
    (hstep : ∀ k l r f, nodes[k]? = some (.internal f l r) → g l + g r = g k + c k) :
    ∑ i ∈ range ft.length, g i = g root + ∑ k ∈ Ico ft.length nodes.length, c k := by
  have merged : ∀ m, ft.length ≤ m → m ≤ nodes.length →
      ∑ i ∈ range ft.length, g i = ∑ j ∈ liveSet nodes m, g j + ∑ k ∈ Ico ft.length m, c k := by
    intro m hm
    induction m, hm using Nat.le_induction with
    | base => intro _; rw [h.liveSet_leaves, Ico_self, sum_empty, add_zero]
    | succ m hm ih =>
      intro hlt
      obtain ⟨f, l, r, hnode, -⟩ := h.innerAt hm hlt
      rw [ih (by omega), h.sum_liveSet hnode g, h.sum_liveSet_succ hnode g, hstep m l r f hnode,
        sum_Ico_succ_top hm]
      abel
  rw [merged nodes.length h.nLe le_rfl, h.liveSet_root, sum_singleton]

/-! ## Depths -/

/-- Every node up to the root has a depth: the length of the one path to it. -/
theorem TreeOk.exists_depth : ∃ depth, IsDepth nodes root depth := by
  choose! path hpath using h.reach
  refine ⟨fun k => (path k).length, fun bs k hd => ?_⟩
  have hk : k ≤ root := by have := h.descend_le hd; omega
  exact congrArg List.length (h.path_unique (hpath k hk) hd)

/-- The children of a node lie one level below it. -/
theorem TreeOk.depth_child {depth : Nat → Nat} (hdepth : IsDepth nodes root depth)
    {k l r : Nat} {f : Word} (hk : nodes[k]? = some (.internal f l r)) :
    depth k < root ∧ depth l = depth k + 1 ∧ depth r = depth k + 1 := by
  have hkn := h.internal_ge hk
  have hlt := h.child_lt hk
  have hroot := h.rootLast
  have hcount := h.count
  obtain ⟨bs, hbs⟩ := h.reach k (by omega)
  have hle := h.descend_le hbs
  have child : ∀ b, descend nodes root (bs ++ [b]) = some (if b then r else l) := fun b => by
    rw [descend_append, hbs, Option.bind_some, descend_cons_internal hk]
    rfl
  rw [hdepth bs k hbs, hdepth _ l (child false), hdepth _ r (child true)]
  exact ⟨by omega, by simp, by simp⟩

/-- At depth `d` a node counts `2^(-d)`, here scaled by `2^(root + m)`: as much as its two children together. -/
theorem TreeOk.sum_pow_depth {depth : Nat → Nat} (hdepth : IsDepth nodes root depth) (m : Nat) :
    ∑ i ∈ range ft.length, 2 ^ (root + m - depth i) = 2 ^ (root + m) := by
  rw [h.sum_leaves (g := fun j => 2 ^ (root + m - depth j)) (c := fun _ => 0), hdepth [] root rfl, sum_const_zero]
  · rfl
  · intro k l r f hk
    obtain ⟨hlt, hl, hr⟩ := h.depth_child hdepth hk
    obtain ⟨d, hd⟩ : ∃ d, root + m - depth k = d + 1 := ⟨root + m - depth k - 1, by omega⟩
    simp only [hl, hr, hd, show root + m - (depth k + 1) = d by omega]
    ring

end

/-! ## The codes are the paths -/

section

variable {ft : List FtEntry} {nodes : List Node} {root : Nat} {ct : List Code}

theorem CodesOk.codeOk (hc : CodesOk ft nodes root ct) {i : Nat} {c : Code} (hi : ct[i]? = some c) :
    codeOk Config.hdc1 nodes root ft.length i c = true := by
  have := hc.codes i (List.getElem?_eq_some_iff.mp hi).1
  rwa [hi, Option.map_some, Option.some.injEq] at this

/-- With two or more symbols the bits of a codeword are the path to its leaf (R37). -/
theorem CodesOk.path (hc : CodesOk ft nodes root ct) (h2 : 2 ≤ ft.length) {i : Nat} {c : Code} (hi : ct[i]? = some c) :
    descend nodes root (codeBits c) = some i := by
  have hok := hc.codeOk hi
  rw [Machine.codeOk, if_neg (by omega), Bool.and_eq_true, beq_iff_eq] at hok
  exact hok.2

/-- The code of a one-leaf tree has one bit (R133). -/
theorem CodesOk.len_eq_one (hc : CodesOk ft nodes root ct) (h1 : ft.length = 1) {i : Nat} {c : Code}
    (hi : ct[i]? = some c) : c.len = 1 := by
  have hok := hc.codeOk hi
  simp only [Machine.codeOk, if_pos h1, Bool.and_eq_true, beq_iff_eq] at hok
  exact hok.2.1

/-- A codeword is as long as its leaf is deep. -/
theorem CodesOk.len_eq_depth (hc : CodesOk ft nodes root ct) (h2 : 2 ≤ ft.length) {depth : Nat → Nat}
    (hdepth : IsDepth nodes root depth) {i : Nat} {c : Code} (hi : ct[i]? = some c) :
    c.len = depth i := by
  rw [hdepth _ i (hc.path h2 hi), codeBits_length]

end

/-- A sum over a list, by index. -/
theorem sum_map_eq_sum_range {α M : Type} [AddCommMonoid M] (xs : List α) (f : α → M) {g : Nat → M}
    (hg : ∀ i x, xs[i]? = some x → f x = g i) : (xs.map f).sum = ∑ i ∈ range xs.length, g i := by
  rw [← Fin.sum_univ_fun_getElem, sum_range]
  exact sum_congr rfl fun i _ => hg i _ (List.getElem?_eq_getElem i.isLt)

/-- The cost of a code, one codeword per table entry, by leaf. -/
theorem TreeOk.sum_cost {ft : List FtEntry} {nodes : List Node} {root : Nat} (h : TreeOk ft nodes root) {α : Type}
    {words : List α} (hlen : words.length = ft.length) (size : α → Nat) {len : Nat → Nat}
    (hsize : ∀ i w, words[i]? = some w → size w = len i) :
    ((ft.zip words).map (fun p => p.1.count.toNat * size p.2)).sum = ∑ i ∈ range ft.length, freqAt nodes i * len i := by
  rw [sum_map_eq_sum_range (g := fun i => freqAt nodes i * len i), List.length_zip, hlen, min_self]
  rintro i ⟨e, w⟩ hi
  obtain ⟨he, hw⟩ := List.getElem?_zip_eq_some.mp hi
  have hnode : nodes[i]? = some (.leaf e.count e.value) := by
    rw [h.leaves i (List.getElem?_eq_some_iff.mp he).1, he, Option.map_some]
  rw [hsize i w hw, freqAt, hnode]
  rfl

/-- The frequency of an internal node is the sum of its children's. -/
theorem TreeOk.freqAt_internal {ft : List FtEntry} {nodes : List Node} {root : Nat} (h : TreeOk ft nodes root)
    {k l r : Nat} {f : Word} (hk : nodes[k]? = some (.internal f l r)) :
    freqAt nodes k = freqAt nodes l + freqAt nodes r := by
  obtain ⟨hn, hlt⟩ := h.internal_ge hk
  obtain ⟨f', l', r', hk', -, -, -, hf⟩ := h.innerAt hn hlt
  obtain ⟨rfl, rfl, rfl⟩ : f = f' ∧ l = l' ∧ r = r' := by simpa [hk] using hk'
  rw [← hf, freqAt, hk]
  rfl

/-- The cost of the codes is the sum of the frequencies of the internal nodes (R136 (c)): one level further down, the two
children of a node cost its frequency more than the node. -/
theorem CodesOk.cost {ft : List FtEntry} {nodes : List Node} {root : Nat} {ct : List Code} (h : TreeOk ft nodes root)
    (hc : CodesOk ft nodes root ct) (h2 : 2 ≤ ft.length) :
    ((ft.zip ct).map (fun p => p.1.count.toNat * p.2.len)).sum =
      ∑ k ∈ Ico ft.length nodes.length, freqAt nodes k := by
  obtain ⟨depth, hdepth⟩ := h.exists_depth
  rw [h.sum_cost hc.count Code.len fun i c hi => hc.len_eq_depth h2 hdepth hi,
    h.sum_leaves (g := fun j => freqAt nodes j * depth j) (c := freqAt nodes), hdepth [] root rfl, List.length_nil,
    Nat.mul_zero, Nat.zero_add]
  intro k l r f hk
  obtain ⟨-, hl, hr⟩ := h.depth_child hdepth hk
  simp only [hl, hr, h.freqAt_internal hk]
  ring

/-- Settles O32: from a leaf no bit leads on, so a codeword that begins another one's bits leads to the same leaf. -/
theorem codesArePrefixFree : Obligations.CodesArePrefixFree := by
  rintro ft nodes root ct h hc h2 i j c d hi hj hne ⟨rest, hrest⟩
  have hpath := hc.path h2 hj
  rw [← hrest, descend_append, hc.path h2 hi, Option.bind_some] at hpath
  have hlt : i < ft.length := hc.count ▸ (List.getElem?_eq_some_iff.mp hi).1
  exact hne (descend_leaf (h.leafAt hlt) hpath).2.symm

/-- Settles O33: the sum of `2^(-len)` is `TreeOk.sum_pow_depth`, and an internal node has two earlier children (R36). -/
theorem codesAreComplete : Obligations.CodesAreComplete := by
  intro ft nodes root ct h hc h2
  refine ⟨?_, fun k hleaves hk b => ?_⟩
  · obtain ⟨depth, hdepth⟩ := h.exists_depth
    have hscale : 2 ^ root * (ct.map (fun c => 2 ^ (32 - c.len))).sum = 2 ^ root * 2 ^ 32 := by
      rw [← pow_add, ← h.sum_pow_depth hdepth 32, ← hc.count, ← List.sum_map_mul_left]
      refine sum_map_eq_sum_range ct _ fun i c hi => ?_
      have hlen : c.len ≤ 32 := hc.len_le (List.mem_of_getElem? hi)
      rw [← pow_add, ← hc.len_eq_depth h2 hdepth hi, Nat.add_sub_assoc hlen root]
    exact Nat.eq_of_mul_eq_mul_left (by positivity) hscale
  · obtain ⟨f, l, r, hnode, hl, hr, -⟩ := h.innerAt hleaves hk
    refine ⟨if b then r else l, descend_cons_internal hnode b [], ?_⟩
    split
    · exact hr
    · exact hl

/-- Settles O34: `CodesOk.cost`, and the one bit of the one-leaf tree's code (`CodesOk.len_eq_one`). -/
theorem codeCostIsInternalFrequency : Obligations.CodeCostIsInternalFrequency := by
  intro ft nodes root ct h hc
  refine ⟨fun h2 => ?_, ?_⟩
  · rw [hc.cost h h2, sum_Ico_eq_sum_range, ← List.length_drop]
    refine (sum_map_eq_sum_range _ _ fun i x hi => ?_).symm
    rw [List.getElem?_drop] at hi
    rw [freqAt, hi]
    rfl
  · rintro e rfl
    obtain ⟨c, rfl⟩ := List.length_eq_one_iff.mp hc.count
    simp [hc.len_eq_one (i := 0) rfl rfl]

end Sys2Proof.Machine

end

/-! # The code of a Huffman tree is optimal (42_tree_and_codes.md R136 (c))

Words none of which begins another have lengths that meet the Kraft inequality (Mathlib's Kraft-McMillan theorem). Such
lengths can be moved through the merges of the tree from the leaves to the root: at each merge the two least live nodes take
the two longest lengths, which costs no more, and their parent takes one bit less than the shorter of the two, which loses
its frequency and still meets the inequality. -/

section

namespace Sys2Proof.Machine

open Finset

/-! ## The Kraft inequality -/

/-- Words that are not empty and none of which begins another form a uniquely decodable code. -/
theorem uniquelyDecodable_of_prefixFree {words : List (List Bool)}
    (hprefix : ∀ u ∈ words, ∀ v ∈ words, u <+: v → u = v) (hempty : [] ∉ words) :
    InformationTheory.UniquelyDecodable {w | w ∈ words} := by
  have nil_of_flatten : ∀ us : List (List Bool), (∀ u ∈ us, u ∈ words) → us.flatten = [] → us = []
    | [], _, _ => rfl
    | u :: us, hus, hflat => by
      rw [List.flatten_cons, List.append_eq_nil_iff] at hflat
      exact absurd (hflat.1 ▸ hus u List.mem_cons_self) hempty
  intro us vs hus hvs hflat
  induction us generalizing vs with
  | nil => exact (nil_of_flatten vs hvs hflat.symm).symm
  | cons u us ih =>
    cases vs with
    | nil => exact nil_of_flatten _ hus hflat
    | cons v vs =>
      rw [List.forall_mem_cons] at hus hvs
      rw [List.flatten_cons, List.flatten_cons] at hflat
      have heq : u = v :=
        (List.prefix_or_prefix_of_prefix (List.prefix_append u us.flatten) ⟨_, hflat.symm⟩).elim
          (hprefix u hus.1 v hvs.1) fun hpre => (hprefix v hvs.1 u hus.1 hpre).symm
      subst heq
      rw [ih vs hus.2 hvs.2 (List.append_cancel_left hflat)]

/-- The lengths of the nodes in `S` meet the Kraft inequality. -/
def MeetsKraft (S : Finset Nat) (len : Nat → Nat) : Prop := ∑ j ∈ S, (1 / 2 : ℝ) ^ len j ≤ 1

/-- The lengths of two or more words none of which begins another meet the Kraft inequality. -/
theorem meetsKraft_of_prefixFree {words : List (List Bool)} (h2 : 2 ≤ words.length)
    (hprefix : words.Pairwise (fun a b => ¬ a <+: b ∧ ¬ b <+: a)) :
    MeetsKraft (range words.length) (fun i => (words.getD i []).length) := by
  have hsymm : Std.Symm (fun a b : List Bool => ¬ a <+: b ∧ ¬ b <+: a) := ⟨fun _ _ hab => hab.symm⟩
  have hall : ∀ u ∈ words, ∀ v ∈ words, u ≠ v → ¬ u <+: v ∧ ¬ v <+: u :=
    fun _ hu _ hv hne => hprefix.forall hu hv hne
  have hnodup : words.Nodup := hprefix.imp <| by
    rintro a b ⟨hab, -⟩ rfl
    exact hab List.prefix_rfl
  have hempty : [] ∉ words := fun hmem => by
    obtain ⟨v, hv, hne⟩ := exists_mem_ne (s := words.toFinset)
      (by rw [List.toFinset_card_of_nodup hnodup]; exact h2) []
    exact (hall [] hmem v (List.mem_toFinset.mp hv) hne.symm).1 List.nil_prefix
  have hdec : InformationTheory.UniquelyDecodable ((words.toFinset : Finset (List Bool)) : Set (List Bool)) := by
    rw [List.coe_toFinset]
    exact uniquelyDecodable_of_prefixFree
      (fun u hu v hv hpre => by_contra fun hne => (hall u hu v hv hne).1 hpre) hempty
  have hkraft := InformationTheory.kraft_mcmillan_inequality hdec
  rw [List.sum_toFinset _ hnodup, Fintype.card_bool, Nat.cast_ofNat] at hkraft
  refine le_of_eq_of_le (sum_map_eq_sum_range words _ fun i w hi => ?_).symm hkraft
  simp only [List.getD_eq_getElem?_getD, hi, Option.getD_some]

/-! ## Moving lengths through a merge -/

/-- A permutation that moves only members of `S` takes members of `S` to members of `S`. -/
theorem perm_mem {S : Finset Nat} {σ : Equiv.Perm Nat} (hσ : {j | σ j ≠ j} ⊆ (S : Set Nat)) {j : Nat} (hj : j ∈ S) :
    σ j ∈ S := (map_perm hσ).subset (mem_map_of_mem σ.toEmbedding hj)

/-- The node of least weight can be given the longest length by an exchange, at no more cost. -/
theorem exists_perm_longest {S : Finset Nat} {w : Nat → Nat} {a : Nat} (ha : a ∈ S) (hleast : ∀ j ∈ S, w a ≤ w j)
    (len : Nat → Nat) : ∃ σ : Equiv.Perm Nat, {j | σ j ≠ j} ⊆ (S : Set Nat) ∧ (∀ j ∈ S, len j ≤ len (σ a)) ∧
      ∑ j ∈ S, w j * len (σ j) ≤ ∑ j ∈ S, w j * len j := by
  obtain ⟨x, hx, hmax⟩ := exists_max_image S len ⟨a, ha⟩
  have hmoved : ∀ j, Equiv.swap a x j ≠ j → j = a ∨ j = x := fun j hj => by
    by_contra hne
    rw [not_or] at hne
    exact hj (Equiv.swap_apply_of_ne_of_ne hne.1 hne.2)
  refine ⟨Equiv.swap a x, fun j hj => ?_, by rwa [Equiv.swap_apply_left], ?_⟩
  · rcases hmoved j hj with rfl | rfl
    · exact ha
    · exact hx
  · by_cases hax : a = x
    · simp [hax]
    · have hx' : x ∈ S.erase a := mem_erase.mpr ⟨Ne.symm hax, hx⟩
      have hrest : ∑ j ∈ (S.erase a).erase x, w j * len (Equiv.swap a x j) =
          ∑ j ∈ (S.erase a).erase x, w j * len j := sum_congr rfl fun j hj => by
        simp only [mem_erase] at hj
        rw [Equiv.swap_apply_of_ne_of_ne hj.2.1 hj.1]
      rw [← add_sum_erase S _ ha, ← add_sum_erase S (fun j => w j * len j) ha, ← add_sum_erase _ _ hx',
        ← add_sum_erase _ (fun j => w j * len j) hx', hrest, Equiv.swap_apply_left, Equiv.swap_apply_right]
      have hexchange := mul_add_mul_le_mul_add_mul (hleast x hx) (hmax a ha)
      linarith

/-- When every length in `R` is at most `m`, two more lengths, `m` and any `p`, leave room for one of `m - 1`: the sum is a
whole number of `2^(-m)`. -/
theorem kraft_merge {R : Finset Nat} {len : Nat → Nat} {m p : Nat} (hle : ∀ j ∈ R, len j ≤ m)
    (hkraft : (1 / 2 : ℝ) ^ p + ((1 / 2) ^ m + ∑ j ∈ R, (1 / 2) ^ len j) ≤ 1) :
    ∃ m', m = m' + 1 ∧ (1 / 2 : ℝ) ^ m' + ∑ j ∈ R, (1 / 2) ^ len j ≤ 1 := by
  have hscale : ∑ j ∈ R, (1 / 2 : ℝ) ^ len j = (1 / 2) ^ m * (∑ j ∈ R, 2 ^ (m - len j) : Nat) := by
    rw [Nat.cast_sum, mul_sum]
    refine sum_congr rfl fun j hj => ?_
    rw [← Nat.sub_add_cancel (hle j hj), Nat.add_sub_cancel, pow_add, mul_right_comm, Nat.cast_pow, ← mul_pow]
    norm_num
  rw [hscale] at hkraft ⊢
  generalize ∑ j ∈ R, 2 ^ (m - len j) = N at hkraft ⊢
  have hunit : (1 / 2 : ℝ) ^ m * 2 ^ m = 1 := by rw [← mul_pow]; norm_num
  have hpos : (0 : ℝ) < (1 / 2) ^ p := by positivity
  have hroom : N + 1 < 2 ^ m := by
    have hreal : (N : ℝ) + 1 < 2 ^ m := by
      refine lt_of_mul_lt_mul_left (a := (1 / 2 : ℝ) ^ m) ?_ (by positivity)
      rw [hunit]
      linarith
    exact_mod_cast hreal
  cases m with
  | zero => simp at hroom
  | succ m =>
    refine ⟨m, rfl, ?_⟩
    have hreal : (N : ℝ) + 2 ≤ 2 ^ (m + 1) := by exact_mod_cast hroom
    calc (1 / 2 : ℝ) ^ m + (1 / 2) ^ (m + 1) * N = (1 / 2) ^ (m + 1) * (N + 2) := by ring
      _ ≤ (1 / 2) ^ (m + 1) * 2 ^ (m + 1) := by gcongr
      _ = 1 := hunit

section

variable {S : Finset Nat} {w : Nat → Nat} {a b : Nat} (ha : a ∈ S) (hb : b ∈ S.erase a) (hleast : ∀ j ∈ S, w a ≤ w j)
  (hnext : ∀ j ∈ S.erase a, w b ≤ w j) {len : Nat → Nat} (hkraft : MeetsKraft S len)

include ha hb hleast hnext hkraft

/-- The two nodes of least weight can be given the two longest lengths, at no more cost. -/
theorem exists_lengths_longest : ∃ len' : Nat → Nat, MeetsKraft S len' ∧ len' b ≤ len' a ∧
    (∀ j ∈ S.erase a, len' j ≤ len' b) ∧ ∑ j ∈ S, w j * len' j ≤ ∑ j ∈ S, w j * len j := by
  obtain ⟨σ, hσ, hmax, hcost⟩ := exists_perm_longest ha hleast len
  obtain ⟨τ, hτ, hmaxτ, hcostτ⟩ := exists_perm_longest hb hnext (fun j => len (σ j))
  have hfix : τ a = a := by_contra fun hne => notMem_erase a S (hτ hne)
  have hτS : {j | τ j ≠ j} ⊆ (S : Set Nat) := fun j hj => mem_of_mem_erase (hτ hj)
  refine ⟨fun j => len (σ (τ j)), ?_, ?_, fun j hj => hmaxτ _ (perm_mem hτ hj), ?_⟩
  · rw [MeetsKraft, Equiv.Perm.sum_comp τ S (fun j => (1 / 2 : ℝ) ^ len (σ j)) hτS,
      Equiv.Perm.sum_comp σ S (fun j => (1 / 2 : ℝ) ^ len j) hσ]
    exact hkraft
  · simp only [hfix]
    exact hmax _ (perm_mem hσ (perm_mem hτS (mem_of_mem_erase hb)))
  · refine le_trans ?_ hcost
    rw [← add_sum_erase S _ ha, ← add_sum_erase S (fun j => w j * len (σ j)) ha]
    simp only [hfix]
    exact Nat.add_le_add_left hcostτ _

/-- A merge of the two nodes of least weight: lengths for the other nodes and a length `m` for the parent that meet the
inequality and cost at least the parent's weight less. -/
theorem exists_lengths_merged : ∃ (len' : Nat → Nat) (m : Nat),
    (1 / 2 : ℝ) ^ m + ∑ j ∈ (S.erase a).erase b, (1 / 2) ^ len' j ≤ 1 ∧
    (w a + w b) * (m + 1) + ∑ j ∈ (S.erase a).erase b, w j * len' j ≤ ∑ j ∈ S, w j * len j := by
  obtain ⟨len', hkraft', hba, hmax, hcost⟩ := exists_lengths_longest ha hb hleast hnext hkraft
  rw [MeetsKraft, ← add_sum_erase S _ ha, ← add_sum_erase _ _ hb] at hkraft'
  obtain ⟨m, hm, hmerged⟩ := kraft_merge (fun j hj => hmax j (mem_of_mem_erase hj)) hkraft'
  refine ⟨len', m, hmerged, le_trans ?_ hcost⟩
  rw [← add_sum_erase S _ ha, ← add_sum_erase _ _ hb, hm, Nat.add_mul, Nat.add_assoc]
  gcongr
  omega

end

/-! ## The Huffman tree -/

/-- The children of a node that merges the two live nodes of least key are of least weight (R132). -/
theorem MergedLeast.freq_le {nodes : List Node} {k l r : Nat} {f : Word} (hmerged : MergedLeast nodes k)
    (hk : nodes[k]? = some (.internal f l r)) :
    (∀ j ∈ liveSet nodes k, freqAt nodes l ≤ freqAt nodes j) ∧
    ∀ j ∈ (liveSet nodes k).erase l, freqAt nodes r ≤ freqAt nodes j := by
  obtain ⟨f', l', r', hk', -, -, -, hl, hr⟩ := hmerged
  obtain ⟨rfl, rfl, rfl⟩ : f = f' ∧ l = l' ∧ r = r' := by simpa [hk] using hk'
  have live : ∀ j, j ∈ liveSet nodes k → isLive nodes k j = true := fun j hj => (mem_filter.mp hj).2
  have le_of_key : ∀ i j, keyLt (keyOf nodes i) (keyOf nodes j) = true → freqAt nodes i ≤ freqAt nodes j :=
    fun i j hlt => by
      rcases keyLt_iff.mp hlt with hfreq | ⟨hfreq, -⟩
      · exact hfreq.le
      · exact hfreq.le
  refine ⟨fun j hj => ?_, fun j hj => ?_⟩
  · by_cases hjl : j = l
    · rw [hjl]
    · exact le_of_key l j (hl j (live j hj) hjl)
  · obtain ⟨hjl, hj⟩ := mem_erase.mp hj
    by_cases hjr : j = r
    · rw [hjr]
    · exact le_of_key r j (hr j (live j hj) hjl hjr)

section

variable {ft : List FtEntry} {nodes : List Node} {root : Nat} (h : TreeOk ft nodes root)

include h

/-- Lengths of the nodes live at `k` that meet the Kraft inequality cost at least the frequencies of the nodes still to be
merged. -/
theorem TreeOk.sum_internal_le (hmerged : ∀ k, ft.length ≤ k → k < nodes.length → MergedLeast nodes k) {k : Nat}
    (hk : k ≤ nodes.length) (hleaves : ft.length ≤ k) {len : Nat → Nat} (hkraft : MeetsKraft (liveSet nodes k) len) :
    ∑ q ∈ Ico k nodes.length, freqAt nodes q ≤ ∑ j ∈ liveSet nodes k, freqAt nodes j * len j := by
  induction hk using Nat.decreasingInduction generalizing len with
  | self => simp
  | of_succ k hk ih =>
    obtain ⟨f, l, r, hnode, -⟩ := h.innerAt hleaves hk
    obtain ⟨hl, hr⟩ := h.children_live hnode
    obtain ⟨hlk, hrk, hne⟩ := h.child_lt hnode
    obtain ⟨hleast, hnext⟩ := (hmerged k hleaves hk).freq_le hnode
    obtain ⟨len', m, hkraft', hcost⟩ :=
      exists_lengths_merged hl (mem_erase.mpr ⟨hne.symm, hr⟩) hleast hnext hkraft
    have hold : ∀ j ∈ liveRest nodes k l r, Function.update len' k m j = len' j := fun j hj =>
      Function.update_of_ne (mem_liveSet.mp (mem_of_mem_erase (mem_of_mem_erase hj))).1.ne _ _
    have hkraftNext : MeetsKraft (liveSet nodes (k + 1)) (Function.update len' k m) := by
      rw [MeetsKraft, h.sum_liveSet_succ hnode, Function.update_self, sum_congr rfl fun j hj => by rw [hold j hj]]
      exact hkraft'
    calc ∑ q ∈ Ico k nodes.length, freqAt nodes q
        = freqAt nodes k + ∑ q ∈ Ico (k + 1) nodes.length, freqAt nodes q := sum_eq_sum_Ico_succ_bot hk _
      _ ≤ freqAt nodes k + ∑ j ∈ liveSet nodes (k + 1), freqAt nodes j * Function.update len' k m j :=
          Nat.add_le_add_left (ih (by omega) hkraftNext) _
      _ = freqAt nodes k * (m + 1) + ∑ j ∈ liveRest nodes k l r, freqAt nodes j * len' j := by
          rw [h.sum_liveSet_succ hnode, Function.update_self, sum_congr rfl fun j hj => by rw [hold j hj]]
          ring
      _ ≤ ∑ j ∈ liveSet nodes k, freqAt nodes j * len j := by
          rw [h.freqAt_internal hnode]
          exact hcost

end

/-- Settles O35: the words' lengths meet the Kraft inequality over the leaves, and the codes cost the frequencies of the
internal nodes. -/
theorem codesAreOptimal : Obligations.CodesAreOptimal := by
  intro ft nodes root ct h hmerged hc h2 words hlen hprefix
  have hkraft := meetsKraft_of_prefixFree (hlen ▸ h2) hprefix
  rw [hlen, ← h.liveSet_leaves] at hkraft
  rw [hc.cost h h2, h.sum_cost hlen List.length (len := fun i => (words.getD i []).length), ← h.liveSet_leaves]
  · exact h.sum_internal_le hmerged h.nLe le_rfl hkraft
  · intro i w hi
    rw [List.getD_eq_getElem?_getD, hi, Option.getD_some]

end Sys2Proof.Machine

end

/-! # The encoder, the decoder and the packer (43_bitstream.md R150 to R155)

`Decodes` says what it is for a bit sequence to be a codeword of a value to the walk of `DEC`: a path to a leaf is one, and
so is the bit 0 under a one-leaf tree. What `DEC` makes of a row of codewords is then said once for both kinds of tree. -/

section

namespace Sys2Proof.Machine

/-! ## The encoding loop over written values -/

section

variable {maxBytes : Nat} {ft : List FtEntry} {ct : List Code} {vs : List Word} {words : List (List Bool)}

/-- When the codewords of all the values fit, the loop gives them end to end. -/
theorem encodeValues_done (hwords : CodewordsOf ft ct vs words) (hfit : words.flatten.length ≤ 8 * maxBytes) :
    encodeValues maxBytes ft ct 0 0 (vs.map some) = .done words.flatten := by
  have happend := encodeValues_append (maxBytes := maxBytes) vs words hwords 0 0 [] (by omega)
  rw [List.append_nil] at happend
  rw [happend]
  simp [encodeValues, Work.map]

/-- An error at value `k`, after codewords that fit, is the loop's error. -/
theorem encodeValues_raise {k : Nat} {v : Word} {code : ErrCode} {info : Word} (hv : vs[k]? = some v)
    (hwords : CodewordsOf ft ct (vs.take k) words) (hfit : words.flatten.length ≤ 8 * maxBytes)
    (hraise : ∀ rest, encodeValues maxBytes ft ct k words.flatten.length (some v :: rest) = .raise code info) :
    encodeValues maxBytes ft ct 0 0 (vs.map some) = .raise code info := by
  obtain ⟨hk, rfl⟩ := List.getElem?_eq_some_iff.mp hv
  have happend :=
    encodeValues_append (maxBytes := maxBytes) (vs.take k) words hwords 0 0 ((vs.drop k).map some) (by omega)
  rw [← List.map_append, List.take_append_drop, List.length_take_of_le hk.le, Nat.zero_add, Nat.zero_add,
    List.drop_eq_getElem_cons hk, List.map_cons, hraise] at happend
  exact happend

theorem encodeValues_noCode {k p : Nat} {v : Word} {rest : List (Option Word)} (h : ∀ e ∈ ft, e.value ≠ v) :
    encodeValues maxBytes ft ct k p (some v :: rest) = .raise .noCode (BitVec.ofNat 32 k) := by
  simp only [encodeValues, lookup_eq_none.mpr h]

theorem encodeValues_capacity {k p : Nat} {v : Word} {rest : List (Option Word)} {w : List Bool}
    (hw : codewordFor ft ct v = some w) (hfull : 8 * maxBytes < p + w.length) :
    encodeValues maxBytes ft ct k p (some v :: rest) = .raise .capacity (BitVec.ofNat 32 k) := by
  rw [codewordFor_eq] at hw
  obtain ⟨i, hi, hw⟩ := Option.bind_eq_some_iff.mp hw
  obtain ⟨c, hc, rfl⟩ := Option.map_eq_some_iff.mp hw
  rw [codeBits_length] at hfull
  simp only [encodeValues, hi, hc, if_pos hfull]

/-- Whatever the tables hold, the loop gives no more bits than `BBUF` has room for. -/
theorem encodeValues_fits {cells : List (Option Word)} {k p : Nat} {bs : List Bool} (hp : p ≤ 8 * maxBytes)
    (h : encodeValues maxBytes ft ct k p cells = .done bs) : p + bs.length ≤ 8 * maxBytes := by
  induction cells generalizing k p bs with
  | nil =>
    cases h
    exact hp
  | cons cell cells ih =>
    cases cell with
    | none => cases h
    | some v =>
      simp only [encodeValues] at h
      split at h
      · cases h
      · split at h
        · cases h
        · split at h
          · cases h
          · obtain ⟨rest, hrest, rfl⟩ := work_map_done.mp h
            have := ih (by omega) hrest
            rw [List.length_append, codeBits_length]
            omega

end

/-! ## The stored stream (R152) -/

section

variable {s : State} {bs : List Bool} (hfit : bs.length ≤ 8 * Config.hdc1.maxBytes)

include hfit

theorem storeStream_bitcnt_toNat : (storeStream bs s).bitcnt.toNat = bs.length := by
  have : 8 * Config.hdc1.maxBytes = 2097152 := rfl
  rw [storeStream_bitcnt, BitVec.toNat_ofNat, Nat.mod_eq_of_lt (by omega)]

theorem storeStream_blen_toNat : (storeStream bs s).blen.toNat = bytesFor bs.length := by
  have : 8 * Config.hdc1.maxBytes = 2097152 := rfl
  rw [storeStream_blen, BitVec.toNat_ofNat, Nat.mod_eq_of_lt (by rw [bytesFor]; omega)]

/-- The bits of a stored stream are the sequence, zero-padded to the end of its last byte. -/
theorem storeStream_bit {p : Nat} (hp : p < 8 * (storeStream bs s).blen.toNat) :
    streamBit (storeStream bs s).bbuf p = some (bs.getD p false) := by
  rw [storeStream_blen_toNat hfit] at hp
  exact streamBit_packed _ _ _ _ hp

theorem storeStream_blen_le : (storeStream bs s).blen.toNat ≤ Config.hdc1.maxBytes := by
  rw [storeStream_blen_toNat hfit, bytesFor]
  omega

theorem storeStream_bits_le : bs.length ≤ 8 * (storeStream bs s).blen.toNat := by
  rw [storeStream_blen_toNat hfit, bytesFor]
  omega

theorem streamIs_storeStream : StreamIs (storeStream bs s) bs := by
  refine ⟨storeStream_bitcnt_toNat hfit, fun p hp => ?_⟩
  rw [storeStream_bit hfit (hp.trans_le (storeStream_bits_le hfit)), List.getD_eq_getElem _ _ hp,
    List.getElem?_eq_getElem hp]

theorem storeStream_keeps : CellsKept (storeStream bs s).blen.toNat s.bbuf (storeStream bs s).bbuf := by
  rw [storeStream_blen_toNat hfit]
  exact cellsKept_writeFrom (packBytes_length _ _).le

end

/-- A block with the same lengths and the same bytes below `BLEN` holds the same stream. -/
theorem StreamIs.copied {s t : State} {bs : List Bool} (h : StreamIs s bs) (hroom : bs.length ≤ 8 * s.blen.toNat)
    (hbitcnt : t.bitcnt = s.bitcnt) (hbytes : ∀ j < s.blen.toNat, Memory.read t.bbuf j = Memory.read s.bbuf j) :
    StreamIs t bs := by
  obtain ⟨hlen, hbits⟩ := h
  refine ⟨by rw [hbitcnt, hlen], fun p hp => ?_⟩
  rw [← hbits p hp, streamBit, streamBit, hbytes (p / 8) (by omega)]

/-! ## ENC -/

section

variable {s : State} (herr : s.err = false)

include herr

theorem exec_enc_notReady (hvalid : s.codesValid = false) :
    exec .enc s = .next (raiseError .notReady 0#32 0x30#32 s) :=
  (gated_of_ok herr _).trans (if_pos (by rw [hvalid]; rfl))

variable (hvalid : s.codesValid = true)

include hvalid

theorem exec_enc_badLength (hlen : Config.hdc1.maxValues < s.vlen.toNat) :
    exec .enc s = .next (raiseError .len s.vlen 0x30#32 s) :=
  (gated_of_ok herr _).trans ((if_neg (by simp [hvalid])).trans (if_pos hlen))

/-- Past the pre-checks, `ENC` is its loop over the values. -/
theorem exec_enc_values {vs : List Word} (hvs : ValuesAre s vs) (hmax : vs.length ≤ Config.hdc1.maxValues) :
    exec .enc s = settle 0x30#32 s storeStream (spoilStream Config.hdc1.maxBytes)
      (encodeValues Config.hdc1.maxBytes s.ft s.ct 0 0 (vs.map some)) := by
  obtain ⟨hlen, hcells⟩ := hvs
  rw [← cellsFrom_eq_map _ _ hcells, ← hlen]
  exact (gated_of_ok herr _).trans ((if_neg (by simp [hvalid])).trans (if_neg (by omega)))

variable {vs : List Word} (hvs : ValuesAre s vs) (hmax : vs.length ≤ Config.hdc1.maxValues)

include hvs hmax

/-- When every value has a codeword and they fit, `ENC` stores them end to end. -/
theorem exec_enc_stores {words : List (List Bool)} (hwords : CodewordsOf s.ft s.ct vs words)
    (hfit : words.flatten.length ≤ 8 * Config.hdc1.maxBytes) :
    exec .enc s = .next (storeStream words.flatten s) := by
  rw [exec_enc_values herr hvalid hvs hmax, encodeValues_done hwords hfit]
  rfl

/-- A data error of `ENC` records itself and spoils the stream (R216). -/
theorem exec_enc_raises {code : ErrCode} {info : Word}
    (hraise : encodeValues Config.hdc1.maxBytes s.ft s.ct 0 0 (vs.map some) = .raise code info) :
    exec .enc s = .next (raiseError code info 0x30#32 (spoilStream Config.hdc1.maxBytes s)) := by
  rw [exec_enc_values herr hvalid hvs hmax, hraise]
  rfl

end

/-! ## The decoding loop over codewords -/

/-- The stream bits from `p` up begin with `bs`. -/
def BitsFrom (bbuf : Memory Byte) (p : Nat) (bs : List Bool) : Prop :=
  ∀ q < bs.length, streamBit bbuf (p + q) = bs[q]?

theorem bitsFrom_append {bbuf : Memory Byte} {p : Nat} {bs cs : List Bool} :
    BitsFrom bbuf p (bs ++ cs) ↔ BitsFrom bbuf p bs ∧ BitsFrom bbuf (p + bs.length) cs := by
  refine ⟨fun h => ⟨fun q hq => ?_, fun q hq => ?_⟩, fun ⟨hbs, hcs⟩ q hq => ?_⟩
  · rw [h q (by rw [List.length_append]; omega), List.getElem?_append_left hq]
  · rw [Nat.add_assoc, h (bs.length + q) (by rw [List.length_append]; omega),
      List.getElem?_append_right (by omega), Nat.add_sub_cancel_left]
  · rw [List.length_append] at hq
    by_cases hlt : q < bs.length
    · rw [hbs q hlt, List.getElem?_append_left hlt]
    · rw [List.getElem?_append_right (by omega), ← hcs (q - bs.length) (by omega)]
      congr 1
      omega

/-- The stream from bit 0 up is the declared one. -/
theorem StreamIs.bitsFrom {s : State} {bs : List Bool} (h : StreamIs s bs) : BitsFrom s.bbuf 0 bs :=
  fun q hq => by rw [Nat.zero_add, h.2 q hq]

/-- `w` is a codeword of `v`: the walk that reads `w` from the root emits `v` at its last bit and is at the root again,
unless `VBUF` is full. -/
def Decodes (nodes : List Node) (root : Nat) (w : List Bool) (v : Word) : Prop :=
  ∀ (maxValues : Nat) (bbuf : Memory Byte) (total : Word) (n p m : Nat), BitsFrom bbuf p w →
    decodeBits maxValues bbuf nodes root total (w.length + n) p root m =
      if m = maxValues then .raise .capacity (BitVec.ofNat 32 (p + w.length - 1))
      else (decodeBits maxValues bbuf nodes root total n (p + w.length) root (m + 1)).map (fun out => v :: out)

section

variable {ft : List FtEntry} {nodes : List Node} {root : Nat} (ht : TreeOk ft nodes root)

include ht

/-- With two or more leaves the root is internal. -/
theorem TreeOk.rootInternal (h2 : 2 ≤ ft.length) : ft.length ≤ root ∧ ∃ f l r, nodes[root]? = some (.internal f l r) := by
  have hroot := ht.rootLast
  have hge : ft.length ≤ root := by omega
  obtain ⟨f, l, r, hnode, -⟩ := ht.innerAt hge ht.rootLt
  exact ⟨hge, f, l, r, hnode⟩

/-- With two or more leaves the path to a leaf is a codeword of its value. -/
theorem TreeOk.decodes_path (h2 : 2 ≤ ft.length) {bs : List Bool} {i : Nat} (hi : i < ft.length)
    (hd : descend nodes root bs = some i) : Decodes nodes root bs ft[i].value := by
  obtain ⟨hge, f, l, r, hroot⟩ := ht.rootInternal h2
  have hne : bs ≠ [] := by
    rintro rfl
    have : root = i := by simpa [descend] using hd
    omega
  exact fun _ _ _ n p m hbits => decodeBits_leaf hroot bs root i hd (ht.leafAt hi) hne p n m hbits

end

/-- A one-leaf tree has its leaf at the root (R133). -/
theorem TreeOk.leafRoot {e : FtEntry} {nodes : List Node} {root : Nat} (ht : TreeOk [e] nodes root) :
    nodes[root]? = some (.leaf e.count e.value) := by
  obtain rfl : root = 0 := ht.rootLast
  exact ht.leafAt (by simp)

/-- Under a one-leaf tree the bit 0 is a codeword of the leaf's value (R155). -/
theorem TreeOk.decodes_zero {e : FtEntry} {nodes : List Node} {root : Nat} (ht : TreeOk [e] nodes root) :
    Decodes nodes root [false] e.value := by
  intro maxValues bbuf total n p m hbits
  have hbit : streamBit bbuf p = some false := hbits 0 (by simp)
  have hwalk : walkBit nodes root root false = .leaf e.value := by simp [walkBit, ht.leafRoot]
  rw [List.length_singleton, Nat.add_comm 1 n]
  simp only [decodeBits, hbit, hwalk, Nat.add_sub_cancel]

section

variable {nodes : List Node} {root maxValues : Nat} {bbuf : Memory Byte} {total : Word} {words : List (List Bool)}
  {vs : List Word} (h : List.Forall₂ (Decodes nodes root) words vs)

include h

/-- Codewords of values that fit are decoded, and the walk goes on after them. -/
theorem decodeBits_words (n : Nat) {p m : Nat} (hbits : BitsFrom bbuf p words.flatten)
    (hfit : m + vs.length ≤ maxValues) :
    decodeBits maxValues bbuf nodes root total (words.flatten.length + n) p root m =
      (decodeBits maxValues bbuf nodes root total n (p + words.flatten.length) root (m + vs.length)).map
        (fun out => vs ++ out) := by
  induction h generalizing p m with
  | nil =>
    simp only [List.flatten_nil, List.length_nil, Nat.zero_add, Nat.add_zero, List.nil_append]
    cases decodeBits maxValues bbuf nodes root total n p root m <;> rfl
  | @cons w v words vs hw _ ih =>
    rw [List.flatten_cons, bitsFrom_append] at hbits
    rw [List.length_cons] at hfit
    rw [List.flatten_cons, List.length_append, Nat.add_assoc, hw _ _ _ _ _ _ hbits.1, if_neg (by omega),
      ih hbits.2 (by omega), List.length_cons, ← Nat.add_assoc p, Nat.add_right_comm m, Nat.add_assoc m]
    cases decodeBits maxValues bbuf nodes root total n (p + w.length + words.flatten.length) root
      (m + (vs.length + 1)) <;> rfl

/-- The last bit of the first codeword too many raises. -/
theorem decodeBits_full (n : Nat) {p m : Nat} (hbits : BitsFrom bbuf p words.flatten) (hm : m ≤ maxValues)
    (hfull : m + vs.length = maxValues + 1) :
    decodeBits maxValues bbuf nodes root total (words.flatten.length + n) p root m =
      .raise .capacity (BitVec.ofNat 32 (p + words.flatten.length - 1)) := by
  induction h generalizing p m with
  | nil =>
    rw [List.length_nil] at hfull
    omega
  | @cons w v words vs hw hrest ih =>
    rw [List.flatten_cons, bitsFrom_append] at hbits
    rw [List.length_cons] at hfull
    rw [List.flatten_cons, List.length_append, Nat.add_assoc, hw _ _ _ _ _ _ hbits.1, ← Nat.add_assoc p]
    by_cases hlast : m = maxValues
    · obtain rfl : vs = [] := List.eq_nil_of_length_eq_zero (by omega)
      obtain rfl := List.forall₂_nil_right_iff.mp hrest
      rw [if_pos hlast]
      rfl
    · rw [if_neg hlast, ih hbits.2 (by omega) (by omega)]
      rfl

end

/-- Root-to-leaf paths are codewords of the leaves' values. -/
theorem LeafPaths.exists_values {ft : List FtEntry} {nodes : List Node} {root : Nat} (ht : TreeOk ft nodes root)
    (h2 : 2 ≤ ft.length) {paths : List (List Bool)} {leaves : List Nat}
    (h : LeafPaths nodes root ft.length paths leaves) :
    ∃ vs, List.Forall₂ (Decodes nodes root) paths vs ∧
      vs.map some = leaves.map (fun i => (ft[i]?).map FtEntry.value) := by
  obtain ⟨hpaths, hleaves⟩ := h
  induction paths generalizing leaves with
  | nil =>
    obtain rfl : leaves = [] := by simpa using hpaths.symm
    exact ⟨[], .nil, rfl⟩
  | cons w paths ih =>
    cases leaves with
    | nil => simp at hpaths
    | cons i leaves =>
      obtain ⟨hd, hrest⟩ : descend nodes root w = some i ∧ paths.map (descend nodes root) = leaves.map some := by
        simpa using hpaths
      obtain ⟨hi, hleaves⟩ := List.forall_mem_cons.mp hleaves
      obtain ⟨vs, hvs, hmap⟩ := ih hrest hleaves
      exact ⟨ft[i].value :: vs, .cons (ht.decodes_path h2 hi hd) hvs, by simp [hmap, hi]⟩

/-- Whatever the tree is, the walk gives no more values than `VBUF` has room for. -/
theorem decodeBits_fits {maxValues : Nat} {bbuf : Memory Byte} {nodes : List Node} {root : Nat} {total : Word}
    {n p k m : Nat} {out : List Word} (hm : m ≤ maxValues)
    (h : decodeBits maxValues bbuf nodes root total n p k m = .done out) : m + out.length ≤ maxValues := by
  induction n generalizing p k m out with
  | zero =>
    rw [decodeBits] at h
    split at h
    · cases h
      exact hm
    · cases h
  | succ n ih =>
    simp only [decodeBits] at h
    split at h
    · cases h
    · split at h
      · cases h
      · cases h
      · exact ih hm h
      · split at h
        · cases h
        · obtain ⟨rest, hrest, rfl⟩ := work_map_done.mp h
          have := ih (by omega) hrest
          rw [List.length_cons]
          omega

/-! ## Errors after the last codeword -/

section

variable {nodes : List Node} {root maxValues : Nat} {bbuf : Memory Byte} {total : Word} {p m : Nat}

/-- A stream that ends inside a codeword: the walk stands at an internal node below the root (R151). -/
theorem decodeBits_endsInside {ft : List FtEntry} (ht : TreeOk ft nodes root) (h2 : 2 ≤ ft.length) {last : List Bool}
    {k : Nat} (hne : last ≠ []) (hd : descend nodes root last = some k) (hk : ft.length ≤ k)
    (hbits : BitsFrom bbuf p last) :
    decodeBits maxValues bbuf nodes root total last.length p root m = .raise .walk total := by
  obtain ⟨-, f', l', r', hroot⟩ := ht.rootInternal h2
  have hbelow := ht.descend_le hd
  have hpos := List.length_pos_iff.mpr hne
  have hlt := ht.rootLt
  obtain ⟨f, l, r, hnode, -⟩ := ht.innerAt hk (by omega)
  have hrun := decodeBits_inner (maxValues := maxValues) (total := total) hroot last root k hd hnode p 0 m hbits
  rw [Nat.add_zero] at hrun
  rw [hrun, decodeBits, if_neg (by omega)]

/-- A 1 bit under a one-leaf tree (R155). -/
theorem decodeBits_missing {e : FtEntry} (ht : TreeOk [e] nodes root) {rest : List Bool}
    (hbits : BitsFrom bbuf p (true :: rest)) :
    decodeBits maxValues bbuf nodes root total (true :: rest).length p root m = .raise .walk (BitVec.ofNat 32 p) := by
  have hbit : streamBit bbuf p = some true := hbits 0 (by simp)
  have hwalk : walkBit nodes root root true = .missing := by simp [walkBit, ht.leafRoot]
  simp only [List.length_cons, decodeBits, hbit, hwalk]

/-- Under a one-leaf tree every 0 bit is a codeword of the leaf's value. -/
theorem TreeOk.decodes_zeros {e : FtEntry} (ht : TreeOk [e] nodes root) (n : Nat) :
    List.Forall₂ (Decodes nodes root) (List.replicate n [false]) (List.replicate n e.value) := by
  induction n with
  | zero => exact .nil
  | succ n ih => exact .cons ht.decodes_zero ih

end

/-! ## DEC -/

section

variable {s : State} {vs : List Word} (hfit : vs.length ≤ Config.hdc1.maxValues)

include hfit

theorem storeDecoded_vlen_toNat : (storeDecoded vs s).vlen.toNat = vs.length := by
  have : Config.hdc1.maxValues = 65536 := rfl
  rw [storeDecoded_vlen, BitVec.toNat_ofNat, Nat.mod_eq_of_lt (by omega)]

theorem valuesAre_storeDecoded : ValuesAre (storeDecoded vs s) vs :=
  ⟨storeDecoded_vlen_toNat hfit, fun k hk => by
    rw [storeDecoded_vbuf, read_writeFrom, if_pos (by omega), Nat.sub_zero]⟩

end

section

variable {s : State} (herr : s.err = false)

include herr

theorem exec_dec_notReady (hvalid : s.treeValid = false) :
    exec .dec s = .next (raiseError .notReady 0#32 0x31#32 s) :=
  (gated_of_ok herr _).trans (if_pos (by rw [hvalid]; rfl))

variable (hvalid : s.treeValid = true)

include hvalid

theorem exec_dec_badLength (hlen : Config.hdc1.maxBytes < s.blen.toNat) :
    exec .dec s = .next (raiseError .len s.blen 0x31#32 s) :=
  (gated_of_ok herr _).trans ((if_neg (by simp [hvalid])).trans (if_pos hlen))

variable (hblen : s.blen.toNat ≤ Config.hdc1.maxBytes)

include hblen

theorem exec_dec_truncated (hbits : 8 * s.blen.toNat < s.bitcnt.toNat) :
    exec .dec s = .next (raiseError .trunc s.bitcnt 0x31#32 s) :=
  (gated_of_ok herr _).trans ((if_neg (by simp [hvalid])).trans ((if_neg (by omega)).trans (if_pos hbits)))

variable (hbitcnt : s.bitcnt.toNat ≤ 8 * s.blen.toNat)

include hbitcnt

/-- Past the pre-checks, `DEC` is its walk over the code bits. -/
theorem exec_dec_bits : exec .dec s =
    settle 0x31#32 s storeDecoded (spoilDecoded Config.hdc1.maxValues)
      (decodeBits Config.hdc1.maxValues s.bbuf s.nodes s.root.toNat s.bitcnt s.bitcnt.toNat 0 s.root.toNat 0) :=
  (gated_of_ok herr _).trans ((if_neg (by simp [hvalid])).trans ((if_neg (by omega)).trans (if_neg (by omega))))

/-- A data error of `DEC` records itself and spoils the values (R216). -/
theorem exec_dec_raises {code : ErrCode} {info : Word}
    (hraise : decodeBits Config.hdc1.maxValues s.bbuf s.nodes s.root.toNat s.bitcnt s.bitcnt.toNat 0 s.root.toNat 0 =
      .raise code info) :
    exec .dec s = .next (raiseError code info 0x31#32 (spoilDecoded Config.hdc1.maxValues s)) := by
  rw [exec_dec_bits herr hvalid hblen hbitcnt, hraise]
  rfl

variable {words : List (List Bool)} {vs : List Word}
  (hwords : List.Forall₂ (Decodes s.nodes s.root.toNat) words vs)

include hwords

/-- A stream of codewords gives their values. -/
theorem exec_dec_stores (hstream : StreamIs s words.flatten) (hfit : vs.length ≤ Config.hdc1.maxValues) :
    exec .dec s = .next (storeDecoded vs s) := by
  have hrun := decodeBits_words (maxValues := Config.hdc1.maxValues) (total := s.bitcnt) hwords 0 (m := 0)
    hstream.bitsFrom (by omega)
  rw [Nat.add_zero, ← hstream.1] at hrun
  rw [exec_dec_bits herr hvalid hblen hbitcnt, hrun]
  simp [decodeBits, Work.map, settle]

/-- A stream of codewords and more: an error in what comes after them. -/
theorem exec_dec_raises_after {rest : List Bool} (hstream : StreamIs s (words.flatten ++ rest))
    (hfit : vs.length ≤ Config.hdc1.maxValues) {code : ErrCode} {info : Word}
    (hraise : BitsFrom s.bbuf words.flatten.length rest → decodeBits Config.hdc1.maxValues s.bbuf s.nodes s.root.toNat
      s.bitcnt rest.length words.flatten.length s.root.toNat vs.length = .raise code info) :
    exec .dec s = .next (raiseError code info 0x31#32 (spoilDecoded Config.hdc1.maxValues s)) := by
  obtain ⟨hbits, hrest⟩ := bitsFrom_append.mp hstream.bitsFrom
  rw [Nat.zero_add] at hrest
  refine exec_dec_raises herr hvalid hblen hbitcnt ?_
  rw [hstream.1, List.length_append, decodeBits_words hwords _ hbits (by omega), Nat.zero_add, Nat.zero_add,
    hraise hrest]
  rfl

/-- A stream that begins with one codeword more than `VBUF` holds. -/
theorem exec_dec_raises_full {rest : List Bool} (hstream : StreamIs s (words.flatten ++ rest))
    (hfull : vs.length = Config.hdc1.maxValues + 1) :
    exec .dec s = .next (raiseError .capacity (BitVec.ofNat 32 (words.flatten.length - 1)) 0x31#32
      (spoilDecoded Config.hdc1.maxValues s)) := by
  refine exec_dec_raises herr hvalid hblen hbitcnt ?_
  rw [hstream.1, List.length_append, decodeBits_full hwords _ (bitsFrom_append.mp hstream.bitsFrom).1 (Nat.zero_le _)
    (by omega), Nat.zero_add]

end

/-! ## The next states -/

section

variable {s t : State}

/-- The next states of `ENC`: ignored, a stream that fits, or an error with or without the stream spoiled. -/
theorem exec_enc_next (h : exec .enc s = .next t) :
    t = s ∨ (∃ bs, bs.length ≤ 8 * Config.hdc1.maxBytes ∧ t = storeStream bs s) ∨
    ∃ code info, t = raiseError code info 0x30#32 s ∨
      t = raiseError code info 0x30#32 (spoilStream Config.hdc1.maxBytes s) := by
  rcases gated_next h with ⟨-, rfl⟩ | ⟨-, hrun⟩
  · exact .inl rfl
  · split at hrun
    · cases hrun
      exact .inr (.inr ⟨_, _, .inl rfl⟩)
    · split at hrun
      · cases hrun
        exact .inr (.inr ⟨_, _, .inl rfl⟩)
      · rcases settle_next hrun with ⟨bs, hdone, ht⟩ | ⟨code, info, -, ht⟩
        · have := encodeValues_fits (Nat.zero_le _) hdone
          exact .inr (.inl ⟨bs, by omega, ht⟩)
        · exact .inr (.inr ⟨code, info, .inr ht⟩)

/-- The next states of `DEC`: ignored, values that fit, or an error with or without the values spoiled. -/
theorem exec_dec_next (h : exec .dec s = .next t) :
    t = s ∨ (∃ out, out.length ≤ Config.hdc1.maxValues ∧ t = storeDecoded out s) ∨
    ∃ code info, t = raiseError code info 0x31#32 s ∨
      t = raiseError code info 0x31#32 (spoilDecoded Config.hdc1.maxValues s) := by
  rcases gated_next h with ⟨-, rfl⟩ | ⟨-, hrun⟩
  · exact .inl rfl
  · split at hrun
    · cases hrun
      exact .inr (.inr ⟨_, _, .inl rfl⟩)
    · split at hrun
      · cases hrun
        exact .inr (.inr ⟨_, _, .inl rfl⟩)
      · split at hrun
        · cases hrun
          exact .inr (.inr ⟨_, _, .inl rfl⟩)
        · rcases settle_next hrun with ⟨out, hdone, ht⟩ | ⟨code, info, -, ht⟩
          · have := decodeBits_fits (Nat.zero_le _) hdone
            exact .inr (.inl ⟨out, by omega, ht⟩)
          · exact .inr (.inr ⟨code, info, .inr ht⟩)

end

/-! ## The round trip (R154) -/

/-- `FCNT` over values with few enough distinct ones stores their table. -/
theorem exec_fcnt_counts {s : State} {vs : List Word} (herr : s.err = false) (hvs : ValuesAre s vs)
    (hmax : vs.length ≤ Config.hdc1.maxValues) (hsyms : vs.dedup.length ≤ Config.hdc1.maxSyms) :
    ∃ ft, TableOf vs ft ∧ exec .fcnt s = .next (storeTable ft s) := by
  obtain ⟨ft, hcount, htable⟩ := countValues_done hsyms
  refine ⟨ft, htable, ?_⟩
  rw [exec_fcnt_values herr hvs hmax, hcount]
  rfl

/-- `GCODE` over a tree stores its codes, or finds one too long. -/
theorem exec_gcode_cases {s : State} (herr : s.err = false) (hvalid : s.treeValid = true)
    (ht : TreeOk s.ft s.nodes s.root.toNat) :
    (∃ info, exec .gcode s = .next (raiseError .capacity info 0x23#32 (invalidateCodes s))) ∨
    ∃ ct, exec .gcode s = .next (storeCodes ct s) ∧ CodesOk s.ft s.nodes s.root.toNat ct := by
  obtain ⟨paths, -, -, hgen⟩ := generateCodes_ok ht Config.hdc1.codeMax
  have hmeets := generateCodes_meets (P := Config.hdc1) (by decide) ht
  rw [exec_gcode_ready herr hvalid]
  rw [hgen] at hmeets ⊢
  split at hmeets
  · exact .inl ⟨_, rfl⟩
  · exact .inr ⟨_, rfl, hmeets⟩

section

variable {ft : List FtEntry} {nodes : List Node} {root : Nat} {ct : List Code} (ht : TreeOk ft nodes root)
  (hc : CodesOk ft nodes root ct)

include ht hc

/-- What `ENC` writes for a table entry, `DEC` reads as its value. -/
theorem CodesOk.decodes {i : Nat} {c : Code} (hi : i < ft.length) (hci : ct[i]? = some c) :
    Decodes nodes root (codeBits c) ft[i].value := by
  by_cases h2 : 2 ≤ ft.length
  · exact ht.decodes_path h2 hi (hc.path h2 hci)
  · obtain ⟨e, rfl⟩ : ∃ e, ft = [e] := List.length_eq_one_iff.mp (by omega)
    obtain rfl : i = 0 := by simpa using hi
    have hok := hc.codeOk hci
    have hcode : c.len = 1 ∧ c.bits = 0#32 := by simp [Machine.codeOk] at hok; exact hok.2
    have hbits : codeBits c = [false] := by simp [codeBits, hcode]
    rw [hbits]
    exact ht.decodes_zero

/-- Values of the table have codewords, which decode to them and are not longer than `CODE_MAX`. -/
theorem CodesOk.exists_words {vs : List Word} (hvs : ∀ v ∈ vs, lookup ft v ≠ none) :
    ∃ words, CodewordsOf ft ct vs words ∧ List.Forall₂ (Decodes nodes root) words vs ∧
      words.flatten.length ≤ Config.hdc1.codeMax * vs.length := by
  induction vs with
  | nil => exact ⟨[], rfl, .nil, Nat.zero_le _⟩
  | cons v vs ih =>
    obtain ⟨hv, hvs⟩ := List.forall_mem_cons.mp hvs
    obtain ⟨words, hwords, hdecodes, hlen⟩ := ih hvs
    obtain ⟨i, hlookup⟩ := Option.ne_none_iff_exists'.mp hv
    obtain ⟨hi, rfl, -⟩ := lookup_eq_some.mp hlookup
    have hci : ct[i]? = some (ct[i]'(hc.count ▸ hi)) := List.getElem?_eq_getElem _
    refine ⟨codeBits (ct[i]'(hc.count ▸ hi)) :: words, ?_, .cons (hc.decodes ht hi hci) hdecodes, ?_⟩
    · rw [CodewordsOf] at hwords ⊢
      rw [List.map_cons, List.map_cons, hwords, codewordFor_eq, hlookup, Option.bind_some, hci]
      rfl
    · have := hc.len_le (List.mem_of_getElem? hci)
      rw [List.flatten_cons, List.length_append, codeBits_length, List.length_cons, Nat.mul_succ]
      omega

end

/-- `ENC` of values of the table, with the table's tree and codes, stores a stream of codewords that decode to them. -/
theorem exec_enc_codewords {s : State} {vs : List Word} (herr : s.err = false) (hvalid : s.codesValid = true)
    (ht : TreeOk s.ft s.nodes s.root.toNat) (hc : CodesOk s.ft s.nodes s.root.toNat s.ct) (hvs : ValuesAre s vs)
    (hmax : vs.length ≤ Config.hdc1.maxValues) (hmem : ∀ v ∈ vs, lookup s.ft v ≠ none) :
    ∃ words, exec .enc s = .next (storeStream words.flatten s) ∧
      words.flatten.length ≤ 8 * Config.hdc1.maxBytes ∧ List.Forall₂ (Decodes s.nodes s.root.toNat) words vs := by
  obtain ⟨words, hwords, hdecodes, hlen⟩ := hc.exists_words ht hmem
  have hfit : words.flatten.length ≤ 8 * Config.hdc1.maxBytes := hlen.trans (Nat.mul_le_mul_left _ hmax)
  exact ⟨words, exec_enc_stores herr hvalid hvs hmax hwords hfit, hfit, hdecodes⟩

/-- A block that holds a stored stream of codewords decodes it, whichever block stored it. -/
theorem exec_dec_copied {s w : State} {words : List (List Bool)} {vs : List Word}
    (hfit : words.flatten.length ≤ 8 * Config.hdc1.maxBytes) (hmax : vs.length ≤ Config.hdc1.maxValues)
    (herr : w.err = false) (hvalid : w.treeValid = true)
    (hwords : List.Forall₂ (Decodes w.nodes w.root.toNat) words vs)
    (hblen : w.blen = (storeStream words.flatten s).blen) (hbitcnt : w.bitcnt = (storeStream words.flatten s).bitcnt)
    (hbytes : ∀ j < (storeStream words.flatten s).blen.toNat,
      Memory.read w.bbuf j = Memory.read (storeStream words.flatten s).bbuf j) :
    exec .dec w = .next (storeDecoded vs w) := by
  have hroom := storeStream_bits_le (s := s) hfit
  have hstream := (streamIs_storeStream hfit).copied hroom hbitcnt hbytes
  refine exec_dec_stores herr hvalid ?_ ?_ hwords hstream hmax
  · rw [hblen]
    exact storeStream_blen_le hfit
  · rw [hstream.1, hblen]
    exact hroom

/-! ## The statements -/

/-- Settles O37: `ENC` stores its codewords as `storeStream` packs them. -/
theorem encEffect : Obligations.EncEffect := by
  refine fun s herr => ⟨exec_enc_notReady herr, exec_enc_badLength herr, fun hvalid vs words hvs hmax hwords hfit =>
    ⟨_, exec_enc_stores herr hvalid hvs hmax hwords hfit, rfl, storeStream_bitcnt_toNat hfit,
      storeStream_blen_toNat hfit, (streamIs_storeStream hfit).2, fun p hlo hp => ?_, storeStream_keeps hfit⟩⟩
  rw [storeStream_bit hfit hp, List.getD_eq_default _ _ hlo]

/-- Settles O38: the loop goes on over the first `k` values and fails at the next one (`encodeValues_raise`). -/
theorem encDataErrors : Obligations.EncDataErrors := by
  refine fun s vs k words v herr hvalid hvs hmax hv hwords hfit => ⟨fun hnone => ?_, fun w hw hfull => ?_⟩
  · have hraise := encodeValues_raise hv hwords hfit fun _ => encodeValues_noCode hnone
    exact ⟨_, exec_enc_raises herr hvalid hvs hmax hraise, cellsUnspec_forget, rfl⟩
  · have hraise := encodeValues_raise hv hwords hfit fun _ => encodeValues_capacity hw hfull
    exact ⟨_, exec_enc_raises herr hvalid hvs hmax hraise, cellsUnspec_forget, rfl⟩

/-- Settles O40: paths to leaves, and the 0 bits under a one-leaf tree, are codewords (`Decodes`), and a stream of codewords
gives their values. -/
theorem decEffect : Obligations.DecEffect := by
  refine fun s herr => ⟨exec_dec_notReady herr, exec_dec_badLength herr, exec_dec_truncated herr,
    fun hvalid ht hblen hbitcnt => ⟨fun h2 paths leaves hpaths hstream hmax => ?_, fun e n hft hstream hmax => ?_⟩⟩
  · obtain ⟨vs, hdecodes, hvs⟩ := hpaths.exists_values ht h2
    have hlen : vs.length = leaves.length := by simpa using congrArg List.length hvs
    rw [← hlen] at hmax ⊢
    obtain ⟨hvlen, hcells⟩ := valuesAre_storeDecoded (s := s) hmax
    refine ⟨_, exec_dec_stores herr hvalid hblen hbitcnt hdecodes hstream hmax, rfl, hvlen,
      cellsKept_writeFrom le_rfl, fun m hm => ?_⟩
    have hcell : (vs.map some)[m]? = (leaves.map fun i => (s.ft[i]?).map FtEntry.value)[m]? := by rw [hvs]
    rw [hcells m hm]
    simpa [hm, hlen ▸ hm] using hcell
  · rw [hft] at ht
    rw [← List.flatten_replicate_singleton] at hstream
    have hlen : (List.replicate n e.value).length = n := List.length_replicate
    obtain ⟨hvlen, hcells⟩ := valuesAre_storeDecoded (s := s) (hlen.trans_le hmax)
    refine ⟨_, exec_dec_stores herr hvalid hblen hbitcnt (ht.decodes_zeros n) hstream (hlen.trans_le hmax), rfl,
      hvlen.trans hlen, cellsKept_writeFrom hlen.le, fun m hm => ?_⟩
    rw [hcells m (hlen.symm ▸ hm), List.getElem?_replicate, if_pos hm]

/-- Settles O41: the walk reads codewords first, and the error comes after them or at the last bit of the last one. -/
theorem decDataErrors : Obligations.DecDataErrors := by
  intro s herr hvalid ht hblen hbitcnt failsWith
  have fails : ∀ {code info},
      exec .dec s = .next (raiseError code info 0x31#32 (spoilDecoded Config.hdc1.maxValues s)) → failsWith code info :=
    fun h => ⟨_, h, cellsUnspec_forget, rfl⟩
  refine ⟨fun h2 paths leaves hpaths => ?_, fun e n rest hft => ?_⟩
  · obtain ⟨vs, hdecodes, hvs⟩ := hpaths.exists_values ht h2
    have hlen : vs.length = leaves.length := by simpa using congrArg List.length hvs
    rw [← hlen]
    refine ⟨fun last k hmax hne hd hk hstream => fails ?_, fun rest hfull hstream => fails ?_⟩
    · exact exec_dec_raises_after herr hvalid hblen hbitcnt hdecodes hstream hmax
        (decodeBits_endsInside ht h2 hne hd hk)
    · exact exec_dec_raises_full herr hvalid hblen hbitcnt hdecodes hstream hfull
  · rw [hft] at ht
    have zeros : ∀ j, (List.replicate j [false]).flatten.length = j := fun j => by simp
    refine ⟨fun hmax hstream => fails ?_, fun hstream => fails ?_⟩
    · rw [← List.flatten_replicate_singleton] at hstream
      have hraised := exec_dec_raises_after herr hvalid hblen hbitcnt (ht.decodes_zeros n) hstream
        (List.length_replicate.trans_le hmax) (decodeBits_missing ht)
      rwa [zeros] at hraised
    · rw [← List.flatten_replicate_singleton] at hstream
      have hraised := exec_dec_raises_full herr hvalid hblen hbitcnt (ht.decodes_zeros _) hstream List.length_replicate
      rwa [zeros] at hraised

/-- Settles O42: the pre-checks do not look at the buffer, and the walk looks at the code bits only (`decodeBits_congr`). -/
theorem decIgnoresPadding : Obligations.DecIgnoresPadding := by
  intro s t m hsame h
  rcases gated_next h with ⟨herr, rfl⟩ | ⟨herr, -⟩
  · exact gated_of_err (s := { t with bbuf := m }) herr _
  rcases s.treeValid.eq_false_or_eq_true with hvalid | hvalid
  · rcases Nat.lt_or_ge Config.hdc1.maxBytes s.blen.toNat with hblen | hblen
    · rw [exec_dec_badLength herr hvalid hblen] at h
      cases h
      exact exec_dec_badLength (s := { s with bbuf := m }) herr hvalid hblen
    · rcases Nat.lt_or_ge (8 * s.blen.toNat) s.bitcnt.toNat with hbitcnt | hbitcnt
      · rw [exec_dec_truncated herr hvalid hblen hbitcnt] at h
        cases h
        exact exec_dec_truncated (s := { s with bbuf := m }) herr hvalid hblen hbitcnt
      · rw [exec_dec_bits herr hvalid hblen hbitcnt] at h
        rw [exec_dec_bits (s := { s with bbuf := m }) herr hvalid hblen hbitcnt,
          decodeBits_congr _ 0 _ 0 fun q _ hq => hsame q (hq.trans_eq (Nat.zero_add _))]
        rcases settle_next h with ⟨out, hdone, rfl⟩ | ⟨code, info, hraise, rfl⟩
        · rw [hdone]
          rfl
        · rw [hraise]
          rfl
  · rw [exec_dec_notReady herr hvalid] at h
    cases h
    exact exec_dec_notReady (s := { s with bbuf := m }) herr hvalid

/-- Settles O43: `ENC` writes a codeword for every value (`exec_enc_codewords`), and any block with the same tree and the
same stream reads the values back (`exec_dec_copied`). -/
theorem huffmanRoundTrip : Obligations.HuffmanRoundTrip := by
  intro s vs herr hvs
  refine ⟨fun hpos hmax hsyms => ?_, fun hnil => ?_⟩
  · obtain ⟨ft, htable, hfcnt⟩ := exec_fcnt_counts herr hvs hmax hsyms
    have hsum : countSum ft = vs.length := htable.countSum (hvs.1 ▸ s.vlen.isLt)
    have hbelow : countSum ft < 2 ^ 32 := hsum ▸ hmax.trans_lt (by decide)
    have hne : ft ≠ [] := by
      rintro rfl
      exact absurd (hsum.trans_ge hpos) (by decide)
    have htree := (buildTree_ok hne hbelow (htable.length_eq.trans_le (hsyms.trans (by decide)))).1
    have hbtree := exec_btree_builds (s := storeTable ft s) herr hne hbelow
    rcases exec_gcode_cases (s := storeTree (buildTree ft) (storeTable ft s)) herr rfl htree with
      ⟨info, hgcode⟩ | ⟨ct, hgcode, hcodes⟩
    · exact ⟨_, _, _, hfcnt, herr, hbtree, herr, hgcode, fun _ => rfl, fun hok => absurd hok (by simp)⟩
    · obtain ⟨words, henc, hfit, hdecodes⟩ :=
        exec_enc_codewords (s := storeCodes ct (storeTree (buildTree ft) (storeTable ft s))) herr rfl htree hcodes hvs
          hmax fun v hv hnone => htable.lookup_eq_none.mp hnone hv
      refine ⟨_, _, _, hfcnt, herr, hbtree, herr, hgcode, fun hraised => absurd hraised (by simp [herr]), fun _ =>
        ⟨_, _, henc, herr, exec_dec_copied hfit hmax herr rfl hdecodes rfl rfl fun _ _ => rfl, herr,
          valuesAre_storeDecoded hmax, fun u u' w herru hft hbuild herrw hvalid hnodes hroot hblen hbitcnt hbytes => ?_⟩⟩
      have hft : u.ft = ft := hft
      rw [exec_btree_builds herru (hft ▸ hne) (hft ▸ hbelow), hft] at hbuild
      cases hbuild
      exact ⟨_, exec_dec_copied hfit hmax herrw hvalid (hnodes ▸ hroot ▸ hdecodes) hblen hbitcnt hbytes, herrw,
        valuesAre_storeDecoded hmax⟩
  · subst hnil
    exact ⟨_, _, exec_fcnt_values herr hvs (Nat.zero_le _), exec_btree_empty herr rfl, rfl, rfl⟩

/-- Settles O44, by the next states of the commands (`exec_enc_next`, `exec_dec_next`). -/
theorem codecFrame : Obligations.CodecFrame := by
  refine ⟨fun s t h => ?_, fun s t h => ?_⟩
  · rcases exec_enc_next h with rfl | ⟨bs, hfit, rfl⟩ | ⟨code, info, rfl | rfl⟩
    · exact ⟨rfl, fun _ _ _ => rfl, fun _ _ => rfl⟩
    · have hkept := storeStream_keeps (s := s) hfit
      exact ⟨rfl, fun _ => hkept, fun k hk => hkept k ((storeStream_blen_le hfit).trans hk)⟩
    · exact ⟨rfl, fun _ _ _ => rfl, fun _ _ => rfl⟩
    · exact ⟨rfl, by simp, cellsKept_forget⟩
  · rcases exec_dec_next h with rfl | ⟨out, hfit, rfl⟩ | ⟨code, info, rfl | rfl⟩
    · exact ⟨rfl, fun _ _ _ => rfl, fun _ _ => rfl⟩
    · exact ⟨rfl, fun _ => cellsKept_writeFrom (storeDecoded_vlen_toNat hfit).ge, cellsKept_writeFrom hfit⟩
    · exact ⟨rfl, fun _ _ _ => rfl, fun _ _ => rfl⟩
    · exact ⟨rfl, by simp, cellsKept_forget⟩

end Sys2Proof.Machine

end

/-! # The control commands (44_control.md R170 to R172) -/

section

namespace Sys2Proof

/-! ## The words of `CLR` -/

/-- The word of `CLR` as a number: the opcode 1, and the mask from bit 8 up (30_encoding.md R90). -/
theorem encode_clr_eq_ofNat (arg : Byte) : encode (.clr arg) = BitVec.ofNat 32 (1 + 2 ^ 8 * arg.toNat) := by
  have happend : (0#16 ++ (arg ++ 0x01#8)).toNat = 1 + 2 ^ 8 * arg.toNat := by
    rw [BitVec.toNat_append, BitVec.toNat_append, BitVec.toNat_ofNat, Nat.zero_mod, Nat.zero_shiftLeft, Nat.zero_or,
      ← Nat.shiftLeft_add_eq_or_of_lt (0x01#8).isLt, Nat.shiftLeft_eq, Nat.mul_comm, Nat.add_comm]
    rfl
  have hlt : 1 + 2 ^ 8 * arg.toNat < 2 ^ 32 := by omega
  apply BitVec.eq_of_toNat_eq
  rw [BitVec.toNat_ofNat, Nat.mod_eq_of_lt hlt]
  exact happend

/-- The mask is well formed when its bits 6:4 are 0 (30_encoding.md R91). -/
theorem clrMaskOk_iff {arg : Byte} : clrMaskOk arg = true ↔ arg.extractLsb' 4 3 = 0#3 := beq_iff_eq

/-- With the opcode of `CLR` any mask decodes whose reserved bits are 0, and no other does (30_encoding.md R92). -/
theorem decode_encode_clr (arg : Byte) : decode (encode (.clr arg)) =
    if clrMaskOk arg then .instr (.clr arg) else .illegal .clrReservedMask := by
  simp [decode, Instr.opcode, Instr.argByte]

end Sys2Proof

namespace Sys2Proof.Machine

/-! ## The parts of `CLR` -/

theorem onlyIf_clearV (V : Bool) (s : State) :
    onlyIf V clearV s = { s with vlen := if V then 0#32 else s.vlen } := by
  cases V with
  | _ => rfl

theorem onlyIf_clearB (B : Bool) (s : State) : onlyIf B clearB s = { s with
    blen := if B then 0#32 else s.blen
    bitcnt := if B then 0#32 else s.bitcnt } := by
  cases B with
  | _ => rfl

theorem onlyIf_clearError (E : Bool) (s : State) : onlyIf E clearError s = { s with
    err := if E then false else s.err
    errCode := if E then .none else s.errCode
    errInfo := if E then 0#32 else s.errInfo
    errCmd := if E then 0#32 else s.errCmd } := by
  cases E with
  | _ => rfl

/-- The F part invalidates the tree as the T part does, so either of them, or both, leave it invalid. -/
theorem onlyIf_invalidateTree_clearF (T F : Bool) (s : State) : onlyIf T invalidateTree (onlyIf F clearF s) = { s with
    ft := if F then [] else s.ft
    treeValid := if F || T then false else s.treeValid
    codesValid := if F || T then false else s.codesValid
    root := if F || T then 0#32 else s.root
    nodes := if F || T then [] else s.nodes
    ct := if F || T then [] else s.ct } := by
  cases F with
  | _ => cases T with
    | _ => rfl

/-- The selected parts of `CLR`, field by field: no two parts but F and T write the same field. -/
theorem clearParts_eq (arg : Byte) (s : State) : clearParts arg s = { s with
    vlen := if maskV arg then 0#32 else s.vlen
    blen := if maskB arg then 0#32 else s.blen
    bitcnt := if maskB arg then 0#32 else s.bitcnt
    ft := if maskF arg then [] else s.ft
    treeValid := if maskF arg || maskT arg then false else s.treeValid
    codesValid := if maskF arg || maskT arg then false else s.codesValid
    root := if maskF arg || maskT arg then 0#32 else s.root
    nodes := if maskF arg || maskT arg then [] else s.nodes
    ct := if maskF arg || maskT arg then [] else s.ct
    err := if maskE arg then false else s.err
    errCode := if maskE arg then .none else s.errCode
    errInfo := if maskE arg then 0#32 else s.errInfo
    errCmd := if maskE arg then 0#32 else s.errCmd } := by
  rw [clearParts, onlyIf_clearError, onlyIf_invalidateTree_clearF, onlyIf_clearB, onlyIf_clearV]

/-! ## The gate of `CLR` (60_exceptions.md R213) -/

section

variable {arg : Byte} {s : State}

theorem exec_clr_runs (h : s.err = false ∨ maskE arg = true) : exec (.clr arg) s = .next (clearParts arg s) :=
  if_neg (by rcases h with herr | hE <;> simp [*])

theorem exec_clr_ignored (herr : s.err = true) (hE : maskE arg = false) : exec (.clr arg) s = .next s :=
  if_pos (by simp [herr, hE])

end

/-! ## The three commands -/

/-- Settles O14: the command is the reset transition, which keeps the host's side. -/
theorem srstResetsTheBlock : Obligations.SrstResetsTheBlock :=
  ⟨decode_encode (i := .srst) rfl, fun _ => rfl⟩

/-- Settles O15: whether the gate ignores `NOP` or lets it run, the state stays. -/
theorem nopChangesNothing : Obligations.NopChangesNothing := by
  refine ⟨decode_encode (i := .nop) rfl, fun s => ?_⟩
  cases herr : s.err with
  | true => exact gated_of_err herr _
  | false => exact gated_of_ok herr _

/-- Settles O16: the words by `decode_encode_clr`, the effect by the two sides of the gate and `clearParts_eq`. -/
theorem clrClearsTheSelected : Obligations.ClrClearsTheSelected := by
  refine ⟨fun arg hmask => ?_, fun arg hmask => ⟨.clrReservedMask, ?_⟩, fun arg s =>
    ⟨fun hruns => ?_, fun hignored => ?_⟩⟩
  · rw [← encode_clr_eq_ofNat, decode_encode_clr, if_pos (clrMaskOk_iff.mpr hmask)]
  · rw [← encode_clr_eq_ofNat, decode_encode_clr, if_neg (mt clrMaskOk_iff.mp hmask)]
  · exact (exec_clr_runs hruns).trans (congrArg Host.Outcome.next (clearParts_eq arg s))
  · obtain ⟨herr, hE⟩ := hignored
    exact exec_clr_ignored herr hE

end Sys2Proof.Machine

end

/-! # The error mechanism (60_exceptions.md R211 to R216) -/

section

namespace Sys2Proof.Machine

/-! ## The gate on a command word (R213) -/

/-- With an error recorded, every command but `SRST` and a `CLR` with E is ignored. -/
theorem exec_ignored {i : Instr} {s : State} (herr : s.err = true) (hclr : ∀ arg, i = .clr arg → maskE arg = false)
    (hsrst : i ≠ .srst) : exec i s = .next s := by
  cases i with
  | clr arg => exact exec_clr_ignored herr (hclr arg rfl)
  | srst => exact absurd rfl hsrst
  | _ => exact gated_of_err herr _

/-! ## The data errors of the loops (R211, R216) -/

/-- The errors of a command that are no pre-check errors: those its loop raises. -/
def dataErrors (i : Instr) : List ErrCode := (mayRaise i).filter (fun code => code ∉ preCheckErrors i)

theorem mem_dataErrors {i : Instr} {code : ErrCode} :
    code ∈ dataErrors i ↔ code ∈ mayRaise i ∧ code ∉ preCheckErrors i := by simp [dataErrors]

/-- If the work raises an error, then one of `codes`. -/
def Work.RaisesOnly {α : Type} (codes : List ErrCode) (w : Work α) : Prop :=
  ∀ code info, w = .raise code info → code ∈ codes

section

variable {α β : Type} {codes : List ErrCode}

theorem raisesOnly_done (a : α) : (Work.done a).RaisesOnly codes := nofun

theorem raisesOnly_stop (why : Fault) : (Work.stop why : Work α).RaisesOnly codes := nofun

theorem raisesOnly_raise {code : ErrCode} {info : Word} (h : code ∈ codes) :
    (Work.raise code info : Work α).RaisesOnly codes := by
  rintro _ _ ⟨⟩
  exact h

theorem Work.RaisesOnly.map {w : Work α} (h : w.RaisesOnly codes) (f : α → β) : (w.map f).RaisesOnly codes :=
  fun code info hraise => h code info (work_map_raise.mp hraise)

end

theorem encodeDeltas_raisesOnly (cells : List (Option Word)) :
    (encodeDeltas 0 0#32 0#32 cells).RaisesOnly (dataErrors .denc) := by
  rcases encodeDeltas_cases cells 0 0#32 0#32 with ⟨out, h, -⟩ | ⟨j, -, h⟩ | ⟨j, -, h⟩ <;> rw [h]
  · exact raisesOnly_done _
  · exact raisesOnly_raise (by decide)
  · exact raisesOnly_stop _

theorem decodeDeltas_raisesOnly (cells : List (Option Word)) :
    (decodeDeltas 0 0#32 0#32 cells).RaisesOnly (dataErrors .ddec) := by
  rcases decodeDeltas_cases cells 0 0#32 0#32 with ⟨out, h, -⟩ | ⟨j, -, h⟩ | ⟨j, -, h⟩ <;> rw [h]
  · exact raisesOnly_done _
  · exact raisesOnly_raise (by decide)
  · exact raisesOnly_stop _

theorem countValues_raisesOnly (maxSyms : Nat) (cells : List (Option Word)) :
    (countValues maxSyms 0 [] cells).RaisesOnly (dataErrors .fcnt) := by
  rcases countValues_cases maxSyms cells 0 [] [] tableOf_nil (Nat.zero_le _) with
    ⟨vs, ft, -, h, -⟩ | ⟨j, -, h⟩ | ⟨j, -, h⟩ <;> rw [h]
  · exact raisesOnly_done _
  · exact raisesOnly_raise (by decide)
  · exact raisesOnly_stop _

theorem generateCodes_raisesOnly (codeMax : Nat) (nodes : List Node) (root n : Nat) :
    (generateCodes codeMax nodes root n).RaisesOnly (dataErrors .gcode) := by
  unfold generateCodes
  split
  · exact raisesOnly_stop _
  · split
    · exact raisesOnly_stop _
    · split
      · exact raisesOnly_raise (by decide)
      · exact raisesOnly_done _

/-- The loop of `ENC` over any tables, be there a code for every entry or not. -/
theorem encodeValues_raisesOnly (maxBytes : Nat) (ft : List FtEntry) (ct : List Code) (cells : List (Option Word))
    (k p : Nat) : (encodeValues maxBytes ft ct k p cells).RaisesOnly (dataErrors .enc) := by
  induction cells generalizing k p with
  | nil => exact raisesOnly_done _
  | cons cell cells ih =>
    cases cell with
    | none => exact raisesOnly_stop _
    | some v =>
      unfold encodeValues
      split
      · exact raisesOnly_raise (by decide)
      · split
        · exact raisesOnly_stop _
        · split
          · exact raisesOnly_raise (by decide)
          · exact (ih _ _).map _

/-- The loop of `DEC` over any arena, be it a tree or not. -/
theorem decodeBits_raisesOnly (maxValues : Nat) (bbuf : Memory Byte) (nodes : List Node) (root : Nat) (total : Word)
    (n p node m : Nat) : (decodeBits maxValues bbuf nodes root total n p node m).RaisesOnly (dataErrors .dec) := by
  induction n generalizing p node m with
  | zero =>
    unfold decodeBits
    split
    · exact raisesOnly_done _
    · exact raisesOnly_raise (by decide)
  | succ n ih =>
    unfold decodeBits
    split
    · exact raisesOnly_stop _
    · split
      · exact raisesOnly_stop _
      · exact raisesOnly_raise (by decide)
      · exact ih _ _ _
      · split
        · exact raisesOnly_raise (by decide)
        · exact (ih _ _ _).map _

/-! ## The errors of a command (R211, R214, R216) -/

/-- The state `t` records an error that is the own one of command `i`, raised at `s`. -/
structure OwnError (i : Instr) (s t : State) : Prop where
  code : t.errCode ∈ mayRaise i
  cmd : t.errCmd = encode i
  keeps : t.errCode ∈ preCheckErrors i →
    t = { s with err := true, errCode := t.errCode, errInfo := t.errInfo, errCmd := t.errCmd }

/-- An outcome of command `i` at `s`: a next state with an error records one of the command's own. -/
def RaisesOwn (i : Instr) (s : State) (o : Host.Outcome State Fault Refusal) : Prop :=
  ∀ t, o = .next t → t.err = true → OwnError i s t

theorem mayRaise_of_preCheck {code : ErrCode} {i : Instr} (h : code ∈ preCheckErrors i) : code ∈ mayRaise i := by
  have hsub : preCheckErrors i ⊆ mayRaise i := by
    cases i with
    | clr arg => exact List.Subset.refl _
    | _ => decide
  exact hsub h

section

variable {P : Config.Params} {i : Instr} {s : State}

theorem raisesOwn_ok {t : State} (hok : t.err = false) : RaisesOwn i s (.next t) := by
  rintro _ ⟨⟩ herr
  rw [hok] at herr
  cases herr

theorem raisesOwn_preCheck {code : ErrCode} {info : Word} (h : code ∈ preCheckErrors i) :
    RaisesOwn i s (.next (raiseError code info (encode i) s)) := by
  rintro _ ⟨⟩ -
  exact ⟨mayRaise_of_preCheck h, rfl, fun _ => rfl⟩

theorem raisesOwn_ite {c : Prop} [Decidable c] {a b : Host.Outcome State Fault Refusal} (ha : RaisesOwn i s a)
    (hb : RaisesOwn i s b) : RaisesOwn i s (if c then a else b) := by
  split
  · exact ha
  · exact hb

/-- A failed pre-check raises the command's own error; otherwise the command goes on. -/
theorem raisesOwn_check {c : Prop} [Decidable c] {code : ErrCode} {info : Word}
    {o : Host.Outcome State Fault Refusal} (hcode : code ∈ preCheckErrors i) (ho : RaisesOwn i s o) :
    RaisesOwn i s (if c then .next (raiseError code info (encode i) s) else o) :=
  raisesOwn_ite (raisesOwn_preCheck hcode) ho

theorem raisesOwn_settle {α : Type} {store : α → State → State} {spoil : State → State} {w : Work α}
    (hstore : ∀ a, (store a s).err = false) (hw : w.RaisesOnly (dataErrors i)) :
    RaisesOwn i s (settle (encode i) s store spoil w) := by
  intro t ht
  rcases settle_next ht with ⟨a, -, rfl⟩ | ⟨code, info, hraise, rfl⟩
  · exact raisesOwn_ok (hstore a) _ rfl
  · obtain ⟨hcode, hdata⟩ := mem_dataErrors.mp (hw code info hraise)
    exact fun _ => ⟨hcode, rfl, fun hpre => absurd hpre hdata⟩

variable (herr : s.err = false)

include herr

theorem raisesOwn_gated {o : Host.Outcome State Fault Refusal} (ho : RaisesOwn i s o) : RaisesOwn i s (gated s o) := by
  rwa [gated_of_ok herr]

theorem deltaCommand_raisesOwn {loop : List (Option Word) → Work (List Word)} (hlen : .len ∈ preCheckErrors i)
    (hloop : ∀ cells, (loop cells).RaisesOnly (dataErrors i)) : RaisesOwn i s (deltaCommand P (encode i) loop s) :=
  raisesOwn_check hlen (raisesOwn_check hlen (raisesOwn_settle (fun _ => herr) (hloop _)))

theorem execClr_raisesOwn (arg : Byte) : RaisesOwn (.clr arg) s (execClr arg s) := by
  refine raisesOwn_ite (raisesOwn_ok herr) (raisesOwn_ok ?_)
  rw [clearParts_eq]
  cases maskE arg with
  | false => exact herr
  | true => rfl

theorem fputWith_raisesOwn : RaisesOwn .fput s (fputWith P s) := by
  refine raisesOwn_gated herr (raisesOwn_check (by decide) ?_)
  split
  · exact raisesOwn_preCheck (by decide)
  · exact raisesOwn_check (by decide) (raisesOwn_ok herr)

/-- Every command raises only its own errors, whatever the parameters (00_scope.md R5) and the tables. -/
theorem execWith_raisesOwn (P : Config.Params) (i : Instr) : RaisesOwn i s (execWith P i s) := by
  cases i with
  | nop => exact raisesOwn_gated herr (raisesOwn_ok herr)
  | clr arg => exact execClr_raisesOwn herr arg
  | srst => exact raisesOwn_ok rfl
  | denc => exact raisesOwn_gated herr (deltaCommand_raisesOwn herr (by decide) encodeDeltas_raisesOnly)
  | ddec => exact raisesOwn_gated herr (deltaCommand_raisesOwn herr (by decide) decodeDeltas_raisesOnly)
  | fcnt =>
    exact raisesOwn_gated herr (raisesOwn_check (by decide)
      (raisesOwn_settle (fun _ => herr) (countValues_raisesOnly _ _)))
  | fput => exact fputWith_raisesOwn herr
  | btree =>
    exact raisesOwn_gated herr (raisesOwn_check (by decide) (raisesOwn_check (by decide) (raisesOwn_ok herr)))
  | gcode =>
    exact raisesOwn_gated herr (raisesOwn_check (by decide)
      (raisesOwn_settle (fun _ => herr) (generateCodes_raisesOnly _ _ _ _)))
  | enc =>
    exact raisesOwn_gated herr (raisesOwn_check (by decide) (raisesOwn_check (by decide)
      (raisesOwn_settle (fun _ => herr) (encodeValues_raisesOnly _ _ _ _ _ _))))
  | dec =>
    exact raisesOwn_gated herr (raisesOwn_check (by decide) (raisesOwn_check (by decide) (raisesOwn_check (by decide)
      (raisesOwn_settle (fun _ => herr) (decodeBits_raisesOnly _ _ _ _ _ _ _ _ _)))))

end

/-! ## The statements -/

/-- Settles O17: the step of a legal word is `StepRunsTheDecodedCommand`, that of an illegal one `IllegalWordsRaise`;
which legal words the gate ignores is `exec_ignored`. -/
theorem errorGate : Obligations.ErrorGate := by
  intro s c rest hp
  have hlegal : ∀ i, decode c = .instr i → step s = exec i (takeEvent rest s) := fun i =>
    stepRunsTheDecodedCommand s c i rest hp
  obtain ⟨hillegal, -⟩ := illegalWordsRaise
  refine ⟨fun herr => ⟨hlegal .srst, fun arg hdec hE => ?_, fun hclr hsrst => ?_⟩,
    fun hok => ⟨hlegal, fun why hdec => ?_⟩⟩
  · obtain ⟨u, hu⟩ := clearParts_of_maskE hE (takeEvent rest s)
    have hclears : exec (.clr arg) (takeEvent rest s) = .next (clearError u) :=
      (exec_clr_runs (.inr hE)).trans (congrArg Host.Outcome.next hu)
    exact ⟨clearError u, (hlegal _ hdec).trans hclears, hlegal _ hdec, rfl⟩
  · cases hdec : decode c with
    | instr i =>
      rw [hdec] at hclr hsrst
      rw [hlegal i hdec]
      exact exec_ignored (s := takeEvent rest s) herr (fun arg hi => hclr arg (congrArg Decoded.instr hi))
        (fun hi => hsrst (congrArg Decoded.instr hi))
    | illegal why =>
      rw [hillegal s c rest why hp hdec, herr]
      rfl
  · rw [hillegal s c rest why hp hdec, hok]
    rfl

/-- Settles O18, command by command: the pre-checks and the loop raise the command's own errors
(`execWith_raisesOwn`). -/
theorem errorsAreTheCommandsOwn : Obligations.ErrorsAreTheCommandsOwn := by
  intro i s t hok hexec herr
  rw [← execWith_hdc1] at hexec
  obtain ⟨hcode, hcmd, hkeeps⟩ := execWith_raisesOwn hok Config.hdc1 i t hexec herr
  exact ⟨hcode, hcmd, hkeeps⟩

end Sys2Proof.Machine

end

/-! # Idle steps, hardware resets, and the reads of UNSPEC cells (70_reset_and_hazards.md R240, R241, R245)

A command that stops was not ignored and passed its pre-checks, so its loop stopped; and a loop stops only at an element
that was never written. -/

section

namespace Sys2Proof.Machine

section

variable {P : Config.Params} {s : State} {i : Instr} {f : Fault} {rest : List HostEvent}

/-! ## Steps without a transaction at the port (R240, R241) -/

theorem stepWith_idle (hp : s.pending = []) : stepWith P s = .next s := by rw [stepWith, hp]

theorem stepWith_hardReset (hp : s.pending = .hardReset :: rest) :
    stepWith P s = .next (resetBlock (takeEvent rest s)) := by rw [stepWith, hp]; rfl

/-! ## Where a fault comes from -/

theorem gated_fault {run : Host.Outcome State Fault Refusal} (h : gated s run = .fault f) :
    s.err = false ∧ run = .fault f := by
  cases herr : s.err with
  | true => rw [gated_of_err herr] at h; cases h
  | false => exact ⟨rfl, by rwa [gated_of_ok herr] at h⟩

/-- A pre-check that fails answers a next state, so a command that stops has passed it. -/
theorem fault_of_check {c : Prop} [Decidable c] {t : State} {o : Host.Outcome State Fault Refusal}
    (h : (if c then .next t else o) = .fault f) : o = .fault f := by
  split at h
  · cases h
  · exact h

theorem deltaCommand_fault {cmd : Word} {loop : List (Option Word) → Work (List Word)}
    (h : deltaCommand P cmd loop s = .fault f) : loop (valueCells s) = .stop f :=
  settle_fault (fault_of_check (fault_of_check h))

theorem Safe.not_fault {o : Host.Outcome State Fault Refusal} (h : Safe P False o) : o ≠ .fault f := by
  rintro rfl
  exact h

theorem Safe.not_refused {mayStop : Prop} {o : Host.Outcome State Fault Refusal} (h : Safe P mayStop o) (r : Refusal) :
    o ≠ .refused r := by
  rintro rfl
  exact h

/-! ## Where the loops stop -/

/-- The work stops, if at all, at an `UNSPEC` cell of the sequence, and names it. -/
def Work.StopsAtUnspec {α : Type} (cells : List (Option Word)) (w : Work α) : Prop :=
  ∀ f, w = .stop f → ∃ j, cells[j]? = some none ∧ f = .vbufUnspec j

section

variable {α : Type} {cells : List (Option Word)} {w : Work α}

theorem stopsAtUnspec_of_done {a : α} (hd : w = .done a) : w.StopsAtUnspec cells := by
  subst hd
  exact nofun

theorem stopsAtUnspec_of_raise {code : ErrCode} {info : Word} (hr : w = .raise code info) : w.StopsAtUnspec cells := by
  subst hr
  exact nofun

theorem stopsAtUnspec_of_stop {j : Nat} (hj : cells[j]? = some none) (hs : w = .stop (.vbufUnspec (0 + j))) :
    w.StopsAtUnspec cells := by
  rw [hs, Nat.zero_add]
  rintro _ ⟨⟩
  exact ⟨j, hj, rfl⟩

end

theorem encodeDeltas_stops (a b : Word) (cells : List (Option Word)) :
    (encodeDeltas 0 a b cells).StopsAtUnspec cells := by
  rcases encodeDeltas_cases cells 0 a b with ⟨out, hd, -⟩ | ⟨j, -, hr⟩ | ⟨j, hj, hs⟩
  · exact stopsAtUnspec_of_done hd
  · exact stopsAtUnspec_of_raise hr
  · exact stopsAtUnspec_of_stop hj hs

theorem decodeDeltas_stops (a b : Word) (cells : List (Option Word)) :
    (decodeDeltas 0 a b cells).StopsAtUnspec cells := by
  rcases decodeDeltas_cases cells 0 a b with ⟨out, hd, -⟩ | ⟨j, -, hr⟩ | ⟨j, hj, hs⟩
  · exact stopsAtUnspec_of_done hd
  · exact stopsAtUnspec_of_raise hr
  · exact stopsAtUnspec_of_stop hj hs

theorem countValues_stops (maxSyms : Nat) (cells : List (Option Word)) :
    (countValues maxSyms 0 [] cells).StopsAtUnspec cells := by
  rcases countValues_cases maxSyms cells 0 [] [] tableOf_nil (Nat.zero_le _) with
    ⟨vs, ft, -, hd, -⟩ | ⟨j, -, hr⟩ | ⟨j, hj, hs⟩
  · exact stopsAtUnspec_of_done hd
  · exact stopsAtUnspec_of_raise hr
  · exact stopsAtUnspec_of_stop hj hs

theorem encodeValues_stops (maxBytes : Nat) {ft : List FtEntry} {ct : List Code} (hct : ct.length = ft.length)
    (cells : List (Option Word)) : (encodeValues maxBytes ft ct 0 0 cells).StopsAtUnspec cells := by
  rcases encodeValues_cases maxBytes hct cells 0 0 (Nat.zero_le _) with
    ⟨vs, words, -, -, -, hd⟩ | ⟨j, -, code, -, hr⟩ | ⟨j, hj, hs⟩
  · exact stopsAtUnspec_of_done hd
  · exact stopsAtUnspec_of_raise hr
  · exact stopsAtUnspec_of_stop hj hs

/-- Over a tree of R36 the walk stops only at a bit of an `UNSPEC` byte. -/
theorem decodeBits_stop {maxValues : Nat} {bbuf : Memory Byte} {ft : List FtEntry} {nodes : List Node} {root : Nat}
    {total : Word} {n : Nat} (ht : TreeOk ft nodes root)
    (h : decodeBits maxValues bbuf nodes root total n 0 root 0 = .stop f) :
    ∃ q < n, streamBit bbuf q = none ∧ f = .bbufUnspec (q / 8) := by
  rcases decodeBits_cases (maxValues := maxValues) (bbuf := bbuf) (total := total) ht n 0 root 0 (.inl rfl)
    (Nat.zero_le _) with ⟨out, hd, -⟩ | ⟨code, info, -, hr⟩ | ⟨q, -, hq, hnone, hs⟩
  · cases hd.symm.trans h
  · cases hr.symm.trans h
  · cases hs.symm.trans h
    exact ⟨q, by omega, hnone, rfl⟩

/-! ## Where the commands stop -/

/-- Command `i` in the state `s` reads the `UNSPEC` cell that the fault names (R245, 93_implementation_defined.md U1). -/
inductive ReadsUnspec (s : State) : Instr → Fault → Prop
  | value {i : Instr} {k : Nat} (hi : i = .denc ∨ i = .ddec ∨ i = .fcnt ∨ i = .enc) (hk : k < s.vlen.toNat)
      (hread : Memory.read s.vbuf k = none) : ReadsUnspec s i (.vbufUnspec k)
  | byte {j : Nat} (hj : j < bytesFor s.bitcnt.toNat) (hread : Memory.read s.bbuf j = none) :
      ReadsUnspec s .dec (.bbufUnspec j)

/-- A command whose loop over the value sequence stops reads an `UNSPEC` cell below `VLEN`. -/
theorem Work.StopsAtUnspec.readsUnspec {α : Type} {w : Work α} (hw : w.StopsAtUnspec (valueCells s)) (hs : w = .stop f)
    (hi : i = .denc ∨ i = .ddec ∨ i = .fcnt ∨ i = .enc) : ReadsUnspec s i f := by
  obtain ⟨k, hk, rfl⟩ := hw f hs
  rw [valueCells, cellsFrom_getElem?, Nat.zero_add] at hk
  split at hk
  · rename_i hlt
    exact .value hi hlt (Option.some.inj hk)
  · cases hk

/-- A byte that holds one of the first `BITCNT` bits of the stream is one that `DEC` reads. -/
theorem readsUnspec_of_streamBit {q : Nat} (hq : q < s.bitcnt.toNat) (hnone : streamBit s.bbuf q = none) :
    ReadsUnspec s .dec (.bbufUnspec (q / 8)) :=
  .byte (by rw [bytesFor]; omega) (Option.map_eq_none_iff.mp hnone)

theorem encWith_fault (h : s.Inv P) (hf : encWith P s = .fault f) : s.err = false ∧ ReadsUnspec s .enc f := by
  obtain ⟨herr, hf⟩ := gated_fault hf
  split at hf
  · cases hf
  · rename_i hvalid
    have hct := (h.codes (by simpa using hvalid)).count
    exact ⟨herr, (encodeValues_stops _ hct _).readsUnspec (settle_fault (fault_of_check hf)) (by decide)⟩

theorem decWith_fault (h : s.Inv P) (hf : decWith P s = .fault f) : s.err = false ∧ ReadsUnspec s .dec f := by
  obtain ⟨herr, hf⟩ := gated_fault hf
  split at hf
  · cases hf
  · rename_i hvalid
    have ht := h.tree (by simpa using hvalid)
    obtain ⟨q, hq, hnone, rfl⟩ := decodeBits_stop ht (settle_fault (fault_of_check (fault_of_check hf)))
    exact ⟨herr, readsUnspec_of_streamBit hq hnone⟩

/-- From a state with the invariant a command stops only where it reads an `UNSPEC` cell, with no error recorded. -/
theorem execWith_fault (hP : P.ok = true) (h : s.Inv P) (hf : execWith P i s = .fault f) :
    s.err = false ∧ ReadsUnspec s i f := by
  cases i with
  | nop =>
    obtain ⟨-, hf⟩ := gated_fault hf
    cases hf
  | clr arg => exact absurd hf (execClr_safe h arg).not_fault
  | srst => cases hf
  | denc =>
    obtain ⟨herr, hf⟩ := gated_fault hf
    exact ⟨herr, (encodeDeltas_stops _ _ _).readsUnspec (deltaCommand_fault hf) (by decide)⟩
  | ddec =>
    obtain ⟨herr, hf⟩ := gated_fault hf
    exact ⟨herr, (decodeDeltas_stops _ _ _).readsUnspec (deltaCommand_fault hf) (by decide)⟩
  | fcnt =>
    obtain ⟨herr, hf⟩ := gated_fault hf
    exact ⟨herr, (countValues_stops _ _).readsUnspec (settle_fault (fault_of_check hf)) (by decide)⟩
  | fput => exact absurd hf (fputWith_safe h).not_fault
  | btree => exact absurd hf (execBtree_safe hP h).not_fault
  | gcode => exact absurd hf (gcodeWith_safe hP h).not_fault
  | enc => exact encWith_fault h hf
  | dec => exact decWith_fault h hf

end

/-! ## The statements -/

/-- Settles O48: the fault names the cell read (`execWith_fault`), and `execWith_safe` allows no refusal. -/
theorem faultsOnlyOnUnspecReads : Obligations.FaultsOnlyOnUnspecReads := by
  intro s i hinv
  rw [← execWith_hdc1]
  refine ⟨fun f hf => ?_, (execWith_safe (by decide) hinv i).not_refused⟩
  obtain ⟨herr, hread⟩ := execWith_fault (by decide) hinv hf
  cases hread with
  | value hi hk hnone => exact .inl ⟨_, hk, rfl, hnone, herr, hi⟩
  | byte hj hnone => exact .inr ⟨_, hj, rfl, hnone, herr, rfl⟩

/-- Settles O6: the host's side that the reset keeps is the one after the transaction is taken up. -/
theorem idleAndHardReset : Obligations.IdleAndHardReset :=
  ⟨fun _ hp => stepWith_idle hp, fun _ _ hp => stepWith_hardReset hp⟩

end Sys2Proof.Machine

end
